-- ==== Sys2Proof/Word.lean ====
section
/-! DEFINITION. The word types of the engine: a byte of a stream, a bit string, a 9-bit symbol value. -/

namespace Sys2Proof

/-- One byte of a stream: the 8-bit word of 00_scope.md R5 (`WORD_W`). -/
abbrev Byte := BitVec 8

/-- A bit string, in the order its bits are produced or consumed (R7); `true` is 1. -/
abbrev Bits := List Bool

/-- The value of a leaf: the 9-bit field of R94, 0 to 511 (R24). -/
abbrev Sym := BitVec 9

/-- The four places an encoding of the opcode table can stand in (its column `space`): the command
register, the first 32 bits of a container, the serialised header, the payload. -/
inductive Space where
  | command
  | magic
  | header
  | payload
  deriving DecidableEq, Repr

end Sys2Proof
end

