-- ==== Sys2Proof/Config.lean ====
section
/-! DEFINITION. The constants of 00_scope.md R5, the parameters of R6, and the free value. -/

namespace Sys2Proof

/-- Width in bits of one input or output word (R5). -/
abbrev wordW : Nat := 8

/-- Number of symbols 0 to 256, the size of the frequency table (R5). -/
abbrev nsym : Nat := 257

/-- The pseudo-end-of-file symbol (R5, R102). -/
abbrev pseudoEof : Nat := 256

/-- Width in bits of the symbol field of a serialised leaf (R5, R94). -/
abbrev symFieldW : Nat := 9

/-- Width in bits of the magic number (R5, R91). -/
abbrev magicW : Nat := 32

/-- The symbol value of the synthesised placeholder leaf (R6, R143). -/
abbrev placeholder : Nat := 257

/-- The weight of the placeholder leaf (R6, R143). -/
abbrev placeholderWeight : Nat := 0

/-- The sequence number of the first internal node that `BLD` makes (R141). -/
abbrev firstInternalSeq : Nat := 258

/-- The parameters R6 leaves open, constants of one engine. -/
structure Config where
  /-- `MAGIC`, the 32-bit constant of R91. -/
  magic : BitVec 32
  /-- `CNT_W`, the width of counts and weights: `none` is unbounded (R6, R133). -/
  cntW : Option Nat
  /-- `NODE_CAP`, the number of nodes the tree store holds: `none` is unbounded (R6, R180). -/
  nodeCap : Option Nat
  deriving DecidableEq, Repr

/-- The limits R6 puts on the parameters: a finite `NODE_CAP` is at least 514; a finite `CNT_W` has
a bit for the count 1 of pseudo-EOF (R130). -/
def Config.wf (c : Config) : Bool :=
  (match c.cntW with
    | none => true
    | some w => decide (1 ≤ w)) &&
  (match c.nodeCap with
    | none => true
    | some n => decide (514 ≤ n))

/-- The parameters of `State.reset`. PRESUMED: the value of `MAGIC` is the spec's suggested default
[from general knowledge, not in source] (R6, GK1; log 2). The rest is unbounded (D6, D7; log 3). -/
def Config.suggested : Config := ⟨0xFACE8201#32, none, none⟩

/-- FREE VALUE (log 12): how many whole bytes of an output that is not closed the sink holds at the
`k`-th look at it. The spec does not say (R68, R241, U4). No body: nothing can be proved of its
values. -/
opaque Config.sinkPrefix : Nat → Nat

end Sys2Proof
end

