-- ==== Sys2Proof/Syntax.lean ====
section
/-! DEFINITION. The instructions: one constructor per row of spec/opcode_table.json. -/

namespace Sys2Proof

/-- The rows of the opcode table: the sixteen command codes (R110, R111), which have no operand, and
the five stream formats. An operand is the unsigned integer its field spells (R94, R91). -/
inductive Instr where
  | reserved0
  | cnt
  | bld
  | gen
  | wmg
  | ser
  | enc
  | fin
  | rmg
  | des
  | dec
  | cmp
  | dcmp
  | reserved13
  | reserved14
  | clr
  | magic (m : Nat)
  | hdrInt
  | hdrLeaf (sym : Nat)
  | payL
  | payR
  deriving DecidableEq, Repr

end Sys2Proof
end

