-- ==== Sys2Proof/WellFormed.lean ====
section
/-! DEFINITION. Which terms of `Instr` are instructions: every operand fits its field. -/

namespace Sys2Proof

/-- An operand is in the range of its field: the magic number has 32 bits (R91), the symbol of a leaf
token nine (R94). Every other row has no operand. -/
def Instr.wf : Instr → Bool
  | .magic m => decide (m < 2 ^ magicW)
  | .hdrLeaf sym => decide (sym < 2 ^ symFieldW)
  | .reserved0 | .cnt | .bld | .gen | .wmg | .ser | .enc | .fin | .rmg | .des | .dec | .cmp
  | .dcmp | .reserved13 | .reserved14 | .clr | .hdrInt | .payL | .payR => true

end Sys2Proof
end

