-- ==== Sys2Proof/Decode.lean ====
section
/-! DEFINITION. Bit strings and their values, the decoder, the encoder, the mnemonics. -/

namespace Sys2Proof

/-! ## Bit order -/

/-- `bits_n(v)` of R7: the low `n` bits of `v`, most significant first. -/
def bitsOf : Nat → Nat → Bits
  | 0, _ => []
  | n + 1, v => v.testBit n :: bitsOf n v

/-- `uint(s)` of R7: the unsigned integer a bit string spells, first bit most significant. -/
def uint (s : Bits) : Nat := s.foldl (fun a b => 2 * a + b.toNat) 0

/-- The bits of a byte in stream order (R60). -/
def byteBits (b : Byte) : Bits := bitsOf 8 b.toNat

/-- The bits of a sequence of bytes in stream order (R36, R60). -/
def bitsOfBytes (bs : List Byte) : Bits := bs.flatMap byteBits

/-- The byte view of a bit string (R37): byte `k` is `uint` of bits `8k` to `8k + 7`. -/
def bytesOfBits (s : Bits) : List Byte :=
  (List.range (s.length / 8)).map fun k => BitVec.ofNat 8 (uint ((s.drop (8 * k)).take 8))

/-- The number of zero bits that `Close` adds after `n` bits (R68, R98). -/
def padLen (n : Nat) : Nat := (8 - n % 8) % 8

/-- A bit string padded with zero bits to whole bytes (R68). -/
def padToByte (s : Bits) : Bits := s ++ List.replicate (padLen s.length) false

/-! ## Decoding -/

/-- Why a bit string is no instruction of its space. -/
inductive DecodeError where
  /-- Fewer than four bits of a command code. -/
  | shortCommand
  /-- Fewer than 32 bits of a magic number (R172). -/
  | shortMagic
  /-- No marker bit (R175). -/
  | noMarker
  /-- Fewer than nine bits of a symbol field (R176). -/
  | shortSymbol
  /-- No payload bit (R204). -/
  | noPayloadBit
  deriving DecidableEq, Repr

/-- The instruction of a 4-bit command code (R110, R111). Upper bits of a wider value are ignored
(R33). -/
def decodeCommand (v : Nat) : Instr :=
  match v % 16 with
  | 1 => .cnt
  | 2 => .bld
  | 3 => .gen
  | 4 => .wmg
  | 5 => .ser
  | 6 => .enc
  | 7 => .fin
  | 8 => .rmg
  | 9 => .des
  | 10 => .dec
  | 11 => .cmp
  | 12 => .dcmp
  | 13 => .reserved13
  | 14 => .reserved14
  | 15 => .clr
  | _ => .reserved0

/-- The width of the field that follows a marker bit: none after `0` (R93), nine bits after `1`
(R94). -/
def fieldWidth (marker : Nat) : Nat := if marker = 0 then 0 else symFieldW

/-- The header token of a marker bit and its field (R93, R94). -/
def decodeHeader (marker field : Nat) : Instr :=
  if marker = 0 then .hdrInt else .hdrLeaf field

/-- The payload format of one bit (R99). -/
def decodePayload (b : Nat) : Instr := if b = 0 then .payL else .payR

/-- The instruction at the front of a bit string in stream order, and the bits after it. -/
def decode : Space → Bits → Except DecodeError (Instr × Bits)
  | .command, s =>
    if s.length < 4 then .error .shortCommand
    else .ok (decodeCommand (uint (s.take 4)), s.drop 4)
  | .magic, s =>
    if s.length < magicW then .error .shortMagic
    else .ok (.magic (uint (s.take magicW)), s.drop magicW)
  | .header, [] => .error .noMarker
  | .header, b :: s =>
    if s.length < fieldWidth b.toNat then .error .shortSymbol
    else .ok (decodeHeader b.toNat (uint (s.take (fieldWidth b.toNat))), s.drop (fieldWidth b.toNat))
  | .payload, [] => .error .noPayloadBit
  | .payload, b :: s => .ok (decodePayload b.toNat, s)

/-! ## Encoding -/

/-- The space an instruction stands in (the opcode table's column `space`). -/
def Instr.space : Instr → Space
  | .magic _ => .magic
  | .hdrInt | .hdrLeaf _ => .header
  | .payL | .payR => .payload
  | .reserved0 | .cnt | .bld | .gen | .wmg | .ser | .enc | .fin | .rmg | .des | .dec | .cmp
  | .dcmp | .reserved13 | .reserved14 | .clr => .command

/-- The integer the opcode table's pattern of an instruction spells (R110, R111, R91, R93, R94,
R99). -/
def Instr.code : Instr → Nat
  | .reserved0 => 0
  | .cnt => 1
  | .bld => 2
  | .gen => 3
  | .wmg => 4
  | .ser => 5
  | .enc => 6
  | .fin => 7
  | .rmg => 8
  | .des => 9
  | .dec => 10
  | .cmp => 11
  | .dcmp => 12
  | .reserved13 => 13
  | .reserved14 => 14
  | .clr => 15
  | .magic m => m
  | .hdrInt => 0
  | .hdrLeaf sym => 2 ^ symFieldW + sym
  | .payL => 0
  | .payR => 1

/-- The width in bits of an instruction (the opcode table's `width`). -/
def Instr.width : Instr → Nat
  | .magic _ => magicW
  | .hdrInt | .payL | .payR => 1
  | .hdrLeaf _ => 1 + symFieldW
  | .reserved0 | .cnt | .bld | .gen | .wmg | .ser | .enc | .fin | .rmg | .des | .dec | .cmp
  | .dcmp | .reserved13 | .reserved14 | .clr => 4

/-- The bits of an instruction in stream order, most significant first (R7, R61). -/
def encode (i : Instr) : Bits := bitsOf i.width i.code

/-- The space a table word of `nbits` bits is read in. The table's three kinds of short rows share
their words (log 16): four bits, or a byte, is a command code; one bit is a payload bit. -/
def tableSpace (nbits : Nat) : Option (Space × Nat) :=
  match nbits with
  | 1 => some (.payload, 1)
  | 4 => some (.command, 4)
  | 8 => some (.command, 4)
  | 10 => some (.header, 10)
  | 16 => some (.header, 10)
  | 32 => some (.magic, 32)
  | _ => none

/-- The instruction the decoder reads from a word numbered as the opcode table numbers it: bit 0 the
least significant bit of the row's pattern, which is the last of its bits in stream order. -/
def decodeTableWord (nbits w : Nat) : Option Instr :=
  match tableSpace nbits with
  | none => none
  | some (sp, n) =>
    match decode sp (bitsOf n w) with
    | .ok (i, _) => some i
    | .error _ => none

/-! ## The notation of programs -/

/-- The mnemonic of a row (R112). -/
def Instr.mnemonic : Instr → String
  | .reserved0 => "RESERVED_0"
  | .cnt => "CNT"
  | .bld => "BLD"
  | .gen => "GEN"
  | .wmg => "WMG"
  | .ser => "SER"
  | .enc => "ENC"
  | .fin => "FIN"
  | .rmg => "RMG"
  | .des => "DES"
  | .dec => "DEC"
  | .cmp => "CMP"
  | .dcmp => "DCMP"
  | .reserved13 => "RESERVED_13"
  | .reserved14 => "RESERVED_14"
  | .clr => "CLR"
  | .magic _ => "MAGIC"
  | .hdrInt => "HDR_INT"
  | .hdrLeaf _ => "HDR_LEAF"
  | .payL => "PAY_L"
  | .payR => "PAY_R"

/-- The command a line of a program names (R112), the two pseudo-instructions among them (R113). -/
def commandOfMnemonic (m : String) : Option Instr :=
  if m = "COMPRESS" then some .cmp
  else if m = "DECOMPRESS" then some .dcmp
  else [Instr.cnt, .bld, .gen, .wmg, .ser, .enc, .fin, .rmg, .des, .dec, .cmp, .dcmp, .clr].find?
    fun i => i.mnemonic = m

end Sys2Proof
end

