-- ==== Sys2Proof/Machine/State.lean ====
section
/-! DEFINITION. The state of the engine and of its two streams (10_state.md R20), the parameters, and the
model's own fields. Plain data. -/

namespace Sys2Proof.Machine

/-- The tree store's type (R24): a weight is `none` where R25 calls it `unset`. -/
inductive Tree where
  | leaf (sym : Sym) (weight : Option Nat)
  | node (left right : Tree) (weight : Option Nat)
  deriving DecidableEq, Repr

/-- `TREE_ST` (R26). The code 3 is never produced. -/
inductive TreeSt where
  | none
  | built
  | parsed
  deriving DecidableEq, Repr

/-- `ERR` (R30, 60_exceptions.md R236). The codes 9 to 15 are never produced. -/
inductive ErrCode where
  | none
  /-- The magic number is absent or another one (R237). -/
  | headerError
  /-- The input ended where a bit was expected (R238). -/
  | truncatedStreamError
  /-- The decode walk moves into a child that does not exist (R239). -/
  | malformedStructureError
  /-- A precondition of R216 does not hold. -/
  | illegalSequence
  /-- `ENC` read a word without a code (R192). -/
  | absentCode
  /-- A reserved code was written to `CMD` (R111). -/
  | illegalCommand
  /-- The collaborator signalled that an access failed (R78). -/
  | ioError
  /-- A count passed `2^CNT_W - 1`, or a tree needs more than `NODE_CAP` nodes (R133, R180). -/
  | capacityError
  deriving DecidableEq, Repr

/-- `PHASE` (R31). -/
inductive Phase where
  | none
  | headerValidation
  | treeParse
  | payloadDecode
  | count
  | build
  | headerWrite
  | payloadEncode
  deriving DecidableEq, Repr

/-- `IN` (R36). -/
structure InStream where
  data : List Byte
  pos : Nat
  deriving DecidableEq, Repr

/-- `OUT` (R37). -/
structure OutStream where
  bits : Bits
  closed : Bool
  deriving DecidableEq, Repr

/-- An internal node that `DES` has begun and not finished: its left subtree is being parsed, or its
left subtree is there and the right one is being parsed (R39 (b), R175). -/
inductive Frame where
  | left
  | right (l : Tree)
  deriving DecidableEq, Repr

/-- What of a container the engine is in the middle of reading (R39 (b)): nothing; the 32 bits of
`RMG`; a header token of `DES`, with the nodes begun, innermost first. Every command leaves it
`idle` (log 14). A walk of `DEC` is told by `CUR`. -/
inductive Scan where
  | idle
  | magic
  | header (stack : List Frame)
  deriving DecidableEq, Repr

/-- The host's actions (70_reset_and_hazards.md R273) and its two registers by number (R33, R34). -/
inductive HostAction where
  | attachIn (bytes : List Byte)
  | attachOut
  | writeReg (reg : Nat) (value : BitVec 16)
  | readReg (reg : Nat)
  | readOut
  | reset
  deriving DecidableEq, Repr

/-- What the host's last read gave it (log 11). -/
inductive HostRead where
  | nothing
  | reg (value : BitVec 16)
  | out (bytes : List Byte)
  deriving DecidableEq, Repr

/-- The state. The fields down to `out` are the tuple of R20 with the parameters of R6 before it; the
rest are the model's own (INVENTORY.md, State). -/
structure State where
  /-- The parameters (R6). No step changes them (log 1). -/
  cfg : Config
  /-- `FREQ` (R22). -/
  freq : Vector Nat nsym
  /-- `FREQ_VALID` (R23). -/
  freqValid : Bool
  /-- `TREE` (R24). It holds a value in every state; `treeSt` says whether that is a tree of the
  engine (log 6, log 8). -/
  tree : Tree
  /-- `TREE_ST` (R26). -/
  treeSt : TreeSt
  /-- `CODE` (R27); `none` is `absent`. -/
  code : Vector (Option Bits) nsym
  /-- `CODE_VALID` (R28). -/
  codeValid : Bool
  /-- `CUR` (R29), as a path from the root. -/
  cur : Option Bits
  /-- `ERR` (R30). -/
  err : ErrCode
  /-- `PHASE` (R31). -/
  phase : Phase
  /-- `DONE` (R32). -/
  done : Bool
  /-- `IN` (R36). -/
  inp : InStream
  /-- `OUT` (R37). -/
  out : OutStream
  /-- The part of a container that is being read (R39 (b); log 14). -/
  scan : Scan
  /-- The accesses the collaborator will fail (R78, `io_fails`): each entry is how many accesses
  succeed before the next one that fails; the empty list is a collaborator that does not fail
  (log 4). -/
  ioFail : List Nat
  /-- The host's actions to come (R112, R273; log 9). -/
  host : List HostAction
  /-- What the host last read (log 11). -/
  lastRead : HostRead
  /-- How many free values have been taken (log 12). -/
  reads : Nat
  /-- The history mark of R278: set by every fault and every refusal, cleared by nothing (log 18). -/
  mark : Bool
  deriving DecidableEq, Repr

/-- Why the machine stops without a next state. The faults of the spec are no such stops: each is a
next state (60_exceptions.md R240). -/
inductive Fault where
  /-- The host used a register number other than 0 and 1 (R33, R34). Raised by `step` on a host
  action. Safe: the spec gives no such register (log 10). -/
  | noSuchRegister (reg : Nat)
  deriving DecidableEq, Repr

/-- Why an instruction has no meaning. -/
inductive Refusal where
  /-- An arm of `exec` that has no meaning yet. Raised by no arm. Safe. -/
  | notModelled (mnemonic : String)
  deriving DecidableEq, Repr

/-- The machine after reset (10_state.md R40). The spec states the validity fields, `CUR`, `ERR`,
`PHASE` and `DONE`. DESIGN CHOICE: the contents of the tables (log 6), the streams (log 7), the model's
own fields (log 4, 9, 11, 12, 14, 18). PRESUMED: the parameters (log 2, 3). -/
def State.reset : State where
  cfg := Config.suggested
  freq := Vector.replicate nsym 0
  freqValid := false
  tree := .leaf 0#9 none
  treeSt := .none
  code := Vector.replicate nsym none
  codeValid := false
  cur := none
  err := .none
  phase := .none
  done := false
  inp := ⟨[], 0⟩
  out := ⟨[], false⟩
  scan := .idle
  ioFail := []
  host := []
  lastRead := .nothing
  reads := 0
  mark := false

end Sys2Proof.Machine
end

