-- ==== Sys2Proof/Machine/Flags.lean ====
section
/-! DEFINITION. The validity flags, the preconditions of R216, and the `STATUS` view. -/

namespace Sys2Proof.Machine

/-- The numeric code of a fault (60_exceptions.md R236). -/
def ErrCode.code : ErrCode → Nat
  | .none => 0
  | .headerError => 1
  | .truncatedStreamError => 2
  | .malformedStructureError => 3
  | .illegalSequence => 4
  | .absentCode => 5
  | .illegalCommand => 6
  | .ioError => 7
  | .capacityError => 8

/-- The numeric code of a phase (10_state.md R31). -/
def Phase.code : Phase → Nat
  | .none => 0
  | .headerValidation => 1
  | .treeParse => 2
  | .payloadDecode => 3
  | .count => 4
  | .build => 5
  | .headerWrite => 6
  | .payloadEncode => 7

/-- The numeric code of `TREE_ST` (10_state.md R26). -/
def TreeSt.code : TreeSt → Nat
  | .none => 0
  | .built => 1
  | .parsed => 2

/-- `FREQ_VALID`, `TREE_ST`, `CODE_VALID` and `CUR` cleared: what every fault, `CLR`, reset and the
start of `CMP` and `DCMP` do (R217, R240, R222, R220). -/
def discardAll (s : State) : State :=
  { s with freqValid := false, treeSt := .none, codeValid := false, cur := none, scan := .idle }

/-- `DONE <- b` (R32): 0 when a command is accepted, 1 when it completes. -/
def setDone (s : State) (b : Bool) : State := { s with done := b }

/-- The output takes bits: `OUT.closed = 0`. -/
def outOpen (s : State) : Bool := !s.out.closed

/-- There is a tree: `TREE_ST != NONE`. -/
def hasTree (s : State) : Bool := decide (s.treeSt ≠ .none)

/-- `Pre(CNT)` (R216). -/
def preCnt (_ : State) : Bool := true

/-- `Pre(BLD)` (R216). -/
def preBld (s : State) : Bool := s.freqValid

/-- `Pre(GEN)` (R216). -/
def preGen (s : State) : Bool := decide (s.treeSt = .built)

/-- `Pre(WMG)` (R216). -/
def preWmg (s : State) : Bool := outOpen s

/-- `Pre(SER)` (R216). -/
def preSer (s : State) : Bool := hasTree s && outOpen s

/-- `Pre(ENC)` (R216). -/
def preEnc (s : State) : Bool := s.codeValid && outOpen s

/-- `Pre(FIN)` (R216). -/
def preFin (s : State) : Bool := outOpen s

/-- `Pre(RMG)` (R216). -/
def preRmg (_ : State) : Bool := true

/-- `Pre(DES)` (R216). -/
def preDes (_ : State) : Bool := true

/-- `Pre(DEC)` (R216). -/
def preDec (s : State) : Bool := hasTree s && outOpen s

/-- `Pre(CMP)` (R216). -/
def preCmp (s : State) : Bool := outOpen s

/-- `Pre(DCMP)` (R216). -/
def preDcmp (s : State) : Bool := outOpen s

/-- A command is in the middle of reading a container (R35): never so between commands. -/
def busy (s : State) : Bool := decide (s.scan ≠ .idle) || s.cur.isSome

/-- The `STATUS` register (10_state.md R34). -/
def status (s : State) : BitVec 16 :=
  BitVec.ofNat 16
    ((busy s).toNat + 2 * s.done.toNat + 4 * s.err.code + 64 * s.phase.code
      + 512 * s.freqValid.toNat + 1024 * s.treeSt.code + 4096 * s.codeValid.toNat)

end Sys2Proof.Machine
end

