-- ==== Sys2Proof/Machine/Operands.lean ====
section
/-! DEFINITION. The implicit operands of the commands: entries of the tables, nodes of the tree, bits of
the streams, and the limits the parameters put on them. -/

namespace Sys2Proof.Machine

/-- `FREQ[i]` (R22); 0 where there is no entry. -/
def freqAt (f : Vector Nat nsym) (i : Nat) : Nat := f[i]?.getD 0

/-- `FREQ[i] <- n`. -/
def setFreq (f : Vector Nat nsym) (i n : Nat) : Vector Nat nsym := f.setIfInBounds i n

/-- `CODE[i]` (R27); absent where there is no entry. -/
def codeAt (t : Vector (Option Bits) nsym) (i : Nat) : Option Bits := t[i]?.getD none

/-- `CODE[i] <- s`; nothing where there is no entry (R162). -/
def setCode (t : Vector (Option Bits) nsym) (i : Nat) (s : Bits) : Vector (Option Bits) nsym :=
  t.setIfInBounds i (some s)

/-- The node at the end of a path (R9): `0` to the left child, `1` to the right one. -/
def Tree.nodeAt : Tree → Bits → Option Tree
  | t, [] => some t
  | .leaf _ _, _ :: _ => none
  | .node l r _, b :: p => if b then r.nodeAt p else l.nodeAt p

/-- The number of nodes of a tree. -/
def Tree.nodes : Tree → Nat
  | .leaf _ _ => 1
  | .node l r _ => l.nodes + r.nodes + 1

/-- The number of nodes parsed so far, given the nodes begun (R180). -/
def stackNodes : List Frame → Nat
  | [] => 0
  | .left :: st => 1 + stackNodes st
  | .right l :: st => l.nodes + 1 + stackNodes st

/-- A count or a weight is not past `2^CNT_W - 1` (R133). -/
def fitsCount (c : Config) (n : Nat) : Bool :=
  match c.cntW with
  | none => true
  | some w => decide (n ≤ 2 ^ w - 1)

/-- A number of nodes is not past `NODE_CAP` (R180). -/
def fitsNodes (c : Config) (n : Nat) : Bool :=
  match c.nodeCap with
  | none => true
  | some k => decide (n ≤ k)

/-- The bits of the input from its position on (R36). -/
def InStream.rest (i : InStream) : Bits := (bitsOfBytes i.data).drop i.pos

/-- How many bits of the input are left (R36). -/
def InStream.remaining (i : InStream) : Nat := 8 * i.data.length - i.pos

/-- `OUT.bytes` of a closed output (R37). -/
def OutStream.bytes (o : OutStream) : List Byte := bytesOfBits o.bits

end Sys2Proof.Machine
end

