-- ==== Sys2Proof/Machine/Ops.lean ====
section
/-! DEFINITION. The operations the meanings are made of: the stream primitives of 20_memory.md, raising a
fault (60_exceptions.md R240) and leaving it, the dispatcher (46_composite_and_control.md R215). -/

namespace Sys2Proof.Machine

/-! ## The body of a command -/

/-- How a piece of a command's body ends: it goes on with a value, or it raises a fault in a phase. -/
inductive Res (α : Type) where
  | ok (a : α) (s : State)
  | raise (f : ErrCode) (p : Phase) (s : State)
  deriving Repr

/-- One piece of a body after another; a raise ends the body (R240). -/
def Res.bind {α β : Type} (x : Res α) (k : α → State → Res β) : Res β :=
  match x with
  | .ok a s => k a s
  | .raise f p s => .raise f p s

/-- A loop of a body: again while `body` answers `true`. `fuel` bounds the rounds; every loop of the
engine gets more than it can use (R283; log 29). -/
def loop (body : State → Res Bool) : Nat → State → Res Unit
  | 0, s => .ok () s
  | fuel + 1, s => (body s).bind fun more s' => if more then loop body fuel s' else .ok () s'

/-! ## The collaborator's accesses -/

/-- One access of the collaborator (R78): it fails if the plan of failures says so, and then nothing of
it is done (log 4, log 5). -/
def access (p : Phase) (s : State) : Res Unit :=
  match s.ioFail with
  | [] => .ok () s
  | 0 :: later => .raise .ioError p { s with ioFail := later }
  | (n + 1) :: later => .ok () { s with ioFail := n :: later }

/-- `ReadBits(n)` (R63, R64): `none` is `EOD`. -/
def readBits (p : Phase) (n : Nat) (s : State) : Res (Option Nat) :=
  (access p s).bind fun _ s =>
    if s.inp.pos + n ≤ 8 * s.inp.data.length then
      .ok (some (uint (s.inp.rest.take n))) { s with inp := { s.inp with pos := s.inp.pos + n } }
    else .ok none s

/-- `Rewind()` (R65). -/
def rewind (p : Phase) (s : State) : Res Unit :=
  (access p s).bind fun _ s => .ok () { s with inp := { s.inp with pos := 0 } }

/-- Bits appended to an output that is not closed (R37); a closed one takes none (log 24). -/
def OutStream.append (o : OutStream) (b : Bits) : OutStream :=
  if o.closed then o else { o with bits := o.bits ++ b }

/-- `WriteStr(b)` (R67). -/
def writeStr (p : Phase) (b : Bits) (s : State) : Res Unit :=
  (access p s).bind fun _ s => .ok () { s with out := s.out.append b }

/-- `WriteBits(n, v)` (R66). -/
def writeBits (p : Phase) (n v : Nat) (s : State) : Res Unit := writeStr p (bitsOf n v) s

/-- `Close()` (R68). -/
def close (p : Phase) (s : State) : Res Unit :=
  (access p s).bind fun _ s => .ok () { s with out := ⟨padToByte s.out.bits, true⟩ }

/-! ## Faults -/

/-- `raise F(p)` (R240): the one way a fault is taken. `DONE` is 0, as it has been since the command was
accepted (R215). The history mark is set (R278). -/
def raiseFault (f : ErrCode) (p : Phase) (s : State) : State :=
  { discardAll s with err := f, phase := p, done := false, mark := true }

/-- Leaving the faulted state, the body of `CLR` (R222): the one way back beside reset (R244). -/
def clearFault (s : State) : State :=
  { discardAll s with err := .none, phase := .none, done := true }

/-- The engine's part of reset (R270, R40). The streams, the parameters and the host's list stay; so does
the history mark, which nothing clears (R278). -/
def engineReset (s : State) : State :=
  { discardAll s with err := .none, phase := .none, done := false }

/-- A refused write of `CMD` (R243): no state of the engine changes; the history mark is set (R278). -/
def refuseCommand (s : State) : State := { s with mark := true }

/-! ## Dispatch -/

/-- A next state. -/
def goOn (s : State) : Host.Outcome State Fault Refusal := .next s

/-- The end of a command: `DONE <- 1` when its body reached its end, the fault when it raised one
(R215). -/
def complete (r : Res Unit) : Host.Outcome State Fault Refusal :=
  match r with
  | .ok _ s => goOn (setDone s true)
  | .raise f p s => goOn (raiseFault f p s)

/-- A write of a command's code to `CMD` (R215), given its precondition (R216) and its body. -/
def dispatch (pre : State → Bool) (body : State → Res Unit) (s : State) :
    Host.Outcome State Fault Refusal :=
  if s.err ≠ .none then goOn (refuseCommand s)
  else if pre s then complete (body (setDone s false))
  else goOn (raiseFault .illegalSequence .none (setDone s false))

/-- A write of a reserved code to `CMD` (R215, R111). -/
def dispatchReserved (s : State) : Host.Outcome State Fault Refusal :=
  if s.err ≠ .none then goOn (refuseCommand s)
  else goOn (raiseFault .illegalCommand .none (setDone s false))

/-- The end of a token: `false` says that it ended the command that reads it, which then is done
(R200). -/
def completeToken (r : Res Bool) : Host.Outcome State Fault Refusal :=
  match r with
  | .ok more s => goOn (setDone s !more)
  | .raise f p s => goOn (raiseFault f p s)

/-- A stream token taken by the engine, given what it does. A faulted engine takes none (R244;
log 15). -/
def takeToken (token : State → Res Bool) (s : State) : Host.Outcome State Fault Refusal :=
  if s.err ≠ .none then goOn (refuseCommand s)
  else completeToken (token (setDone s false))

end Sys2Proof.Machine
end

