-- ==== Sys2Proof/Machine/Builder.lean ====
section
/-! DEFINITION. The tree builder: BLD (41_tree_builder.md). -/

namespace Sys2Proof.Machine

/-- An entry of the priority structure `PQ` (R140). -/
structure Entry where
  weight : Nat
  seq : Nat
  tree : Tree
  deriving DecidableEq, Repr

/-- The priority order (R141): lower weight first, among equal weights the lower sequence number. -/
def Entry.before (x y : Entry) : Bool :=
  decide (x.weight < y.weight) || (x.weight == y.weight && decide (x.seq < y.seq))

/-- `ExtractMin` (R140) on the entries `x :: xs`: the least one in the order of R141, and the others. -/
def extractMin : Entry → List Entry → Entry × List Entry
  | x, [] => (x, [])
  | x, y :: ys =>
    if x.before y then ((extractMin x ys).1, y :: (extractMin x ys).2)
    else ((extractMin y ys).1, x :: (extractMin y ys).2)

/-- The leaf of a symbol that occurs (R142): its weight is its count, its sequence number the symbol. -/
def leafEntry (f : Vector Nat nsym) (i : Nat) : Option Entry :=
  if freqAt f i > 0 then
    some ⟨freqAt f i, i, .leaf (BitVec.ofNat symFieldW i) (some (freqAt f i))⟩
  else none

/-- The leaves, in symbol order (R142). -/
def leafEntries (f : Vector Nat nsym) : List Entry := (List.range nsym).filterMap (leafEntry f)

/-- The placeholder's entry (R143). -/
def placeholderEntry : Entry :=
  ⟨placeholderWeight, placeholder,
    .leaf (BitVec.ofNat symFieldW placeholder) (some placeholderWeight)⟩

/-- The entries the merge starts from (R142, R143). -/
def startEntries (f : Vector Nat nsym) : List Entry :=
  if (leafEntries f).length < 2 then leafEntries f ++ [placeholderEntry] else leafEntries f

/-- The internal node of a round, A then B in the order of their removal (R144). -/
def mergeEntry (k : Nat) (a b : Entry) : Entry :=
  ⟨a.weight + b.weight, firstInternalSeq + k, .node a.tree b.tree (some (a.weight + b.weight))⟩

/-- The merge (R144, R145) on the entries `x :: xs`: `k` is the number of internal nodes made so far.
`none` is a weight past a finite `CNT_W` (log 20). `fuel` is at least the length of `xs`. -/
def mergeAll (c : Config) : Nat → Nat → Entry → List Entry → Option Tree
  | _, _, x, [] => some x.tree
  | 0, _, _, _ :: _ => none
  | fuel + 1, k, x, y :: ys =>
    match (extractMin x (y :: ys)).2 with
    | [] => none
    | z :: zs =>
      if fitsCount c ((extractMin x (y :: ys)).1.weight + (extractMin z zs).1.weight) then
        mergeAll c fuel (k + 1)
          (mergeEntry k (extractMin x (y :: ys)).1 (extractMin z zs).1) (extractMin z zs).2
      else none

/-- The tree of a frequency table (R140), within the limits of the parameters (R236). -/
def buildTree (c : Config) (f : Vector Nat nsym) : Option Tree :=
  match startEntries f with
  | [] => none
  | x :: xs =>
    match mergeAll c xs.length 0 x xs with
    | none => none
    | some t => if fitsNodes c t.nodes then some t else none

/-- The body of `BLD` (R140, R150). -/
def bldBody (s : State) : Res Unit :=
  match buildTree s.cfg s.freq with
  | some t => .ok () { s with tree := t, treeSt := .built, freqValid := false, codeValid := false }
  | none => .raise .capacityError .build s

/-- `BLD` (R140). -/
def execBld (s : State) : Host.Outcome State Fault Refusal := dispatch preBld bldBody s

end Sys2Proof.Machine
end

