-- ==== Sys2Proof/Machine/CodeTable.lean ====
section
/-! DEFINITION. The code table generator: GEN (42_code_table_generator.md). -/

namespace Sys2Proof.Machine

/-- `Walk` (R160): the path of every leaf with a symbol up to 256 is recorded (R162). -/
def walk : Tree → Bits → Vector (Option Bits) nsym → Vector (Option Bits) nsym
  | .leaf sym _, path, t => if sym.toNat ≤ pseudoEof then setCode t sym.toNat path else t
  | .node l r _, path, t => walk r (path ++ [true]) (walk l (path ++ [false]) t)

/-- The code table of a tree (R160). -/
def codeTable (t : Tree) : Vector (Option Bits) nsym := walk t [] (Vector.replicate nsym none)

/-- The body of `GEN` (R160). -/
def genBody (s : State) : Res Unit := .ok () { s with code := codeTable s.tree, codeValid := true }

/-- `GEN` (R160). -/
def execGen (s : State) : Host.Outcome State Fault Refusal := dispatch preGen genBody s

end Sys2Proof.Machine
end

