-- ==== Sys2Proof/Machine/Counter.lean ====
section
/-! DEFINITION. The frequency counter: CNT (40_frequency_counter.md). -/

namespace Sys2Proof.Machine

/-- `FREQ[w] <- FREQ[w] + 1` (R130); a count past a finite `CNT_W` is a `CapacityError` (R133). -/
def countWord (w : Nat) (s : State) : Res Unit :=
  if fitsCount s.cfg (freqAt s.freq w + 1) then
    .ok () { s with freq := setFreq s.freq w (freqAt s.freq w + 1) }
  else .raise .capacityError .count s

/-- One round of the loop of R130. -/
def cntRound (s : State) : Res Bool :=
  (readBits .count wordW s).bind fun r s =>
    match r with
    | none => .ok false s
    | some w => (countWord w s).bind fun _ s => .ok true s

/-- `FREQ[256] <- 1 ; FREQ_VALID <- 1` (R130). -/
def countEof (s : State) : Res Unit :=
  if fitsCount s.cfg 1 then
    .ok () { s with freq := setFreq s.freq pseudoEof 1, freqValid := true }
  else .raise .capacityError .count s

/-- A new compression: old tables discarded, all counts 0 (R130, R131). -/
def startCount (s : State) : State :=
  { s with treeSt := .none, codeValid := false, freqValid := false, freq := Vector.replicate nsym 0 }

/-- The body of `CNT` (R130). -/
def cntBody (s : State) : Res Unit :=
  (loop cntRound (s.inp.remaining + 1) (startCount s)).bind fun _ s => countEof s

/-- `CNT` (R130). -/
def execCnt (s : State) : Host.Outcome State Fault Refusal := dispatch preCnt cntBody s

end Sys2Proof.Machine
end

