-- ==== Sys2Proof/Machine/Decoder.lean ====
section
/-! DEFINITION. The stream decoder: DEC and the payload bits PAY_L, PAY_R (45_stream_decoder.md). -/

namespace Sys2Proof.Machine

/-- One step of the decoder's state machine (R201) from the node at `path`, given the bit. A node that is
a leaf, or no node (log 23), has no child to move to (R202). `false` is the stop of R205. -/
def payMove (b : Bool) (path : Bits) (s : State) : Res Bool :=
  match s.tree.nodeAt path with
  | some (.node l r _) =>
    match (if b then r else l) with
    | .node _ _ _ => .ok true { s with cur := some (path ++ [b]) }
    | .leaf sym _ =>
      if sym.toNat = pseudoEof then .ok false { s with cur := none, treeSt := .none }
      else
        (writeBits .payloadDecode wordW sym.toNat s).bind fun _ s =>
          .ok true { s with cur := some [] }
  | some (.leaf _ _) => .raise .malformedStructureError .payloadDecode s
  | none => .raise .malformedStructureError .payloadDecode s

/-- A payload bit taken by the engine. Where no walk is going on it is the first bit of one, under the
precondition of `DEC` (log 14). -/
def payToken (b : Bool) (s : State) : Res Bool :=
  match s.cur with
  | some path => payMove b path s
  | none =>
    if preDec s then payMove b [] { s with cur := some [] }
    else .raise .illegalSequence .none s

/-- `PAY_L` (R99, R201): to the left child. -/
def execPayL (s : State) : Host.Outcome State Fault Refusal := takeToken (payToken false) s

/-- `PAY_R` (R99, R201): to the right child. -/
def execPayR (s : State) : Host.Outcome State Fault Refusal := takeToken (payToken true) s

/-- The payload bit `DEC` reads; the end of the input is a `TruncatedStreamError` (R204). -/
def fetchPayload (s : State) : Res Nat :=
  (readBits .payloadDecode 1 s).bind fun r s =>
    match r with
    | none => .raise .truncatedStreamError .payloadDecode s
    | some b => .ok b s

/-- One round of `DEC`: a bit is read and taken (R200, R201). -/
def decRound (s : State) : Res Bool :=
  (fetchPayload s).bind fun b s => payToken (decide (b ≠ 0)) s

/-- The body of `DEC` (R200). -/
def decBody (s : State) : Res Unit :=
  loop decRound (s.inp.remaining + 1) { s with cur := some [] }

/-- `DEC` (R200). -/
def execDec (s : State) : Host.Outcome State Fault Refusal := dispatch preDec decBody s

end Sys2Proof.Machine
end

