-- ==== Sys2Proof/Machine/Encoder.lean ====
section
/-! DEFINITION. The stream encoder and the finalisation: ENC, FIN (44_stream_encoder.md). -/

namespace Sys2Proof.Machine

/-- The code of a symbol appended to the output; an absent one is an `AbsentCode` (R190, R192). -/
def writeCode (sym : Nat) (s : State) : Res Unit :=
  match codeAt s.code sym with
  | none => .raise .absentCode .payloadEncode s
  | some b => writeStr .payloadEncode b s

/-- One round of the loop of R190. -/
def encRound (s : State) : Res Bool :=
  (readBits .payloadEncode wordW s).bind fun r s =>
    match r with
    | none => .ok false s
    | some w => (writeCode w s).bind fun _ s => .ok true s

/-- The body of `ENC` (R190, R191, R193). -/
def encBody (s : State) : Res Unit :=
  (rewind .payloadEncode s).bind fun _ s =>
    (loop encRound (s.inp.remaining + 1) s).bind fun _ s =>
      (writeCode pseudoEof s).bind fun _ s => .ok () { s with codeValid := false, treeSt := .none }

/-- `ENC` (R190). -/
def execEnc (s : State) : Host.Outcome State Fault Refusal := dispatch preEnc encBody s

/-- The body of `FIN` (R194) in the phase of the operation it ends (R249). -/
def finBody (p : Phase) (s : State) : Res Unit := close p s

/-- `FIN` (R194). -/
def execFin (s : State) : Host.Outcome State Fault Refusal :=
  dispatch preFin (finBody .payloadEncode) s

end Sys2Proof.Machine
end

