-- ==== Sys2Proof/Machine/Header.lean ====
section
/-! DEFINITION. The header codec: WMG, RMG, SER, DES and the tokens MAGIC, HDR_INT, HDR_LEAF
(43_header_codec.md). -/

namespace Sys2Proof.Machine

/-! ## The magic number -/

/-- The body of `WMG` (R170). -/
def wmgBody (s : State) : Res Unit := writeBits .headerWrite magicW s.cfg.magic.toNat s

/-- `WMG` (R170). -/
def execWmg (s : State) : Host.Outcome State Fault Refusal := dispatch preWmg wmgBody s

/-- The 32 bits `RMG` reads; the end of the input is a `HeaderError` (R171, R172). -/
def fetchMagic (s : State) : Res Nat :=
  (readBits .headerValidation magicW s).bind fun r s =>
    match r with
    | none => .raise .headerError .headerValidation s
    | some m => .ok m s

/-- What `RMG` does with the 32 bits (R171, R91). They end the command. -/
def magicToken (m : Nat) (s : State) : Res Bool :=
  if m = s.cfg.magic.toNat then .ok false { s with scan := .idle }
  else .raise .headerError .headerValidation s

/-- `MAGIC` (R91, R171). -/
def execMagic (m : Nat) (s : State) : Host.Outcome State Fault Refusal := takeToken (magicToken m) s

/-- The body of `RMG` (R171). -/
def rmgBody (s : State) : Res Unit :=
  (fetchMagic s).bind fun m s => (magicToken m s).bind fun _ s => .ok () s

/-- `RMG` (R171). -/
def execRmg (s : State) : Host.Outcome State Fault Refusal := dispatch preRmg rmgBody s

/-! ## Serialising -/

/-- `Put` (R173). -/
def putTree : Tree → State → Res Unit
  | .leaf sym _, s =>
    (writeBits .headerWrite 1 1 s).bind fun _ s => writeBits .headerWrite symFieldW sym.toNat s
  | .node l r _, s =>
    (writeBits .headerWrite 1 0 s).bind fun _ s => (putTree l s).bind fun _ s => putTree r s

/-- The body of `SER` (R173). -/
def serBody (s : State) : Res Unit := putTree s.tree s

/-- `SER` (R173). -/
def execSer (s : State) : Host.Outcome State Fault Refusal := dispatch preSer serBody s

/-! ## Deserialising -/

/-- The start of `DES` (R174): the tables discarded, no node begun. -/
def beginParse (s : State) : State :=
  { s with codeValid := false, treeSt := .none, scan := .header [] }

/-- The nodes begun; none where no parse is going on. -/
def openNodes (s : State) : List Frame :=
  match s.scan with
  | .header st => st
  | .idle | .magic => []

/-- The state a header token is taken in: a token where no parse is going on begins one (log 14). -/
def inParse (s : State) : State :=
  match s.scan with
  | .header _ => s
  | .idle | .magic => beginParse s

/-- A subtree is complete: it is the right child of the innermost node begun, which is then complete
too, or its left child, or the whole tree (R175, R177). -/
def plug : Tree → List Frame → Tree ⊕ List Frame
  | t, [] => .inl t
  | t, .left :: st => .inr (.right t :: st)
  | t, .right l :: st => plug (.node l t none) st

/-- A header token where the tree store has no room for its node (R180; log 19). -/
def noRoom (s : State) : Res Bool := .raise .capacityError .treeParse s

/-- The token `0` (R93, R174): a new internal node, its left subtree first. -/
def hdrIntToken (s : State) : Res Bool :=
  if fitsNodes s.cfg (stackNodes (openNodes s) + 1) then
    .ok true { inParse s with scan := .header (.left :: openNodes s) }
  else noRoom (inParse s)

/-- The token `1` with its field (R94, R174, R176): a new leaf; with the last leaf the tree is stored. -/
def hdrLeafToken (sym : Nat) (s : State) : Res Bool :=
  if fitsNodes s.cfg (stackNodes (openNodes s) + 1) then
    match plug (.leaf (BitVec.ofNat symFieldW sym) none) (openNodes s) with
    | .inl t => .ok false { inParse s with tree := t, treeSt := .parsed, scan := .idle }
    | .inr st => .ok true { inParse s with scan := .header st }
  else noRoom (inParse s)

/-- `HDR_INT` (R93, R175). -/
def execHdrInt (s : State) : Host.Outcome State Fault Refusal := takeToken hdrIntToken s

/-- `HDR_LEAF` (R94, R176). -/
def execHdrLeaf (sym : Nat) (s : State) : Host.Outcome State Fault Refusal :=
  takeToken (hdrLeafToken sym) s

/-- The bits of a header token (R174): the marker (R175), then its field (R176). The answer is the marker
and the field. -/
def fetchHeader (s : State) : Res (Nat × Nat) :=
  (readBits .treeParse 1 s).bind fun r s =>
    match r with
    | none => .raise .truncatedStreamError .treeParse s
    | some marker =>
      if fieldWidth marker = 0 then .ok (marker, 0) s
      else
        (readBits .treeParse (fieldWidth marker) s).bind fun r s =>
          match r with
          | none => .raise .truncatedStreamError .treeParse s
          | some field => .ok (marker, field) s

/-- One round of `DES`: a token is read and taken (R174). -/
def desRound (s : State) : Res Bool :=
  (fetchHeader s).bind fun mf s => if mf.1 = 0 then hdrIntToken s else hdrLeafToken mf.2 s

/-- The body of `DES` (R174), with an explicit stack. -/
def desBody (s : State) : Res Unit := loop desRound (s.inp.remaining + 1) (beginParse s)

/-- `DES` (R174). -/
def execDes (s : State) : Host.Outcome State Fault Refusal := dispatch preDes desBody s

end Sys2Proof.Machine
end

