-- ==== Sys2Proof/Machine/Control.lean ====
section
/-! DEFINITION. The composite commands CMP and DCMP, CLR, and the reserved codes
(46_composite_and_control.md, 30_encoding.md R111). -/

namespace Sys2Proof.Machine

/-- The body of `CMP` (R220). -/
def cmpBody (s : State) : Res Unit :=
  (cntBody (discardAll s)).bind fun _ s =>
    (bldBody s).bind fun _ s =>
      (genBody s).bind fun _ s =>
        (wmgBody s).bind fun _ s =>
          (serBody s).bind fun _ s =>
            (encBody s).bind fun _ s => finBody .payloadEncode s

/-- `CMP` (R220). -/
def execCmp (s : State) : Host.Outcome State Fault Refusal := dispatch preCmp cmpBody s

/-- The body of `DCMP` (R221). A `FIN` that fails here fails in the decoder's phase (R249; log 21). -/
def dcmpBody (s : State) : Res Unit :=
  (rmgBody (discardAll s)).bind fun _ s =>
    (desBody s).bind fun _ s =>
      (decBody s).bind fun _ s => finBody .payloadDecode s

/-- `DCMP` (R221). -/
def execDcmp (s : State) : Host.Outcome State Fault Refusal := dispatch preDcmp dcmpBody s

/-- `CLR` (R222): the one command a faulted engine takes (R243). -/
def execClr (s : State) : Host.Outcome State Fault Refusal := goOn (clearFault s)

/-- The reserved code `0000` (R111). -/
def execReserved0 (s : State) : Host.Outcome State Fault Refusal := dispatchReserved s

/-- The reserved code `1101` (R111). -/
def execReserved13 (s : State) : Host.Outcome State Fault Refusal := dispatchReserved s

/-- The reserved code `1110` (R111). -/
def execReserved14 (s : State) : Host.Outcome State Fault Refusal := dispatchReserved s

end Sys2Proof.Machine
end

