-- ==== Sys2Proof/Machine/Dispatch.lean ====
section
/-! DEFINITION. The meaning of every instruction, one arm per row of the opcode table. -/

namespace Sys2Proof.Machine

/-- What an instruction does. -/
def exec (i : Instr) (s : State) : Host.Outcome State Fault Refusal :=
  match i with
  | .reserved0 => Sys2Proof.Machine.execReserved0 s
  | .cnt => Sys2Proof.Machine.execCnt s
  | .bld => Sys2Proof.Machine.execBld s
  | .gen => Sys2Proof.Machine.execGen s
  | .wmg => Sys2Proof.Machine.execWmg s
  | .ser => Sys2Proof.Machine.execSer s
  | .enc => Sys2Proof.Machine.execEnc s
  | .fin => Sys2Proof.Machine.execFin s
  | .rmg => Sys2Proof.Machine.execRmg s
  | .des => Sys2Proof.Machine.execDes s
  | .dec => Sys2Proof.Machine.execDec s
  | .cmp => Sys2Proof.Machine.execCmp s
  | .dcmp => Sys2Proof.Machine.execDcmp s
  | .reserved13 => Sys2Proof.Machine.execReserved13 s
  | .reserved14 => Sys2Proof.Machine.execReserved14 s
  | .clr => Sys2Proof.Machine.execClr s
  | .magic m => Sys2Proof.Machine.execMagic m s
  | .hdrInt => Sys2Proof.Machine.execHdrInt s
  | .hdrLeaf sym => Sys2Proof.Machine.execHdrLeaf sym s
  | .payL => Sys2Proof.Machine.execPayL s
  | .payR => Sys2Proof.Machine.execPayR s

end Sys2Proof.Machine
end

