-- ==== Sys2Proof/Machine/Fetch.lean ====
section
/-! DEFINITION. What a step of the machine does before an instruction runs: the host's actions
(70_reset_and_hazards.md R273), and the tokens of a container that is being read. -/

namespace Sys2Proof.Machine

/-- What a step runs: an instruction at a state, or nothing more than this outcome. -/
inductive Fetched where
  | run (i : Instr) (s : State)
  | stop (o : Host.Outcome State Fault Refusal)
  deriving Repr

/-- A new input stream (R273, `.in` of R112). -/
def attachInput (bytes : List Byte) (s : State) : State := { s with inp := ⟨bytes, 0⟩ }

/-- A new output stream (R273, `.out` of R112). -/
def attachOutput (s : State) : State := { s with out := ⟨[], false⟩ }

/-- The bytes the sink holds: all of a closed output (R37, R68); of an open one some whole-byte prefix,
a FREE VALUE (R241, U4; log 12). -/
def sinkBytes (s : State) : List Byte :=
  if s.out.closed then s.out.bytes else s.out.bytes.take (Config.sinkPrefix s.reads)

/-- The value of a register (R33, R34): a read of `CMD` gives 0. -/
def readRegister (reg : Nat) (s : State) : Option (BitVec 16) :=
  match reg with
  | 0 => some 0#16
  | 1 => some (status s)
  | _ => none

/-- One action of the host (R273). A write of `CMD` runs the command of its low four bits (R33); a write
of `STATUS` has no effect (R34). -/
def hostAction (a : HostAction) (s : State) : Fetched :=
  match a with
  | .attachIn bytes => .stop (goOn (attachInput bytes s))
  | .attachOut => .stop (goOn (attachOutput s))
  | .writeReg 0 v => .run (decodeCommand v.toNat) s
  | .writeReg 1 _ => .stop (goOn s)
  | .writeReg reg _ => .stop (.fault (.noSuchRegister reg))
  | .readReg reg =>
    match readRegister reg s with
    | some v => .stop (goOn { s with lastRead := .reg v })
    | none => .stop (.fault (.noSuchRegister reg))
  | .readOut => .stop (goOn { s with lastRead := .out (sinkBytes s), reads := s.reads + 1 })
  | .reset => .stop (goOn (engineReset s))

/-- The next action of the host; with none left the engine does nothing (R270). -/
def fetchHost (s : State) : Fetched :=
  match s.host with
  | [] => .stop (goOn s)
  | a :: rest => hostAction a { s with host := rest }

/-- A token that was read runs; where it could not be read the fault is taken (R240). -/
def fetched {α : Type} (toInstr : α → Instr) (r : Res α) : Fetched :=
  match r with
  | .ok a s => .run (toInstr a) s
  | .raise f p s => .stop (goOn (raiseFault f p s))

/-- What the next step runs. A command in the middle of reading a container reads its next token from the
input (R171, R174, R200); otherwise the host acts (R277). A faulted engine runs no command (R244). -/
def fetch (s : State) : Fetched :=
  if s.err ≠ .none then fetchHost s
  else
    match s.scan, s.cur with
    | .magic, _ => fetched Instr.magic (fetchMagic s)
    | .header _, _ => fetched (fun mf => decodeHeader mf.1 mf.2) (fetchHeader s)
    | .idle, some _ => fetched decodePayload (fetchPayload s)
    | .idle, none => fetchHost s

/-! ## Placing an instruction where the next step fetches it -/

/-- The input with some bits at its position (log 17). -/
def InStream.place (b : Bits) (i : InStream) : InStream :=
  { i with
    data := bytesOfBits (padToByte
      ((bitsOfBytes i.data).take i.pos ++ b ++ (bitsOfBytes i.data).drop (i.pos + b.length))) }

/-- A state whose next step fetches and runs a table word (log 17): a command is the host's next action;
a token is the next one of the input, with the command that reads it going on. -/
def placeWord (s : State) (nbits w : Nat) : State :=
  match tableSpace nbits with
  | none => s
  | some (.command, _) =>
    { s with scan := .idle, cur := none, host := .writeReg 0 (BitVec.ofNat 16 w) :: s.host }
  | some (.magic, n) =>
    { s with err := .none, phase := .none, scan := .magic, inp := s.inp.place (bitsOf n w) }
  | some (.header, n) =>
    { s with err := .none, phase := .none, scan := .header (openNodes s),
             inp := s.inp.place (bitsOf n w) }
  | some (.payload, n) =>
    { s with err := .none, phase := .none, scan := .idle, cur := some (s.cur.getD []),
             inp := s.inp.place (bitsOf n w) }

end Sys2Proof.Machine
end

