-- ==== Sys2Proof/Machine/Run.lean ====
section
/-! DEFINITION. Runs of the host and their success (70_reset_and_hazards.md R278). Nothing of the machine
depends on this file. -/

namespace Sys2Proof.Machine

/-- One action of a run, with the states before and after it. -/
structure RunEvent where
  action : HostAction
  before : State
  after : State
  deriving DecidableEq, Repr

/-- An operation of a run: its commands, and whether the one that ends it is among them. -/
structure Operation where
  commands : List RunEvent
  ended : Bool
  deriving DecidableEq, Repr

/-- The command an action of the host writes to `CMD` (R33). -/
def HostAction.command : HostAction → Option Instr
  | .writeReg 0 v => some (decodeCommand v.toNat)
  | _ => none

/-- The events of a run: its actions done one after another, each in a step of its own (R277). It ends when
the list is exhausted (R278). `none` is a machine that stopped before (log 10). The state it starts in is any
state, and is meant to be one between commands (log 30). -/
def runEvents : List HostAction → State → Option (List RunEvent)
  | [], _ => some []
  | a :: as, s =>
    match step { s with host := a :: as } with
    | .next t => (runEvents as t).map fun es => ⟨a, s, t⟩ :: es
    | .fault _ => none
    | .refused _ => none

/-- A command was not refused (R243), raised no fault, and completed with `DONE = 1` (R278). -/
def commandCompleted (i : Instr) (s t : State) : Bool :=
  (decide (s.err = .none) || decide (i = .clr)) && decide (t.err = .none) && t.done

/-- The event is no command, or its command completed. -/
def RunEvent.completed (e : RunEvent) : Bool :=
  match e.action.command with
  | some i => commandCompleted i e.before e.after
  | none => true

/-- The event is `CLR`, which is no stage of a compression or decompression. -/
def RunEvent.isClear (e : RunEvent) : Bool := decide (e.action.command = some .clr)

/-- Commands that no `FIN` has ended: an operation that was begun and not ended, unless `CLR` is all there is
(log 30). -/
def unended (pending : List RunEvent) : List Operation :=
  if pending.all RunEvent.isClear then [] else [⟨pending, false⟩]

/-- The operations of a run, given the commands since its last operation ended or its input was attached
(R278): a `CMP` or `DCMP` is one; so are the commands up to a `FIN`; a new input begins a new one (log 30). -/
def operationsFrom : List RunEvent → List RunEvent → List Operation
  | pending, [] => unended pending
  | pending, e :: es =>
    match e.action with
    | .attachIn _ => unended pending ++ operationsFrom [] es
    | .attachOut | .readReg _ | .readOut | .reset => operationsFrom pending es
    | .writeReg _ _ =>
      match e.action.command with
      | some .fin => ⟨pending ++ [e], true⟩ :: operationsFrom [] es
      | some .cmp | some .dcmp => unended pending ++ ⟨[e], true⟩ :: operationsFrom [] es
      | some _ => operationsFrom (pending ++ [e]) es
      | none => operationsFrom pending es

/-- An operation is successful: each of its commands completed, and the output is closed at its end
(R278). -/
def Operation.succeeded (o : Operation) : Bool :=
  o.ended && o.commands.all RunEvent.completed &&
    match o.commands.getLast? with
    | some e => e.after.out.closed
    | none => false

/-- A run is successful: it ends, and every operation in it is successful (R278). DESIGN CHOICE: R278 names no
state that a run starts in, and here it is any state `s`. R278 calls `ERR = 0` at the end necessary; that follows
where the run starts without a fault. A run that starts in a faulted engine and begins no command has no operation,
and so is successful with the `ERR` it started with (log 30). -/
def runSucceeded (as : List HostAction) (s : State) : Bool :=
  match runEvents as s with
  | some es => (operationsFrom [] es).all Operation.succeeded
  | none => false

end Sys2Proof.Machine
end

