-- ==== Sys2Proof/Safety.lean ====
section
/-! DEFINITION. The terms the claims use: safe runs, trees and their codes, words of a stream, the merge rule
as a relation, and the invariant. Nothing of the machine depends on this file. -/

namespace Sys2Proof.Machine

/-! ## Runs -/

/-- The host may act: no command is reading a container (R277), or the engine is faulted and runs none
(R244). -/
def BetweenCommands (s : State) : Prop := s.err ≠ .none ∨ (s.scan = .idle ∧ s.cur = none)

/-- The engine is not faulted and the collaborator does not fail (R78, decision D12). -/
def Ready (s : State) : Prop := s.err = .none ∧ s.ioFail = []

/-- Instructions one after another, each a command of the host (R223 (a)). -/
def execAll : List Instr → State → Host.Outcome State Fault Refusal
  | [], s => .next s
  | i :: is, s =>
    match exec i s with
    | .next t => execAll is t
    | .fault r => .fault r
    | .refused r => .refused r

/-- The faults an instruction can raise, with their phases: of the commands those of 60_exceptions.md R236 and
R249; of a stream token those of the step it is. That a payload bit where no walk is going on can raise
`IllegalSequence` is the model's choice (log 14). -/
def faultsOf : Instr → List (ErrCode × Phase)
  | .cnt => [(.capacityError, .count), (.ioError, .count)]
  | .bld => [(.illegalSequence, .none), (.capacityError, .build)]
  | .gen => [(.illegalSequence, .none)]
  | .wmg => [(.illegalSequence, .none), (.ioError, .headerWrite)]
  | .ser => [(.illegalSequence, .none), (.ioError, .headerWrite)]
  | .enc => [(.illegalSequence, .none), (.absentCode, .payloadEncode), (.ioError, .payloadEncode)]
  | .fin => [(.illegalSequence, .none), (.ioError, .payloadEncode)]
  | .rmg => [(.headerError, .headerValidation), (.ioError, .headerValidation)]
  | .des => [(.truncatedStreamError, .treeParse), (.capacityError, .treeParse), (.ioError, .treeParse)]
  | .dec => [(.illegalSequence, .none), (.truncatedStreamError, .payloadDecode),
      (.malformedStructureError, .payloadDecode), (.ioError, .payloadDecode)]
  | .cmp => [(.illegalSequence, .none), (.capacityError, .count), (.ioError, .count),
      (.capacityError, .build), (.ioError, .headerWrite), (.absentCode, .payloadEncode),
      (.ioError, .payloadEncode)]
  | .dcmp => [(.illegalSequence, .none), (.headerError, .headerValidation),
      (.ioError, .headerValidation), (.truncatedStreamError, .treeParse), (.capacityError, .treeParse),
      (.ioError, .treeParse), (.truncatedStreamError, .payloadDecode),
      (.malformedStructureError, .payloadDecode), (.ioError, .payloadDecode)]
  | .reserved0 | .reserved13 | .reserved14 => [(.illegalCommand, .none)]
  | .clr => []
  | .magic _ => [(.headerError, .headerValidation)]
  | .hdrInt | .hdrLeaf _ => [(.capacityError, .treeParse)]
  | .payL | .payR => [(.illegalSequence, .none), (.malformedStructureError, .payloadDecode),
      (.ioError, .payloadDecode)]

/-- The phases a fault can carry, whatever raises it (60_exceptions.md R236, R249). -/
def phasesOf : ErrCode → List Phase
  | .none => [.none]
  | .headerError => [.headerValidation]
  | .truncatedStreamError => [.treeParse, .payloadDecode]
  | .malformedStructureError => [.payloadDecode]
  | .illegalSequence => [.none]
  | .absentCode => [.payloadEncode]
  | .illegalCommand => [.none]
  | .ioError =>
    [.headerValidation, .treeParse, .payloadDecode, .count, .headerWrite, .payloadEncode]
  | .capacityError => [.treeParse, .count, .build]

/-- The phases in which an access of an instruction can fail (R249): those of its stages, in order. -/
def accessPhases : Instr → List Phase
  | .cnt => [.count]
  | .wmg | .ser => [.headerWrite]
  | .enc | .fin => [.payloadEncode]
  | .rmg => [.headerValidation]
  | .des => [.treeParse]
  | .dec | .payL | .payR => [.payloadDecode]
  | .cmp => [.count, .headerWrite, .payloadEncode]
  | .dcmp => [.headerValidation, .treeParse, .payloadDecode]
  | .bld | .gen | .clr | .reserved0 | .reserved13 | .reserved14 => []
  | .magic _ | .hdrInt | .hdrLeaf _ => []

/-- The precondition of a command (46_composite_and_control.md R216); the rest have none. -/
def Precondition (i : Instr) (s : State) : Prop :=
  match i with
  | .bld => s.freqValid = true
  | .gen => s.treeSt = .built
  | .wmg | .fin | .cmp | .dcmp => s.out.closed = false
  | .ser | .dec => s.treeSt ≠ .none ∧ s.out.closed = false
  | .enc => s.codeValid = true ∧ s.out.closed = false
  | .cnt | .rmg | .des | .clr => True
  | .reserved0 | .reserved13 | .reserved14 => True
  | .magic _ | .hdrInt | .hdrLeaf _ | .payL | .payR => True

/-- The validity flags after a command has completed (46_composite_and_control.md R217), given those
before it: `FREQ_VALID`, `TREE_ST`, `CODE_VALID`. -/
def flagsAfter (i : Instr) (s : State) : Bool × TreeSt × Bool :=
  match i with
  | .cnt => (true, .none, false)
  | .bld => (false, .built, false)
  | .gen => (s.freqValid, s.treeSt, true)
  | .enc => (s.freqValid, .none, false)
  | .des => (s.freqValid, .parsed, false)
  | .dec => (s.freqValid, .none, s.codeValid)
  | .cmp | .dcmp | .clr => (false, .none, false)
  | .wmg | .ser | .fin | .rmg => (s.freqValid, s.treeSt, s.codeValid)
  | .reserved0 | .reserved13 | .reserved14 => (false, .none, false)
  | .magic _ | .hdrInt | .hdrLeaf _ | .payL | .payR => (s.freqValid, s.treeSt, s.codeValid)

/-- The state after a fault is taken (60_exceptions.md R240), written out. -/
def State.faultedWith (s : State) (f : ErrCode) (p : Phase) : State :=
  { s with err := f, phase := p, freqValid := false, treeSt := .none, codeValid := false, cur := none,
           scan := .idle, done := false, mark := true }

/-- `IN` moved on by some bits. -/
def State.advance (s : State) (n : Nat) : State := { s with inp := { s.inp with pos := s.inp.pos + n } }

/-- `OUT` with some bits appended. -/
def State.emit (s : State) (b : Bits) : State := { s with out := { s.out with bits := s.out.bits ++ b } }

/-! ## Trees -/

/-- The leaves from left to right, with their weights (R24). -/
def Tree.leaves : Tree → List (Sym × Option Nat)
  | .leaf s w => [(s, w)]
  | .node l r _ => l.leaves ++ r.leaves

/-- The symbols of the leaves from left to right. -/
def Tree.symbols (t : Tree) : List Sym := t.leaves.map Prod.fst

/-- The weight of the root. -/
def Tree.weight : Tree → Option Nat
  | .leaf _ w => w
  | .node _ _ w => w

/-- The tree with every weight `unset` (R25, R177). -/
def Tree.unweighted : Tree → Tree
  | .leaf s _ => .leaf s none
  | .node l r _ => .node l.unweighted r.unweighted none

/-- Every internal node's weight is set and is the sum of its children's (R25). -/
def Tree.WeightsAdd : Tree → Prop
  | .leaf _ w => w.isSome
  | .node l r w =>
    l.WeightsAdd ∧ r.WeightsAdd ∧ ∃ a b, l.weight = some a ∧ r.weight = some b ∧ w = some (a + b)

/-- The root is an internal node. -/
def Tree.isNode : Tree → Bool
  | .leaf _ _ => false
  | .node _ _ _ => true

/-- `ser` of R173: the header of a tree. -/
def Tree.serBits : Tree → Bits
  | .leaf s _ => true :: bitsOf symFieldW s.toNat
  | .node l r _ => false :: (l.serBits ++ r.serBits)

/-- A path of the tree that ends at the leaf of a symbol (R96). -/
def Tree.HasLeaf (t : Tree) (p : Bits) (s : Sym) : Prop := ∃ w, t.nodeAt p = some (.leaf s w)

/-- The leaves have distinct symbols (R147 (c)). -/
def Tree.Distinct (t : Tree) : Prop := t.symbols.Nodup

/-- `c` holds the path of every leaf with a symbol up to 256, and nothing else (R160). -/
def CodesOf (c : Vector (Option Bits) nsym) (t : Tree) : Prop :=
  ∀ i ≤ pseudoEof, ∀ p, codeAt c i = some p ↔ t.HasLeaf p (BitVec.ofNat symFieldW i)

/-! ## Words -/

/-- The 8-bit words from the position to the end of the input (R130, R71): as many whole words as
remain. -/
def InStream.words (i : InStream) : List Nat :=
  (List.range (i.remaining / 8)).map fun k => uint ((i.rest.drop (8 * k)).take 8)

/-- The codes of some words, in order (R96). -/
def payloadOf (c : Vector (Option Bits) nsym) (ws : List Byte) : Bits :=
  ws.flatMap fun b => (codeAt c b.toNat).getD []

/-- The counts of some words, with the count 1 of pseudo-EOF (R130). -/
def CountsOf (f : Vector Nat nsym) (ws : List Nat) : Prop :=
  (∀ i < 256, freqAt f i = ws.count i) ∧ freqAt f pseudoEof = 1

/-- The sum of all counts. -/
def totalCount (f : Vector Nat nsym) : Nat := ((List.range nsym).map (freqAt f)).sum

/-- No count of these words passes a finite `CNT_W` (R133). -/
def CountsFit (c : Config) (ws : List Nat) : Prop :=
  ∀ w, c.cntW = some w → 1 ≤ 2 ^ w - 1 ∧ ∀ i < 256, ws.count i ≤ 2 ^ w - 1

/-- The limits of the parameters do not stop the building of a tree: the weight of the root fits a finite
`CNT_W`, and a finite `NODE_CAP` is at least 514 (R6, R236). -/
def BuildFits (c : Config) (f : Vector Nat nsym) : Prop :=
  (∀ w, c.cntW = some w → totalCount f ≤ 2 ^ w - 1) ∧ ∀ n, c.nodeCap = some n → 514 ≤ n

/-- The limits of the parameters do not stop the compression of `n` words: their number and the one
pseudo-EOF fit a finite `CNT_W`, and a finite `NODE_CAP` is at least 514 (R6, R236). -/
def InputFits (c : Config) (n : Nat) : Prop :=
  (∀ w, c.cntW = some w → n + 1 ≤ 2 ^ w - 1) ∧ ∀ k, c.nodeCap = some k → 514 ≤ k

/-! ## Headers -/

/-- The number of whole header tokens at the front of some bits, `skip` bits of a symbol field first (R93,
R94). -/
def headerTokens : Nat → Bits → Nat
  | _, [] => 0
  | 0, false :: r => 1 + headerTokens 0 r
  | 0, true :: r => headerTokens symFieldW r
  | 1, _ :: r => 1 + headerTokens 0 r
  | skip + 2, _ :: r => headerTokens (skip + 1) r

/-! ## Payloads -/

/-- Paths of a tree that each end at the leaf of a symbol other than pseudo-EOF. -/
def WordPaths (t : Tree) (ps : List (Bits × Sym)) : Prop :=
  ∀ x ∈ ps, t.HasLeaf x.1 x.2 ∧ x.2.toNat ≠ pseudoEof

/-- The path of a leaf of pseudo-EOF. -/
def EofPath (t : Tree) (q : Bits) : Prop := t.HasLeaf q (BitVec.ofNat symFieldW pseudoEof)

/-- The bits of some paths, in order (R96). -/
def pathBits (ps : List (Bits × Sym)) : Bits := ps.flatMap Prod.fst

/-- The words emitted for some symbols: the low eight bits of each (R203, R104). -/
def wordBits (ps : List (Bits × Sym)) : Bits := ps.flatMap fun x => bitsOf 8 x.2.toNat

/-! ## The merge rule -/

/-- `a` is the least of some entries in the order of R141. -/
def IsLeast (a : Entry) (es : List Entry) : Prop :=
  a ∈ es ∧ ∀ x ∈ es, x = a ∨ a.weight < x.weight ∨ (a.weight = x.weight ∧ a.seq < x.seq)

/-- The merge of R144 and R145 as a relation: the entries of `PQ`, `k` internal nodes made so far, and
the tree that is left. -/
inductive MergesTo : Nat → List Entry → Tree → Prop where
  | root (k : Nat) (e : Entry) : MergesTo k [e] e.tree
  | round (k : Nat) (es es' rest : List Entry) (a b : Entry) (t : Tree)
      (least : IsLeast a es) (removed : es.Perm (a :: es'))
      (least' : IsLeast b es') (removed' : es'.Perm (b :: rest))
      (merged : MergesTo (k + 1)
        (⟨a.weight + b.weight, 258 + k, .node a.tree b.tree (some (a.weight + b.weight))⟩ :: rest) t) :
      MergesTo k es t

/-- The entries of `PQ` before the first round (R142, R143): a leaf for each symbol that occurs, and the
placeholder when that is fewer than two. -/
def LeafEntries (f : Vector Nat nsym) (es : List Entry) : Prop :=
  ∃ ls : List Entry,
    ls.Nodup ∧
    (∀ e, e ∈ ls ↔ ∃ i ≤ 256, freqAt f i > 0 ∧
      e = ⟨freqAt f i, i, .leaf (BitVec.ofNat 9 i) (some (freqAt f i))⟩) ∧
    es = if ls.length < 2 then ls ++ [⟨0, 257, .leaf 257#9 (some 0)⟩] else ls

/-- The tree of a frequency table is `t` (R140). -/
def BuildsTo (f : Vector Nat nsym) (t : Tree) : Prop := ∃ es, LeafEntries f es ∧ MergesTo 0 es t

/-- What R147 and R148 say of a built tree: internal root, weights that add up, distinct symbols of which
pseudo-EOF is one, at most 257 leaves, every path at most 256 bits. -/
structure BuiltTree (t : Tree) : Prop where
  root : t.isNode = true
  weights : t.WeightsAdd
  distinct : t.Distinct
  eof : (BitVec.ofNat symFieldW pseudoEof) ∈ t.symbols
  few : t.leaves.length ≤ 257
  short : ∀ p s, t.HasLeaf p s → p.length ≤ 256

/-! ## Memory -/

/-- The two streams are well formed (R36, R37): the position lies inside the data, and a closed output is
a whole number of bytes. This hardware has no addressed memory (R38). -/
def Memory.wf (s : State) : Bool :=
  decide (s.inp.pos ≤ 8 * s.inp.data.length) && (!s.out.closed || s.out.bits.length % 8 == 0)

/-! ## The invariant -/

/-- What holds of the machine in every state that a run reaches. -/
structure Inv (s : State) : Prop where
  /-- The streams (R36, R37). -/
  streams : Memory.wf s = true
  /-- A faulted engine holds nothing (R240, R243), and the history mark is set (R278). -/
  faulted : s.err ≠ .none →
    s.freqValid = false ∧ s.treeSt = .none ∧ s.codeValid = false ∧ s.cur = none ∧ s.scan = .idle ∧
      s.done = false ∧ s.mark = true
  /-- `PHASE` is 0 when `ERR` is 0 (R31). -/
  phase : s.err = .none → s.phase = .none
  /-- Pseudo-EOF has count 1 in a valid frequency table (R130). -/
  counts : s.freqValid = true → freqAt s.freq pseudoEof = 1
  /-- A built tree has the properties of R147 and R148. -/
  built : s.treeSt = .built → BuiltTree s.tree
  /-- A parsed tree carries no weight (R25). -/
  parsed : s.treeSt = .parsed → s.tree.unweighted = s.tree
  /-- A valid code table was derived from the tree in the store, which is a built one (R28). -/
  codes : s.codeValid = true → BuiltTree s.tree ∧ CodesOf s.code s.tree
  /-- `CUR` names a node that exists, an internal one but for the root (R29, R201). -/
  cur : ∀ p, s.cur = some p →
    s.treeSt ≠ .none ∧ s.scan = .idle ∧ s.out.closed = false ∧
      ∃ n, s.tree.nodeAt p = some n ∧ (p = [] ∨ n.isNode = true)
  /-- While a header is parsed there is no tree, and the subtrees parsed so far carry no weight
  (R174, R177). -/
  parse : ∀ st, s.scan = .header st →
    s.treeSt = .none ∧ s.codeValid = false ∧ ∀ l, Frame.right l ∈ st → l.unweighted = l

end Sys2Proof.Machine
end

