-- ==== Sys2Proof/Certificates/Slice0/Obligations.lean ====
section
/-! DEFINITION. The statements for the provers. Each docstring names the rules it formalises. `Ready s` says
that the engine is not faulted and that the collaborator does not fail; what a failing collaborator and a
faulted engine do has statements of its own. -/

open Sys2Proof Sys2Proof.Machine

/-! ## Encodings -/

/-- The encodings of 30_encoding.md R91 to R94, R99, R110, R111 are read back whole: decoding the bits of a
well-formed instruction gives it and leaves what follows; whatever the decoder reads is well formed, of the
space asked for, and its bits are the ones read. -/
def Obligations.DecodeAndEncodeAgree : Prop :=
  (∀ (i : Instr) (rest : Bits), i.wf = true → decode i.space (encode i ++ rest) = .ok (i, rest)) ∧
    ∀ (sp : Space) (bits : Bits) (i : Instr) (rest : Bits), decode sp bits = .ok (i, rest) →
      i.wf = true ∧ i.space = sp ∧ bits = encode i ++ rest

/-- Words written out from R110, R91, R93, R94 and R99 decode to the instructions they stand for. -/
def Obligations.WordsOfTheTableDecode : Prop :=
  decode .command [false, false, false, true] = .ok (.cnt, []) ∧
  decode .command [true, false, false, false] = .ok (.rmg, []) ∧
  decode .command [true, true, true, true] = .ok (.clr, []) ∧
  decode .header [false, true] = .ok (.hdrInt, [true]) ∧
  decode .header [true, false, false, true, false, false, false, false, true, false]
    = .ok (.hdrLeaf 66, []) ∧
  decode .header [true, true, false, false, false, false, false, false, false, true, true]
    = .ok (.hdrLeaf 257, [true]) ∧
  decode .payload [false] = .ok (.payL, []) ∧
  decode .payload [true] = .ok (.payR, []) ∧
  decode .magic (bitsOfBytes [0xFA#8, 0xCE#8, 0x82#8, 0x01#8]) = .ok (.magic 0xFACE8201, [])

/-! ## Streams -/

/-- The bit at stream index `i` is bit `7 - (i mod 8)` of byte `i div 8` (10_state.md R36, 20_memory.md R60):
stated of the bits from the position on. -/
def Obligations.InputBitsComeMostSignificantFirst : Prop :=
  ∀ (i : InStream) (k : Nat), k < i.remaining →
    ∃ b : Byte, i.data[(i.pos + k) / 8]? = some b ∧
      i.rest[k]? = some (b.getLsbD (7 - (i.pos + k) % 8))

/-- `ReadBits(n)` (20_memory.md R63, R64), with a collaborator that does not fail. That end-of-data leaves the
position unchanged is the model's choice (R64, decision D20; log 27). -/
def Obligations.ReadBitsReturnsOrSignalsEnd : Prop :=
  ∀ (p : Phase) (n : Nat) (s : State), 1 ≤ n → s.ioFail = [] →
    (s.inp.pos + n ≤ 8 * s.inp.data.length →
      readBits p n s
          = .ok (some (uint (((bitsOfBytes s.inp.data).drop s.inp.pos).take n)))
              { s with inp := { s.inp with pos := s.inp.pos + n } } ∧
        uint (((bitsOfBytes s.inp.data).drop s.inp.pos).take n) < 2 ^ n) ∧
    (¬ s.inp.pos + n ≤ 8 * s.inp.data.length → readBits p n s = .ok none s)

/-- A field sees the same bits at any width (20_memory.md R61): a field written reads back as its low `n`
bits, and `ReadBits(9)` is `ReadBits(1) * 256 + ReadBits(8)`. -/
def Obligations.FieldsAreMostSignificantFirst : Prop :=
  (∀ n v : Nat, uint (bitsOf n v) = v % 2 ^ n) ∧
    ∀ (p : Phase) (s : State), s.ioFail = [] → 9 ≤ s.inp.remaining →
      ∃ (a b : Nat) (s₁ s₂ : State), readBits p 1 s = .ok (some a) s₁ ∧
        readBits p 8 s₁ = .ok (some b) s₂ ∧ readBits p 9 s = .ok (some (a * 256 + b)) s₂

/-- Word `k` of an input at position `8k₀` is byte `k₀ + k` (20_memory.md R71). -/
def Obligations.WordsOfAnAlignedInputAreItsBytes : Prop :=
  ∀ (data : List Byte) (k₀ : Nat),
    InStream.words ⟨data, 8 * k₀⟩ = (data.drop k₀).map BitVec.toNat

/-! ## Reset, clear, dispatch -/

/-- The engine state after reset (10_state.md R40). -/
def Obligations.ResetStateIsClear : Prop :=
  State.reset.freqValid = false ∧ State.reset.treeSt = .none ∧ State.reset.codeValid = false ∧
    State.reset.cur = none ∧ State.reset.err = .none ∧ State.reset.phase = .none ∧
    State.reset.done = false ∧ busy State.reset = false ∧ status State.reset = 0#16

/-- The host's reset (70_reset_and_hazards.md R270): the values of R40, the streams as they are (R273). That
the parameters, the contents of the tables and the history mark stay is the model's choice (log 1, 8, 18). -/
def Obligations.HostResetClearsTheEngine : Prop :=
  ∀ (s : State) (rest : List HostAction), BetweenCommands s → s.host = .reset :: rest →
    step s = .next { s with
      host := rest, freqValid := false, treeSt := .none, codeValid := false, cur := none, err := .none,
      phase := .none, done := false, scan := .idle }

/-- `CLR` (46_composite_and_control.md R222), in every state. -/
def Obligations.ClearResetsFlagsAndFault : Prop :=
  decodeCommand 15 = .clr ∧
    ∀ s : State, exec .clr s = .next { s with
      err := .none, phase := .none, freqValid := false, treeSt := .none, codeValid := false, cur := none,
      done := true, scan := .idle }

/-- A reserved code raises `IllegalCommand` with phase `NONE` and changes no stream (30_encoding.md R111). -/
def Obligations.ReservedCodesAreIllegalCommands : Prop :=
  decodeCommand 0 = .reserved0 ∧ decodeCommand 13 = .reserved13 ∧ decodeCommand 14 = .reserved14 ∧
    ∀ s : State, s.err = .none →
      exec .reserved0 s = .next (s.faultedWith .illegalCommand .none) ∧
      exec .reserved13 s = .next (s.faultedWith .illegalCommand .none) ∧
      exec .reserved14 s = .next (s.faultedWith .illegalCommand .none)

/-- While `ERR != 0` every command but `CLR` is refused and changes nothing (60_exceptions.md R243). The mark
is no state of the engine: it is the model's history mark, which a refusal sets (R278; log 18). -/
def Obligations.FaultedEngineRefusesAllButClear : Prop :=
  ∀ (i : Instr) (s : State), i.space = .command → i ≠ .clr → s.err ≠ .none →
    exec i s = .next { s with mark := true }

/-- The preconditions (46_composite_and_control.md R216): where one fails the command raises
`IllegalSequence` with phase `NONE` and touches no stream; where it holds no command raises it. -/
def Obligations.FailedPreconditionIsIllegalSequence : Prop :=
  ∀ (i : Instr) (s : State), i.space = .command → s.err = .none →
    (¬ Precondition i s → exec i s = .next (s.faultedWith .illegalSequence .none)) ∧
    (Precondition i s → ∀ t, exec i s = .next t → t.err ≠ .illegalSequence)

/-- The validity flags after each command, and after a fault (46_composite_and_control.md R217). The row of
reset is `HostResetClearsTheEngine`, restated here. -/
def Obligations.FlagsAfterEachCommand : Prop :=
  (∀ (i : Instr) (s t : State), i.space = .command → exec i s = .next t → s.err = .none ∨ i = .clr →
    (t.err = .none → (t.freqValid, t.treeSt, t.codeValid) = flagsAfter i s) ∧
    (t.err ≠ .none → (t.freqValid, t.treeSt, t.codeValid) = (false, .none, false))) ∧
  ∀ (s : State) (rest : List HostAction), BetweenCommands s → s.host = .reset :: rest →
    ∃ t, step s = .next t ∧ (t.freqValid, t.treeSt, t.codeValid) = (false, .none, false)

/-- What raising a fault leaves (60_exceptions.md R240, R241), of every instruction: the flags, `CUR` and
`DONE` clear, `PHASE` one that `ERR` can carry (R236, R249), the output not closed. The fields `scan` and `mark`
are the model's (log 14, 18). -/
def Obligations.FaultEntryClearsTheEngine : Prop :=
  ∀ (i : Instr) (s t : State), exec i s = .next t → s.err = .none → t.err ≠ .none →
    t.freqValid = false ∧ t.treeSt = .none ∧ t.codeValid = false ∧ t.cur = none ∧ t.scan = .idle ∧
      t.done = false ∧ t.mark = true ∧ t.out.closed = s.out.closed ∧ t.phase ∈ phasesOf t.err

/-- Each command raises only the faults that 60_exceptions.md R236 lists for it, each in its phase (R249), and
each stream token those of the step it is. That a payload bit where no walk is going on can raise
`IllegalSequence` is in no row of R236 or R201: it is the model's choice (log 14). -/
def Obligations.FaultsAndPhasesOfEachInstruction : Prop :=
  ∀ (i : Instr) (s t : State), exec i s = .next t → s.err = .none → t.err ≠ .none →
    (t.err, t.phase) ∈ faultsOf i

/-- A failing access raises `IoError` in the phase of the stage it occurs in (20_memory.md R78, 60_exceptions.md
R242, R249). An instruction makes some number `N` of accesses: a failure that comes after `n` successes is not
reached if `N ≤ n`, and the outcome is that of streams that do not fail; otherwise it is the fault, and what was
written before stays. Which stage it is in `CMP` and `DCMP` follows from `CompressIsItsStages` and
`DecompressIsItsStages`, which hold with failing accesses too. Then the first access of each command, the word a
payload bit emits, and the `FIN` inside `DCMP` (phase 3). What one access is, and that a failing one leaves the
streams alone, is the model's reading (log 4, 5). -/
def Obligations.FailingAccessRaisesIoError : Prop :=
  (∀ (i : Instr) (s u : State), s.err = .none → s.ioFail = [] → exec i s = .next u →
    ∃ N, (i.space = .command → accessPhases i ≠ [] → Precondition i s → 1 ≤ N) ∧
      ∀ (n : Nat) (l : List Nat),
        (N ≤ n → exec i { s with ioFail := n :: l } = .next { u with ioFail := (n - N) :: l }) ∧
        (n < N → ∃ t, exec i { s with ioFail := n :: l } = .next t ∧ t.err = .ioError ∧
          t.phase ∈ accessPhases i ∧ t.ioFail = l ∧ t.out.bits <+: u.out.bits)) ∧
  (∀ (s : State) (l : List Nat), s.err = .none → s.ioFail = 0 :: l →
    (s.out.closed = false →
      exec .wmg s = .next (State.faultedWith { s with ioFail := l } .ioError .headerWrite) ∧
      exec .fin s = .next (State.faultedWith { s with ioFail := l } .ioError .payloadEncode) ∧
      exec .dcmp s = .next (State.faultedWith { s with ioFail := l } .ioError .headerValidation) ∧
      ∃ f, exec .cmp s = .next (State.faultedWith { s with ioFail := l, freq := f } .ioError .count)) ∧
    (s.out.closed = false → s.treeSt ≠ .none →
      exec .ser s = .next (State.faultedWith { s with ioFail := l } .ioError .headerWrite) ∧
      exec .dec s = .next (State.faultedWith { s with ioFail := l } .ioError .payloadDecode)) ∧
    (s.out.closed = false → s.codeValid = true →
      exec .enc s = .next (State.faultedWith { s with ioFail := l } .ioError .payloadEncode)) ∧
    exec .rmg s = .next (State.faultedWith { s with ioFail := l } .ioError .headerValidation) ∧
    exec .des s = .next (State.faultedWith { s with ioFail := l } .ioError .treeParse) ∧
    ∃ f, exec .cnt s = .next (State.faultedWith { s with ioFail := l, freq := f } .ioError .count)) ∧
  (∀ (s : State) (l : List Nat) (path : Bits) (left right : Tree) (w : Option Nat), s.err = .none →
    s.ioFail = 0 :: l → s.cur = some path → s.tree.nodeAt path = some (.node left right w) →
    ∀ (i : Instr) (child : Tree), (i, child) ∈ [(.payL, left), (.payR, right)] →
      ∀ x w', child = .leaf x w' → x.toNat ≠ 256 →
        exec i s = .next (State.faultedWith { s with ioFail := l } .ioError .payloadDecode)) ∧
  ∀ (s t : State) (l : List Nat), s.err = .none → s.out.closed = false → s.cur = none → s.scan = .idle →
    s.freqValid = false → execAll [.rmg, .des, .dec] s = .next t → t.err = .none → t.ioFail = 0 :: l →
    exec .dcmp s = .next (State.faultedWith { t with ioFail := l } .ioError .payloadDecode)

/-- Every instruction answers a next state in every state (70_reset_and_hazards.md R283: every command
ends). -/
def Obligations.EveryInstructionEnds : Prop :=
  ∀ (i : Instr) (s : State), ∃ t, exec i s = .next t

/-- No instruction writes the input's bytes, changes what the output already holds, reopens it, changes a
parameter, or acts for the host (10_state.md R36, R37, 20_memory.md R70, 00_scope.md R5). -/
def Obligations.StreamsOnlyGrow : Prop :=
  ∀ (i : Instr) (s t : State), exec i s = .next t →
    t.inp.data = s.inp.data ∧ s.out.bits <+: t.out.bits ∧ (s.out.closed = true → t.out = s.out) ∧
      t.cfg = s.cfg ∧ t.host = s.host ∧ t.lastRead = s.lastRead ∧ t.reads = s.reads

/-! ## The frequency counter -/

/-- `CNT` (40_frequency_counter.md R130, R131), within the limits of `CNT_W`: the count of every word from
the position on, the count 1 of pseudo-EOF, and the frame. That end-of-data moves no position is R64's (log 27). -/
def Obligations.CountGivesTheOccurrences : Prop :=
  decodeCommand 1 = .cnt ∧
    ∀ s : State, Ready s → CountsFit s.cfg s.inp.words →
      ∃ f, CountsOf f s.inp.words ∧
        exec .cnt s = .next { s with
          freq := f, freqValid := true, treeSt := .none, codeValid := false,
          inp := ⟨s.inp.data, s.inp.pos + 8 * s.inp.words.length⟩, done := true }

/-- A count past a finite `CNT_W` is a `CapacityError` in phase `COUNT` (R133); it does not wrap. -/
def Obligations.CountPastItsWidthIsACapacityError : Prop :=
  ∀ (s : State) (w i : Nat), Ready s → s.cfg.cntW = some w → i < 256 →
    2 ^ w - 1 < s.inp.words.count i →
    ∃ f p, s.inp.pos ≤ p ∧ p ≤ 8 * s.inp.data.length ∧
      exec .cnt s = .next
        (State.faultedWith { s with freq := f, inp := ⟨s.inp.data, p⟩ } .capacityError .count)

/-! ## The tree builder -/

/-- `BLD` (41_tree_builder.md R140 to R145), within the limits of the parameters: there is a tree that the
merge rule gives, and whatever tree it gives is the one stored; and the frame. -/
def Obligations.BuildFollowsTheMergeRule : Prop :=
  decodeCommand 2 = .bld ∧
    ∀ s : State, s.err = .none → s.freqValid = true → BuildFits s.cfg s.freq →
      (∃ T, BuildsTo s.freq T) ∧
      ∀ T, BuildsTo s.freq T →
        exec .bld s = .next { s with
          tree := T, treeSt := .built, freqValid := false, codeValid := false, done := true }

/-- The properties and bounds of a built tree (R147, R148, R149, 10_state.md R25), with the count 1 of
pseudo-EOF that `CNT` leaves (R130). -/
def Obligations.BuiltTreesAreWeighedPrefixTrees : Prop :=
  ∀ s t : State, exec .bld s = .next t → s.err = .none → t.err = .none →
    freqAt s.freq pseudoEof = 1 →
    BuiltTree t.tree ∧ 2 ≤ t.tree.leaves.length ∧ t.tree.weight = some (totalCount s.freq) ∧
      (∀ i ≤ 256, ∀ w, (BitVec.ofNat 9 i, w) ∈ t.tree.leaves ↔
        freqAt s.freq i > 0 ∧ w = some (freqAt s.freq i)) ∧
      (∀ w, (257#9, w) ∈ t.tree.leaves ↔ (∀ i < 256, freqAt s.freq i = 0) ∧ w = some 0) ∧
      ∀ x ∈ t.tree.leaves, x.1.toNat ≤ 257

/-- A weight past a finite `CNT_W` is a `CapacityError` in phase `BUILD` (R236; that it holds of weights is
the model's reading, log 20). -/
def Obligations.WeightPastItsWidthIsACapacityError : Prop :=
  ∀ (s : State) (w : Nat), s.err = .none → s.freqValid = true → s.cfg.cntW = some w →
    2 ^ w - 1 < totalCount s.freq →
    exec .bld s = .next (s.faultedWith .capacityError .build)

/-! ## The code table generator -/

/-- `GEN` (42_code_table_generator.md R160, R162) on a built tree, whose leaves have distinct symbols
(41_tree_builder.md R147; the invariant keeps it): exactly the paths of the leaves up to 256; and the
frame. -/
def Obligations.GenRecordsThePathOfEveryLeaf : Prop :=
  decodeCommand 3 = .gen ∧
    ∀ s : State, s.err = .none → s.treeSt = .built → s.tree.Distinct →
      ∃ c, CodesOf c s.tree ∧
        exec .gen s = .next { s with code := c, codeValid := true, done := true }

/-- The codes are a prefix code, pseudo-EOF has one, and their lengths are 1 to 256
(42_code_table_generator.md R164). -/
def Obligations.CodesAreAPrefixCode : Prop :=
  ∀ s t : State, exec .gen s = .next t → s.err = .none → s.treeSt = .built → BuiltTree s.tree →
    (∃ p, codeAt t.code pseudoEof = some p) ∧
    (∀ i p, codeAt t.code i = some p → 1 ≤ p.length ∧ p.length ≤ 256) ∧
    ∀ i j p q, i ≠ j → codeAt t.code i = some p → codeAt t.code j = some q → ¬ p <+: q

/-! ## The header codec -/

/-- `WMG` (43_header_codec.md R170); and the frame. -/
def Obligations.WriteMagicAppendsTheConstant : Prop :=
  decodeCommand 4 = .wmg ∧
    ∀ s : State, Ready s → s.out.closed = false →
      exec .wmg s = .next { s with
        out := ⟨s.out.bits ++ bitsOf 32 s.cfg.magic.toNat, false⟩, done := true }

/-- `RMG` (R171, R172): a match, a mismatch, an input that is too short. A bad or short magic number stops
`DCMP` at once too, and no bit of the header is read (R172, 60_exceptions.md R237). That a short input leaves the
position unmoved is the model's choice (R64, decision D20, R242; log 27), and so is the field `scan` (log 14). -/
def Obligations.ReadMagicComparesThirtyTwoBits : Prop :=
  decodeCommand 8 = .rmg ∧
    ∀ s : State, Ready s →
      (∀ rest, s.inp.rest = bitsOf 32 s.cfg.magic.toNat ++ rest →
        exec .rmg s = .next { s with
          inp := ⟨s.inp.data, s.inp.pos + 32⟩, done := true, scan := .idle }) ∧
      (32 ≤ s.inp.rest.length → s.inp.rest.take 32 ≠ bitsOf 32 s.cfg.magic.toNat →
        exec .rmg s = .next ((s.advance 32).faultedWith .headerError .headerValidation)) ∧
      (s.inp.rest.length < 32 → exec .rmg s = .next (s.faultedWith .headerError .headerValidation)) ∧
      (s.out.closed = false → 32 ≤ s.inp.rest.length →
        s.inp.rest.take 32 ≠ bitsOf 32 s.cfg.magic.toNat →
        exec .dcmp s = .next ((s.advance 32).faultedWith .headerError .headerValidation)) ∧
      (s.out.closed = false → s.inp.rest.length < 32 →
        exec .dcmp s = .next (s.faultedWith .headerError .headerValidation))

/-- `SER` (R173): the header of the tree is appended; and the frame. -/
def Obligations.SerialiseWritesThePreorder : Prop :=
  decodeCommand 5 = .ser ∧
    ∀ s : State, Ready s → s.treeSt ≠ .none → s.out.closed = false →
      exec .ser s = .next { s with out := ⟨s.out.bits ++ s.tree.serBits, false⟩, done := true }

/-- The header of a tree with `L` leaves has `11 L - 1` bits (30_encoding.md R95). -/
def Obligations.HeaderLengthIsElevenPerLeafLessOne : Prop :=
  ∀ s t : State, exec .ser s = .next t → Ready s → s.treeSt ≠ .none → s.out.closed = false →
    t.out.bits.length + 1 = s.out.bits.length + 11 * s.tree.leaves.length

/-- `DES` (R174 to R177) on the header of a tree, within the limit of `NODE_CAP`: that tree with its weights
unset, and exactly its bits consumed; and the frame. -/
def Obligations.DeserialiseRebuildsTheTree : Prop :=
  decodeCommand 9 = .des ∧
    ∀ (s : State) (T : Tree) (rest : Bits), Ready s → s.inp.rest = T.serBits ++ rest →
      (∀ n, s.cfg.nodeCap = some n → T.nodes ≤ n) →
      exec .des s = .next { s with
        tree := T.unweighted, treeSt := .parsed, codeValid := false,
        inp := ⟨s.inp.data, s.inp.pos + T.serBits.length⟩, scan := .idle, done := true }

/-- A header cut off in a marker bit or in a symbol field is a `TruncatedStreamError` in phase `TREE_PARSE`
(R175, R176, 60_exceptions.md R238): the input starts with the header of no tree, and the nodes of its whole
tokens are within the limit of `NODE_CAP`. That a token cut off counts for no node is the model's reading
(log 19). -/
def Obligations.HeaderCutOffIsTruncated : Prop :=
  ∀ s : State, Ready s → (∀ n, s.cfg.nodeCap = some n → headerTokens 0 s.inp.rest ≤ n) →
    (∀ (T : Tree) (rest : Bits), s.inp.rest ≠ T.serBits ++ rest) →
    ∃ n, n ≤ s.inp.rest.length ∧
      exec .des s = .next ((s.advance n).faultedWith .truncatedStreamError .treeParse)

/-- A header of more nodes than a finite `NODE_CAP` is a `CapacityError` in phase `TREE_PARSE` (R180). -/
def Obligations.HeaderPastTheStoreIsACapacityError : Prop :=
  ∀ (s : State) (T : Tree) (rest : Bits) (k : Nat), Ready s → s.cfg.nodeCap = some k → k < T.nodes →
    s.inp.rest = T.serBits ++ rest →
    ∃ n, n ≤ T.serBits.length ∧
      exec .des s = .next ((s.advance n).faultedWith .capacityError .treeParse)

/-- Header fidelity (R178, an inference of the spec from R173 and R174): what `SER` writes `DES` reads as the
same shape and symbols, consuming exactly those bits, within the limit of `NODE_CAP`; and `SER` of the parsed tree
writes back exactly the bits `DES` consumed. -/
def Obligations.HeaderFidelity : Prop :=
  (∀ (s t u : State) (rest : Bits), Ready s → s.treeSt ≠ .none → s.out.closed = false →
    exec .ser s = .next t → Ready u → (∀ n, u.cfg.nodeCap = some n → s.tree.nodes ≤ n) →
    u.inp.rest = t.out.bits.drop s.out.bits.length ++ rest →
    ∃ v, exec .des u = .next v ∧ v.treeSt = .parsed ∧ v.tree = s.tree.unweighted ∧
      v.inp.rest = rest) ∧
  ∀ s t : State, Ready s → exec .des s = .next t → t.err = .none → t.out.closed = false →
    ∃ u, exec .ser t = .next u ∧
      u.out.bits = t.out.bits ++ s.inp.rest.take (t.inp.pos - s.inp.pos)

/-! ## The stream encoder -/

/-- `ENC` (44_stream_encoder.md R190, R191, R193): from the beginning of the input, the code of every word and
then the code of pseudo-EOF; and the frame. -/
def Obligations.EncodeWritesEveryCodeThenTheTerminator : Prop :=
  decodeCommand 6 = .enc ∧
    ∀ (s : State) (e : Bits), Ready s → s.codeValid = true → s.out.closed = false →
      (∀ b ∈ s.inp.data, codeAt s.code b.toNat ≠ none) → codeAt s.code pseudoEof = some e →
      exec .enc s = .next { s with
        out := ⟨s.out.bits ++ payloadOf s.code s.inp.data ++ e, false⟩,
        inp := ⟨s.inp.data, 8 * s.inp.data.length⟩, codeValid := false, treeSt := .none, done := true }

/-- The first word without a code is an `AbsentCode` in phase `PAYLOAD_ENCODE`; codes already written stay
(R192). -/
def Obligations.WordWithoutACodeIsAbsentCode : Prop :=
  ∀ (s : State) (before after : List Byte) (b : Byte), Ready s → s.codeValid = true →
    s.out.closed = false → s.inp.data = before ++ b :: after →
    (∀ x ∈ before, codeAt s.code x.toNat ≠ none) → codeAt s.code b.toNat = none →
    exec .enc s = .next (State.faultedWith
      { s with out := ⟨s.out.bits ++ payloadOf s.code before, false⟩,
               inp := ⟨s.inp.data, 8 * (before.length + 1)⟩ } .absentCode .payloadEncode)

/-- `FIN` (R194, 20_memory.md R68): 0 to 7 zero bits, a whole number of bytes, closed; and the frame. -/
def Obligations.FinalisePadsAndCloses : Prop :=
  decodeCommand 7 = .fin ∧
    ∀ s : State, Ready s → s.out.closed = false →
      ∃ p, p ≤ 7 ∧ (s.out.bits.length + p) % 8 = 0 ∧
        exec .fin s = .next { s with
          out := ⟨s.out.bits ++ List.replicate p false, true⟩, done := true }

/-! ## The stream decoder -/

/-- `DEC` (45_stream_decoder.md R200, R203, R205) on a payload: the low eight bits of every symbol, nothing
for pseudo-EOF, and no bit read after the terminator; and the frame. -/
def Obligations.DecodeEmitsUntilPseudoEof : Prop :=
  decodeCommand 10 = .dec ∧
    ∀ (s : State) (ps : List (Bits × Sym)) (q rest : Bits), Ready s → s.treeSt ≠ .none →
      s.out.closed = false → s.tree.isNode = true → WordPaths s.tree ps → EofPath s.tree q →
      s.inp.rest = pathBits ps ++ (q ++ rest) →
      exec .dec s = .next { s with
        out := ⟨s.out.bits ++ wordBits ps, false⟩,
        inp := ⟨s.inp.data, s.inp.pos + (pathBits ps).length + q.length⟩,
        treeSt := .none, cur := none, done := true }

/-- `DEC` does nothing else (R200, R202, R204, 60_exceptions.md R238, R239): the payload ends at pseudo-EOF,
or the input ends first, which is a `TruncatedStreamError`, or the root is a leaf and a bit was read, which is
the `MalformedStructureError`. That the read at the end moves no position is R64's (log 27). -/
def Obligations.DecodeEndsInOneOfThreeWays : Prop :=
  ∀ s : State, Ready s → s.treeSt ≠ .none → s.out.closed = false →
    (s.tree.isNode = true ∧ ∃ ps q rest, WordPaths s.tree ps ∧ EofPath s.tree q ∧
      s.inp.rest = pathBits ps ++ (q ++ rest) ∧
      exec .dec s = .next { (s.emit (wordBits ps)).advance ((pathBits ps).length + q.length) with
        treeSt := .none, cur := none, done := true }) ∨
    (s.tree.isNode = true ∧ ∃ ps r n, WordPaths s.tree ps ∧ s.inp.rest = pathBits ps ++ r ∧
      s.tree.nodeAt r = some n ∧ n.isNode = true ∧
      exec .dec s = .next (((s.emit (wordBits ps)).advance s.inp.rest.length).faultedWith
        .truncatedStreamError .payloadDecode)) ∨
    (s.tree.isNode = false ∧ s.inp.rest = [] ∧
      exec .dec s = .next (s.faultedWith .truncatedStreamError .payloadDecode)) ∨
    (s.tree.isNode = false ∧ s.inp.rest ≠ [] ∧
      exec .dec s = .next ((s.advance 1).faultedWith .malformedStructureError .payloadDecode))

/-- After `DEC`, successful or not, `CUR = none`; after a successful one the tree is discarded (R206). -/
def Obligations.DecodeLeavesNoNodeAndNoTree : Prop :=
  ∀ s t : State, exec .dec s = .next t → s.err = .none → s.cur = none →
    t.cur = none ∧ (t.err = .none → t.treeSt = .none)

/-- One step of the decoder's state machine (R201), all five rows, in the order of the table: the step reads
one bit and then is one of truncation, malformed, descend, emit, stop. That the read of truncation moves no
position is R64's (log 27). -/
def Obligations.OneStepOfTheDecoder : Prop :=
  ∀ (s : State) (path : Bits), Ready s → s.scan = .idle → s.cur = some path → s.out.closed = false →
    (s.inp.rest = [] → step s = .next (s.faultedWith .truncatedStreamError .payloadDecode)) ∧
    ∀ (b : Bool) (rest : Bits), s.inp.rest = b :: rest →
      (∀ x w, s.tree.nodeAt path = some (.leaf x w) →
        step s = .next ((s.advance 1).faultedWith .malformedStructureError .payloadDecode)) ∧
      (∀ l r w, s.tree.nodeAt path = some (.node l r w) →
        (∀ l' r' w', (if b then r else l) = .node l' r' w' →
          step s = .next { s.advance 1 with cur := some (path ++ [b]), done := false }) ∧
        (∀ x w', (if b then r else l) = .leaf x w' → x.toNat ≠ 256 →
          step s = .next { (s.advance 1).emit (bitsOf 8 x.toNat) with cur := some [], done := false }) ∧
        (∀ x w', (if b then r else l) = .leaf x w' → x.toNat = 256 →
          step s = .next { s.advance 1 with cur := none, treeSt := .none, done := true }))

/-! ## The tokens -/

/-- A payload bit (30_encoding.md R99, R201, R202) with a walk going on: the child it names, and what each child
does; a node without children is a `MalformedStructureError`. -/
def Obligations.PayloadBitsMoveToTheChild : Prop :=
  ∀ (s : State) (path : Bits), Ready s → s.cur = some path → s.out.closed = false →
    (∀ (l r : Tree) (w : Option Nat), s.tree.nodeAt path = some (.node l r w) →
      ∀ (i : Instr) (b : Bool) (child : Tree), (i, b, child) ∈ [(.payL, false, l), (.payR, true, r)] →
        (∀ l' r' w', child = .node l' r' w' →
          exec i s = .next { s with cur := some (path ++ [b]), done := false }) ∧
        (∀ x w', child = .leaf x w' → x.toNat ≠ 256 →
          exec i s = .next { s.emit (bitsOf 8 x.toNat) with cur := some [], done := false }) ∧
        (∀ x w', child = .leaf x w' → x.toNat = 256 →
          exec i s = .next { s with cur := none, treeSt := .none, done := true })) ∧
    ∀ x w, s.tree.nodeAt path = some (.leaf x w) →
      exec .payL s = .next (s.faultedWith .malformedStructureError .payloadDecode) ∧
      exec .payR s = .next (s.faultedWith .malformedStructureError .payloadDecode)

/-- The magic number taken (30_encoding.md R91, R171): equal to the parameter, or a `HeaderError`. -/
def Obligations.MagicTokenIsCompared : Prop :=
  ∀ (s : State) (m : Nat), s.err = .none →
    (m = s.cfg.magic.toNat → exec (.magic m) s = .next { s with scan := .idle, done := true }) ∧
    (m ≠ s.cfg.magic.toNat →
      exec (.magic m) s = .next (s.faultedWith .headerError .headerValidation))

/-- The token `0` (30_encoding.md R93, 43_header_codec.md R175) while a header is parsed: within the limit of
`NODE_CAP` one more internal node is begun, and its left subtree is next; past it a `CapacityError` (R180). -/
def Obligations.InternalTokenBeginsANode : Prop :=
  ∀ (s : State) (st : List Frame), s.err = .none → s.scan = .header st →
    ((∀ n, s.cfg.nodeCap = some n → stackNodes st + 1 ≤ n) →
      exec .hdrInt s = .next { s with scan := .header (.left :: st), done := false }) ∧
    ∀ n, s.cfg.nodeCap = some n → n < stackNodes st + 1 →
      exec .hdrInt s = .next (s.faultedWith .capacityError .treeParse)

/-- The token `1` with its symbol (R94, R176, R177) while a header is parsed. `ls` are the left subtrees of the
innermost nodes begun that wait for their right subtree only: within the limit of `NODE_CAP` the leaf completes
all of these nodes. Where no other node is begun the result is the tree; otherwise it is the left subtree of the
next one, and its right subtree is next. Past the limit it is a `CapacityError` (R180). -/
def Obligations.LeafTokenCompletesSubtrees : Prop :=
  ∀ (s : State) (st : List Frame) (sym : Nat), s.err = .none → s.scan = .header st → sym < 512 →
    ((∀ n, s.cfg.nodeCap = some n → stackNodes st + 1 ≤ n) →
      ∀ (ls : List Tree) (t : Tree),
        t = ls.foldl (fun u l => .node l u none) (.leaf (BitVec.ofNat 9 sym) none) →
        (st = ls.map .right → exec (.hdrLeaf sym) s = .next { s with
          tree := t, treeSt := .parsed, scan := .idle, done := true }) ∧
        ∀ st', st = ls.map .right ++ .left :: st' → exec (.hdrLeaf sym) s = .next { s with
          scan := .header (.right t :: st'), done := false }) ∧
    ∀ n, s.cfg.nodeCap = some n → n < stackNodes st + 1 →
      exec (.hdrLeaf sym) s = .next (s.faultedWith .capacityError .treeParse)

/-- The commands that read a container are their tokens fetched and run until none is left (R200 "R200 is
R201 iterated"; 43_header_codec.md R171, R174): stated for every collaborator and every outcome. The state a
command starts its reading in is the model's (log 14). -/
def Obligations.ReadingCommandsAreTheirTokensIterated : Prop :=
  ∀ s : State, s.err = .none →
    (Sys2Proof.core.run 1 { s with scan := .magic, done := false } = exec .rmg s) ∧
    (∃ n, Sys2Proof.core.run n
        { s with codeValid := false, treeSt := .none, scan := .header [], done := false }
      = exec .des s) ∧
    (s.treeSt ≠ .none → s.out.closed = false → s.scan = .idle →
      ∃ n, Sys2Proof.core.run n { s with cur := some [], done := false } = exec .dec s)

/-! ## The composite commands -/

/-- `CMP` is its stages (30_encoding.md R113, 46_composite_and_control.md R220): the same final state, fault
and history as the seven commands one after another. -/
def Obligations.CompressIsItsStages : Prop :=
  decodeCommand 11 = .cmp ∧
    ∀ s : State, s.out.closed = false → s.cur = none → s.scan = .idle →
      exec .cmp s = execAll [.cnt, .bld, .gen, .wmg, .ser, .enc, .fin] s

/-- `DCMP` is its stages (R113, R221): with a collaborator that does not fail; and with one that does, where the
failure is not that of the `Close` at the end, whose phase is 3 inside `DCMP` (R249; log 21;
`FailingAccessRaisesIoError` has that case). -/
def Obligations.DecompressIsItsStages : Prop :=
  decodeCommand 12 = .dcmp ∧
    ∀ s : State, s.out.closed = false → s.cur = none → s.scan = .idle → s.freqValid = false →
      (s.ioFail = [] ∨ ∀ t l, execAll [.rmg, .des, .dec] s = .next t → t.err = .none → t.ioFail ≠ 0 :: l) →
      exec .dcmp s = execAll [.rmg, .des, .dec, .fin] s

/-- Compression of any input completes and writes the container of 30_encoding.md R90 (R91, R92, R96 to R98,
R220): from position 0, into an empty output, within the limits of the parameters. What the discarded tables still
hold is the model's (log 8). -/
def Obligations.CompressWritesTheContainer : Prop :=
  ∀ (s : State) (X : List Byte), Ready s → s.inp = ⟨X, 0⟩ → s.out = ⟨[], false⟩ →
    InputFits s.cfg X.length →
    ∃ (f : Vector Nat nsym) (T : Tree) (c : Vector (Option Bits) nsym) (e : Bits),
      CountsOf f (X.map BitVec.toNat) ∧ BuildsTo f T ∧ CodesOf c T ∧
      (∀ b ∈ X, codeAt c b.toNat ≠ none) ∧ codeAt c pseudoEof = some e ∧
      exec .cmp s = .next { s with
        freq := f, freqValid := false, tree := T, treeSt := .none, code := c, codeValid := false,
        cur := none, scan := .idle, inp := ⟨X, 8 * X.length⟩,
        out := ⟨padToByte (bitsOf 32 s.cfg.magic.toNat ++ T.serBits ++ payloadOf c X ++ e), true⟩,
        done := true }

/-- The size of a compression's output (44_stream_encoder.md R195): with `L` leaves, the number of bits before
padding rounded up to whole bytes. The tree and the codes are those the stores still hold (log 8). -/
def Obligations.ContainerSize : Prop :=
  ∀ s t : State, exec .cmp s = .next t → Ready s → s.inp.pos = 0 → s.out = ⟨[], false⟩ →
    InputFits s.cfg s.inp.data.length →
    ∃ e, codeAt t.code pseudoEof = some e ∧
      t.out.bits.length = 8 * ((32 + (11 * t.tree.leaves.length - 1)
        + (payloadOf t.code s.inp.data).length + e.length + 7) / 8)

/-- `DCMP` (R221) on a container, whatever follows it: the decoded words, the output closed, and the position
just after the terminator. -/
def Obligations.DecompressReadsTheContainer : Prop :=
  ∀ (s : State) (T : Tree) (ps : List (Bits × Sym)) (q rest : Bits), Ready s → s.out = ⟨[], false⟩ →
    T.isNode = true → WordPaths T ps → EofPath T q →
    (∀ n, s.cfg.nodeCap = some n → T.nodes ≤ n) →
    s.inp.rest = bitsOf 32 s.cfg.magic.toNat ++ (T.serBits ++ (pathBits ps ++ (q ++ rest))) →
    exec .dcmp s = .next { s with
      freqValid := false, tree := T.unweighted, treeSt := .none, codeValid := false, cur := none,
      scan := .idle, out := ⟨wordBits ps, true⟩, done := true,
      inp := ⟨s.inp.data,
        s.inp.pos + 32 + T.serBits.length + (pathBits ps).length + q.length⟩ }

/-- Round trip (45_stream_decoder.md R208, an inference of the spec): the bytes of a completed `CMP` on any
words, given to `DCMP`, complete without a fault and give the words back. -/
def Obligations.DecompressInvertsCompress : Prop :=
  ∀ (s : State) (X : List Byte), Ready s → s.inp = ⟨X, 0⟩ → s.out = ⟨[], false⟩ →
    InputFits s.cfg X.length →
    ∃ t, exec .cmp s = .next t ∧ t.done = true ∧ t.err = .none ∧ t.out.closed = true ∧
      ∃ v, exec .dcmp { t with inp := ⟨t.out.bytes, 0⟩, out := ⟨[], false⟩ } = .next v ∧
        v.done = true ∧ v.err = .none ∧ v.out.closed = true ∧ v.out.bytes = X

/-- Nothing after the terminator is read (30_encoding.md R98, R205): a decompression that completes gives the
same state whatever bytes are added to its input. -/
def Obligations.BytesAfterTheTerminatorDoNotMatter : Prop :=
  ∀ (s t : State) (more : List Byte), Ready s → exec .dcmp s = .next t → t.err = .none →
    exec .dcmp { s with inp := ⟨s.inp.data ++ more, s.inp.pos⟩ }
      = .next { t with inp := ⟨s.inp.data ++ more, t.inp.pos⟩ }

/-! ## Registers and host actions -/

/-- The fields of `STATUS` (10_state.md R34). -/
def Obligations.StatusShowsTheFlags : Prop :=
  ∀ s : State,
    (status s).extractLsb' 0 1 = BitVec.ofBool (busy s) ∧
    (status s).extractLsb' 1 1 = BitVec.ofBool s.done ∧
    (status s).extractLsb' 2 4 = BitVec.ofNat 4 s.err.code ∧
    (status s).extractLsb' 6 3 = BitVec.ofNat 3 s.phase.code ∧
    (status s).extractLsb' 9 1 = BitVec.ofBool s.freqValid ∧
    (status s).extractLsb' 10 2 = BitVec.ofNat 2 s.treeSt.code ∧
    (status s).extractLsb' 12 1 = BitVec.ofBool s.codeValid ∧
    (status s).extractLsb' 13 3 = 0#3

/-- The host's actions between commands (70_reset_and_hazards.md R273, 10_state.md R33, R34): attaching streams,
reading registers, writing `STATUS`, the idle engine, and a register that is not there (log 10). In every state with
the invariant a read of `STATUS` gives `BUSY` as 0 (R34, R35). -/
def Obligations.HostActionsBetweenCommands : Prop :=
  ∀ (s : State) (rest : List HostAction), BetweenCommands s →
    (s.host = [] → step s = .next s) ∧
    (∀ bs, s.host = .attachIn bs :: rest → step s = .next { s with host := rest, inp := ⟨bs, 0⟩ }) ∧
    (s.host = .attachOut :: rest → step s = .next { s with host := rest, out := ⟨[], false⟩ }) ∧
    (s.host = .readReg 0 :: rest → step s = .next { s with host := rest, lastRead := .reg 0#16 }) ∧
    (s.host = .readReg 1 :: rest →
      step s = .next { s with host := rest, lastRead := .reg (status s) }) ∧
    (Inv s → s.host = .readReg 1 :: rest → ∃ v : BitVec 16, v.extractLsb' 0 1 = 0#1 ∧
      step s = .next { s with host := rest, lastRead := .reg v }) ∧
    (∀ v, s.host = .writeReg 1 v :: rest → step s = .next { s with host := rest }) ∧
    ∀ n, 2 ≤ n →
      (∀ v, s.host = .writeReg n v :: rest → step s = .fault (.noSuchRegister n)) ∧
      (s.host = .readReg n :: rest → step s = .fault (.noSuchRegister n))

/-- The bytes the host reads (20_memory.md R68, 60_exceptions.md R241): all of a closed output; of an open one
some prefix of its whole bytes, a free value: this holds for every value of it. -/
def Obligations.SinkHoldsAPrefixOfTheOutput : Prop :=
  ∀ (s : State) (rest : List HostAction), BetweenCommands s → s.host = .readOut :: rest →
    ∃ bs, bs <+: bytesOfBits s.out.bits ∧ (s.out.closed = true → bs = bytesOfBits s.out.bits) ∧
      step s = .next { s with host := rest, lastRead := .out bs, reads := s.reads + 1 }

/-! ## Steps -/

/-- A step runs the decoded instruction: a write of `CMD` (R33, R110) runs the command of its low four bits, at
the state without that action; a token of a container that is being read runs at the state moved past it. -/
def Obligations.StepRunsTheDecodedInstruction : Prop :=
  (∀ (s : State) (v : BitVec 16) (rest : List HostAction) (i : Instr), BetweenCommands s →
    s.host = .writeReg 0 v :: rest → decode .command (bitsOf 4 v.toNat) = .ok (i, []) →
    step s = exec i { s with host := rest }) ∧
  (∀ (s : State) (i : Instr) (rest : Bits), Ready s → s.scan = .magic →
    decode .magic s.inp.rest = .ok (i, rest) → step s = exec i (s.advance i.width)) ∧
  (∀ (s : State) (st : List Frame) (i : Instr) (rest : Bits), Ready s → s.scan = .header st →
    decode .header s.inp.rest = .ok (i, rest) → step s = exec i (s.advance i.width)) ∧
  ∀ (s : State) (p : Bits) (i : Instr) (rest : Bits), Ready s → s.scan = .idle → s.cur = some p →
    decode .payload s.inp.rest = .ok (i, rest) → step s = exec i (s.advance i.width)

/-- A token that the input ends in is the fault of its phase (R172, R175, R176, R204). That the bits of the read
that met the end are left unread is the model's choice (R64, decision D20, R242; log 27). -/
def Obligations.StepAtTheEndOfTheInputFaults : Prop :=
  ∀ s : State, Ready s →
    (s.scan = .magic → s.inp.rest.length < 32 →
      step s = .next (s.faultedWith .headerError .headerValidation)) ∧
    (∀ st, s.scan = .header st → s.inp.rest = [] →
      step s = .next (s.faultedWith .truncatedStreamError .treeParse)) ∧
    (∀ st rest, s.scan = .header st → s.inp.rest = true :: rest → rest.length < 9 →
      step s = .next ((s.advance 1).faultedWith .truncatedStreamError .treeParse)) ∧
    ∀ p, s.scan = .idle → s.cur = some p → s.inp.rest = [] →
      step s = .next (s.faultedWith .truncatedStreamError .payloadDecode)

/-- The history mark and successful runs (70_reset_and_hazards.md R278). The mark is set by every fault and by
every refusal, by no other command, and cleared by nothing. A run takes one step for each of its actions. One that
is successful, from an engine without a fault, ends with `ERR = 0` and without a new mark. And there is success
after a fault: from every state between commands, `CLR`, new streams and `CMP` are a successful run, on streams
that do not fail and within the limits of the parameters. Where R278 does not say which commands are one operation,
nor which state a run starts in, the model chose (log 30): `ERR = 0` at the end is stated of runs that start without
a fault. -/
def Obligations.HistoryMarkAndSuccessfulRuns : Prop :=
  (∀ s t : State, step s = .next t → s.mark = true → t.mark = true) ∧
  (∀ s t : State, step s = .next t → s.err = .none → t.err ≠ .none → t.mark = true) ∧
  (∀ (i : Instr) (s t : State), exec i s = .next t → i ≠ .clr → s.err ≠ .none → t.mark = true) ∧
  (∀ (i : Instr) (s t : State), i.space = .command → exec i s = .next t →
    (t.mark = true ↔ s.mark = true ∨ commandCompleted i s t = false)) ∧
  (∀ (as : List HostAction) (s : State), BetweenCommands s → s.err = .none → runSucceeded as s = true →
    ∃ t, Sys2Proof.core.run as.length { s with host := as } = .next t ∧ t.host = [] ∧ t.err = .none ∧
      t.mark = s.mark) ∧
  ∀ (s : State) (X : List Byte), BetweenCommands s → s.ioFail = [] → InputFits s.cfg X.length →
    runSucceeded [.writeReg 0 15#16, .attachIn X, .attachOut, .writeReg 0 11#16] s = true

/-! ## The invariant -/

/-- The invariant holds after reset. -/
def Obligations.InvariantHoldsAtReset : Prop := Inv State.reset

/-- Every step keeps the invariant (10_state.md R24 to R31, R36, R37, 41_tree_builder.md R147, R148,
42_code_table_generator.md R160): from every state that has it, with every collaborator and every host. -/
def Obligations.EveryStepKeepsTheInvariant : Prop :=
  ∀ s t : State, Inv s → step s = .next t → Inv t
end

