-- ==== Sys2Proof/Laws/Bits.lean ====
section
/-! SUPPORT. Bit strings, their values and their bytes. -/

namespace Sys2Proof

@[simp] theorem bitsOf_length (n v : Nat) : (bitsOf n v).length = n := by
  induction n with
  | zero => rfl
  | succ n ih => simp [bitsOf, ih]

@[simp] theorem uint_nil : uint [] = 0 := rfl

theorem foldl_uint (s : Bits) (a : Nat) :
    s.foldl (fun a b => 2 * a + b.toNat) a = a * 2 ^ s.length + uint s := by
  induction s generalizing a with
  | nil => simp
  | cons b s ih =>
    have h0 : uint (b :: s) = b.toNat * 2 ^ s.length + uint s := by
      show s.foldl (fun a b => 2 * a + b.toNat) (2 * 0 + b.toNat) = _
      rw [ih]; simp
    rw [List.foldl_cons, ih, h0, List.length_cons, Nat.pow_succ]
    ring

theorem uint_cons (b : Bool) (s : Bits) : uint (b :: s) = b.toNat * 2 ^ s.length + uint s := by
  show s.foldl (fun a b => 2 * a + b.toNat) (2 * 0 + b.toNat) = _
  rw [foldl_uint]; simp

theorem uint_append (s t : Bits) : uint (s ++ t) = uint s * 2 ^ t.length + uint t := by
  unfold uint
  rw [List.foldl_append, foldl_uint]
  rfl

theorem uint_lt (s : Bits) : uint s < 2 ^ s.length := by
  induction s with
  | nil => simp
  | cons b s ih =>
    rw [uint_cons, List.length_cons, Nat.pow_succ]
    cases b <;> simp <;> omega

theorem uint_bitsOf (n v : Nat) : uint (bitsOf n v) = v % 2 ^ n := by
  induction n with
  | zero => simp [bitsOf, Nat.mod_one]
  | succ n ih =>
    rw [bitsOf, uint_cons, ih, bitsOf_length, Nat.mod_pow_succ, Nat.toNat_testBit]
    ring

/-- Reading back a value that fits its width (R61). -/
theorem uint_bitsOf_of_lt {n v : Nat} (h : v < 2 ^ n) : uint (bitsOf n v) = v := by
  rw [uint_bitsOf, Nat.mod_eq_of_lt h]

theorem bitsOf_add (n v k : Nat) : bitsOf n (v + 2 ^ n * k) = bitsOf n v := by
  induction n generalizing k with
  | zero => rfl
  | succ n ih =>
    have e : v + 2 ^ (n + 1) * k = v + 2 ^ n * (2 * k) := by rw [Nat.pow_succ]; ring
    rw [bitsOf, bitsOf, e, ih]
    congr 1
    have e2 : (v + 2 ^ n * (2 * k)) / 2 ^ n = v / 2 ^ n + 2 * k :=
      Nat.add_mul_div_left _ _ (Nat.two_pow_pos n)
    rw [Nat.testBit_eq_decide_div_mod_eq, Nat.testBit_eq_decide_div_mod_eq, e2,
      Nat.add_mul_mod_self_left]

theorem bitsOf_mod (n v : Nat) : bitsOf n (v % 2 ^ n) = bitsOf n v := by
  conv => rhs; rw [← Nat.mod_add_div v (2 ^ n)]
  rw [bitsOf_add]

/-- Writing back the value of a bit string gives the bit string (R61). -/
theorem bitsOf_uint (s : Bits) : bitsOf s.length (uint s) = s := by
  induction s with
  | nil => rfl
  | cons b s ih =>
    have hlt := uint_lt s
    rw [List.length_cons, bitsOf, uint_cons]
    congr 1
    · rw [Nat.mul_comm, Nat.testBit_two_pow_mul_add _ hlt]
      cases b <;> simp
    · rw [Nat.mul_comm, Nat.add_comm, bitsOf_add, ih]

theorem bitsOf_uint_of_length {n : Nat} {s : Bits} (h : s.length = n) : bitsOf n (uint s) = s := by
  subst h; exact bitsOf_uint s

/-! ## Bytes -/

@[simp] theorem byteBits_length (b : Byte) : (byteBits b).length = 8 := bitsOf_length 8 _

@[simp] theorem bitsOfBytes_nil : bitsOfBytes [] = [] := rfl

@[simp] theorem bitsOfBytes_cons (b : Byte) (bs : List Byte) :
    bitsOfBytes (b :: bs) = byteBits b ++ bitsOfBytes bs := rfl

theorem bitsOfBytes_append (a b : List Byte) : bitsOfBytes (a ++ b) = bitsOfBytes a ++ bitsOfBytes b := by
  simp [bitsOfBytes]

@[simp] theorem bitsOfBytes_length (bs : List Byte) : (bitsOfBytes bs).length = 8 * bs.length := by
  induction bs with
  | nil => rfl
  | cons b bs ih => simp [ih]; omega

theorem uint_byteBits (b : Byte) : uint (byteBits b) = b.toNat := uint_bitsOf_of_lt b.isLt

theorem ofNat_uint_byteBits (b : Byte) : BitVec.ofNat 8 (uint (byteBits b)) = b := by
  rw [uint_byteBits]; simp

theorem byteBits_ofNat_uint {s : Bits} (h : s.length = 8) :
    byteBits (BitVec.ofNat 8 (uint s)) = s := by
  have hlt := uint_lt s
  rw [h] at hlt
  unfold byteBits
  rw [BitVec.toNat_ofNat, Nat.mod_eq_of_lt hlt, bitsOf_uint_of_length h]

theorem bytesOfBits_append_byte {s t : Bits} (h : s.length = 8) :
    bytesOfBits (s ++ t) = BitVec.ofNat 8 (uint s) :: bytesOfBits t := by
  have hq : (s ++ t).length / 8 = t.length / 8 + 1 := by rw [List.length_append, h]; omega
  unfold bytesOfBits
  rw [hq, List.range_succ_eq_map, List.map_cons, List.map_map]
  congr 1
  · simp [← h]
  · apply List.map_congr_left
    intro k _
    have : 8 * (k + 1) = 8 + 8 * k := by omega
    simp only [Function.comp, Nat.succ_eq_add_one, this]
    have hd : (s ++ t).drop (8 + 8 * k) = t.drop (8 * k) := by
      rw [← List.drop_drop, List.drop_left' h]
    rw [hd]

theorem bytesOfBits_nil : bytesOfBits [] = [] := rfl

/-- The byte view of the bits of some bytes is those bytes (R36, R37). -/
theorem bytesOfBits_bitsOfBytes (bs : List Byte) : bytesOfBits (bitsOfBytes bs) = bs := by
  induction bs with
  | nil => rfl
  | cons b bs ih =>
    rw [bitsOfBytes_cons, bytesOfBits_append_byte (byteBits_length b), ih, ofNat_uint_byteBits]

/-- The bits of the byte view of a whole number of bytes are those bits (R36, R37). -/
theorem bitsOfBytes_bytesOfBits {s : Bits} (h : s.length % 8 = 0) :
    bitsOfBytes (bytesOfBits s) = s := by
  obtain ⟨n, hn⟩ : ∃ n, s.length = 8 * n := ⟨s.length / 8, by omega⟩
  clear h
  induction n generalizing s with
  | zero =>
    have hs : s = [] := List.eq_nil_of_length_eq_zero (by omega)
    subst hs; rfl
  | succ n ih =>
    have h8 : (s.take 8).length = 8 := by rw [List.length_take]; omega
    rw [← List.take_append_drop 8 s, bytesOfBits_append_byte h8, bitsOfBytes_cons,
      byteBits_ofNat_uint h8, ih (by rw [List.length_drop]; omega)]

/-! ## Padding -/

theorem padLen_lt (n : Nat) : padLen n < 8 := by unfold padLen; omega

theorem padLen_mod (n : Nat) : (n + padLen n) % 8 = 0 := by unfold padLen; omega

theorem padLen_of_mod {n : Nat} (h : n % 8 = 0) : padLen n = 0 := by unfold padLen; omega

theorem padToByte_length_mod (s : Bits) : (padToByte s).length % 8 = 0 := by
  simp [padToByte, padLen_mod]

theorem padToByte_of_mod {s : Bits} (h : s.length % 8 = 0) : padToByte s = s := by
  simp [padToByte, padLen_of_mod h]

/-! ## The bit at an index -/

theorem bitsOf_getElem? (n v i : Nat) (h : i < n) : (bitsOf n v)[i]? = some (v.testBit (n - 1 - i)) := by
  induction n generalizing i with
  | zero => omega
  | succ n ih =>
    cases i with
    | zero => simp [bitsOf]
    | succ i =>
      rw [bitsOf, List.getElem?_cons_succ, ih i (by omega)]
      congr 2; omega

/-- The bit at stream index `i` is bit `7 - (i mod 8)` of byte `i div 8` (R36). -/
theorem bitsOfBytes_getElem? (bs : List Byte) (i : Nat) :
    (bitsOfBytes bs)[i]? = (bs[i / 8]?).map fun b => b.getLsbD (7 - i % 8) := by
  induction bs generalizing i with
  | nil => simp
  | cons b bs ih =>
    by_cases h : i < 8
    · have h0 : i / 8 = 0 := by omega
      rw [bitsOfBytes_cons, List.getElem?_append_left (by simpa using h), h0]
      unfold byteBits
      rw [bitsOf_getElem? _ _ _ h]
      simp [BitVec.getLsbD, Nat.mod_eq_of_lt h]
    · have h1 : i / 8 = (i - 8) / 8 + 1 := by omega
      have h2 : i % 8 = (i - 8) % 8 := by omega
      rw [bitsOfBytes_cons, List.getElem?_append_right (by simpa using h), h1, h2,
        List.getElem?_cons_succ, byteBits_length, ih]

end Sys2Proof
end

