-- ==== Sys2Proof/Laws/Encoding.lean ====
section
/-! SUPPORT. What the decoder reads from a bit string, space by space. -/

namespace Sys2Proof

@[simp] theorem encode_length (i : Instr) : (encode i).length = i.width := bitsOf_length _ _

/-- Four bits are a command (R110). -/
theorem decode_command {b : Bits} (h : b.length = 4) (rest : Bits) :
    decode .command (b ++ rest) = .ok (decodeCommand (uint b), rest) := by
  simp [decode, ← h]

/-- 32 bits are a magic number (R91). -/
theorem decode_magic {b : Bits} (h : b.length = magicW) (rest : Bits) :
    decode .magic (b ++ rest) = .ok (.magic (uint b), rest) := by
  simp [decode, ← h]

/-- The marker `0` is an internal node (R93). -/
theorem decode_header_int (rest : Bits) : decode .header (false :: rest) = .ok (.hdrInt, rest) := by
  simp [decode, fieldWidth, decodeHeader]

/-- The marker `1` and nine bits are a leaf (R94). -/
theorem decode_header_leaf {b : Bits} (h : b.length = symFieldW) (rest : Bits) :
    decode .header (true :: (b ++ rest)) = .ok (.hdrLeaf (uint b), rest) := by
  simp [decode, fieldWidth, decodeHeader, ← h]

/-- A payload bit (R99). -/
theorem decode_payload (b : Bool) (rest : Bits) :
    decode .payload (b :: rest) = .ok (if b then .payR else .payL, rest) := by
  cases b <;> rfl

/-- A command is read back from its four bits. -/
theorem decode_encode_command {i : Instr} (hs : encode i = bitsOf 4 i.code) (hc : i.code < 16)
    (h : decodeCommand i.code = i) (rest : Bits) :
    decode .command (encode i ++ rest) = .ok (i, rest) := by
  rw [decode_command (by rw [hs]; exact bitsOf_length 4 _), hs, uint_bitsOf_of_lt (by simpa using hc), h]

/-- The bits of a leaf token: the marker, then the field, most significant bit first (R94). -/
theorem encode_hdrLeaf {sym : Nat} (h : sym < 2 ^ symFieldW) :
    encode (.hdrLeaf sym) = true :: bitsOf symFieldW sym := by
  have hb : (2 ^ symFieldW + sym).testBit symFieldW = true := by
    rw [Nat.testBit_eq_decide_div_mod_eq]
    have : (2 ^ symFieldW + sym) / 2 ^ symFieldW = 1 := by
      rw [Nat.add_div_left _ (Nat.two_pow_pos _), Nat.div_eq_of_lt h]
    rw [this]; rfl
  show bitsOf (1 + symFieldW) (2 ^ symFieldW + sym) = _
  rw [Nat.add_comm 1, bitsOf, hb]
  congr 1
  have := bitsOf_add symFieldW sym 1
  rwa [Nat.mul_one, Nat.add_comm] at this

end Sys2Proof
end

