-- ==== Sys2Proof/Laws/State.lean ====
section
/-! SUPPORT. One lemma per field per named update of the state. -/

namespace Sys2Proof.Machine

/-! ## `discardAll` -/

@[simp] theorem discardAll_cfg (s : State) : (discardAll s).cfg = s.cfg := rfl
@[simp] theorem discardAll_freq (s : State) : (discardAll s).freq = s.freq := rfl
@[simp] theorem discardAll_freqValid (s : State) : (discardAll s).freqValid = false := rfl
@[simp] theorem discardAll_tree (s : State) : (discardAll s).tree = s.tree := rfl
@[simp] theorem discardAll_treeSt (s : State) : (discardAll s).treeSt = .none := rfl
@[simp] theorem discardAll_code (s : State) : (discardAll s).code = s.code := rfl
@[simp] theorem discardAll_codeValid (s : State) : (discardAll s).codeValid = false := rfl
@[simp] theorem discardAll_cur (s : State) : (discardAll s).cur = none := rfl
@[simp] theorem discardAll_err (s : State) : (discardAll s).err = s.err := rfl
@[simp] theorem discardAll_phase (s : State) : (discardAll s).phase = s.phase := rfl
@[simp] theorem discardAll_done (s : State) : (discardAll s).done = s.done := rfl
@[simp] theorem discardAll_inp (s : State) : (discardAll s).inp = s.inp := rfl
@[simp] theorem discardAll_out (s : State) : (discardAll s).out = s.out := rfl
@[simp] theorem discardAll_scan (s : State) : (discardAll s).scan = .idle := rfl
@[simp] theorem discardAll_ioFail (s : State) : (discardAll s).ioFail = s.ioFail := rfl
@[simp] theorem discardAll_host (s : State) : (discardAll s).host = s.host := rfl
@[simp] theorem discardAll_lastRead (s : State) : (discardAll s).lastRead = s.lastRead := rfl
@[simp] theorem discardAll_reads (s : State) : (discardAll s).reads = s.reads := rfl
@[simp] theorem discardAll_mark (s : State) : (discardAll s).mark = s.mark := rfl

/-! ## `raiseFault` -/

@[simp] theorem raiseFault_cfg (f : ErrCode) (p : Phase) (s : State) : (raiseFault f p s).cfg = s.cfg := rfl
@[simp] theorem raiseFault_freq (f : ErrCode) (p : Phase) (s : State) : (raiseFault f p s).freq = s.freq := rfl
@[simp] theorem raiseFault_freqValid (f : ErrCode) (p : Phase) (s : State) : (raiseFault f p s).freqValid = false := rfl
@[simp] theorem raiseFault_tree (f : ErrCode) (p : Phase) (s : State) : (raiseFault f p s).tree = s.tree := rfl
@[simp] theorem raiseFault_treeSt (f : ErrCode) (p : Phase) (s : State) : (raiseFault f p s).treeSt = .none := rfl
@[simp] theorem raiseFault_code (f : ErrCode) (p : Phase) (s : State) : (raiseFault f p s).code = s.code := rfl
@[simp] theorem raiseFault_codeValid (f : ErrCode) (p : Phase) (s : State) : (raiseFault f p s).codeValid = false := rfl
@[simp] theorem raiseFault_cur (f : ErrCode) (p : Phase) (s : State) : (raiseFault f p s).cur = none := rfl
@[simp] theorem raiseFault_err (f : ErrCode) (p : Phase) (s : State) : (raiseFault f p s).err = f := rfl
@[simp] theorem raiseFault_phase (f : ErrCode) (p : Phase) (s : State) : (raiseFault f p s).phase = p := rfl
@[simp] theorem raiseFault_done (f : ErrCode) (p : Phase) (s : State) : (raiseFault f p s).done = false := rfl
@[simp] theorem raiseFault_inp (f : ErrCode) (p : Phase) (s : State) : (raiseFault f p s).inp = s.inp := rfl
@[simp] theorem raiseFault_out (f : ErrCode) (p : Phase) (s : State) : (raiseFault f p s).out = s.out := rfl
@[simp] theorem raiseFault_scan (f : ErrCode) (p : Phase) (s : State) : (raiseFault f p s).scan = .idle := rfl
@[simp] theorem raiseFault_ioFail (f : ErrCode) (p : Phase) (s : State) : (raiseFault f p s).ioFail = s.ioFail := rfl
@[simp] theorem raiseFault_host (f : ErrCode) (p : Phase) (s : State) : (raiseFault f p s).host = s.host := rfl
@[simp] theorem raiseFault_lastRead (f : ErrCode) (p : Phase) (s : State) : (raiseFault f p s).lastRead = s.lastRead := rfl
@[simp] theorem raiseFault_reads (f : ErrCode) (p : Phase) (s : State) : (raiseFault f p s).reads = s.reads := rfl
@[simp] theorem raiseFault_mark (f : ErrCode) (p : Phase) (s : State) : (raiseFault f p s).mark = true := rfl

/-! ## `clearFault` -/

@[simp] theorem clearFault_cfg (s : State) : (clearFault s).cfg = s.cfg := rfl
@[simp] theorem clearFault_freq (s : State) : (clearFault s).freq = s.freq := rfl
@[simp] theorem clearFault_freqValid (s : State) : (clearFault s).freqValid = false := rfl
@[simp] theorem clearFault_tree (s : State) : (clearFault s).tree = s.tree := rfl
@[simp] theorem clearFault_treeSt (s : State) : (clearFault s).treeSt = .none := rfl
@[simp] theorem clearFault_code (s : State) : (clearFault s).code = s.code := rfl
@[simp] theorem clearFault_codeValid (s : State) : (clearFault s).codeValid = false := rfl
@[simp] theorem clearFault_cur (s : State) : (clearFault s).cur = none := rfl
@[simp] theorem clearFault_err (s : State) : (clearFault s).err = .none := rfl
@[simp] theorem clearFault_phase (s : State) : (clearFault s).phase = .none := rfl
@[simp] theorem clearFault_done (s : State) : (clearFault s).done = true := rfl
@[simp] theorem clearFault_inp (s : State) : (clearFault s).inp = s.inp := rfl
@[simp] theorem clearFault_out (s : State) : (clearFault s).out = s.out := rfl
@[simp] theorem clearFault_scan (s : State) : (clearFault s).scan = .idle := rfl
@[simp] theorem clearFault_ioFail (s : State) : (clearFault s).ioFail = s.ioFail := rfl
@[simp] theorem clearFault_host (s : State) : (clearFault s).host = s.host := rfl
@[simp] theorem clearFault_lastRead (s : State) : (clearFault s).lastRead = s.lastRead := rfl
@[simp] theorem clearFault_reads (s : State) : (clearFault s).reads = s.reads := rfl
@[simp] theorem clearFault_mark (s : State) : (clearFault s).mark = s.mark := rfl

/-! ## `engineReset` -/

@[simp] theorem engineReset_cfg (s : State) : (engineReset s).cfg = s.cfg := rfl
@[simp] theorem engineReset_freq (s : State) : (engineReset s).freq = s.freq := rfl
@[simp] theorem engineReset_freqValid (s : State) : (engineReset s).freqValid = false := rfl
@[simp] theorem engineReset_tree (s : State) : (engineReset s).tree = s.tree := rfl
@[simp] theorem engineReset_treeSt (s : State) : (engineReset s).treeSt = .none := rfl
@[simp] theorem engineReset_code (s : State) : (engineReset s).code = s.code := rfl
@[simp] theorem engineReset_codeValid (s : State) : (engineReset s).codeValid = false := rfl
@[simp] theorem engineReset_cur (s : State) : (engineReset s).cur = none := rfl
@[simp] theorem engineReset_err (s : State) : (engineReset s).err = .none := rfl
@[simp] theorem engineReset_phase (s : State) : (engineReset s).phase = .none := rfl
@[simp] theorem engineReset_done (s : State) : (engineReset s).done = false := rfl
@[simp] theorem engineReset_inp (s : State) : (engineReset s).inp = s.inp := rfl
@[simp] theorem engineReset_out (s : State) : (engineReset s).out = s.out := rfl
@[simp] theorem engineReset_scan (s : State) : (engineReset s).scan = .idle := rfl
@[simp] theorem engineReset_ioFail (s : State) : (engineReset s).ioFail = s.ioFail := rfl
@[simp] theorem engineReset_host (s : State) : (engineReset s).host = s.host := rfl
@[simp] theorem engineReset_lastRead (s : State) : (engineReset s).lastRead = s.lastRead := rfl
@[simp] theorem engineReset_reads (s : State) : (engineReset s).reads = s.reads := rfl
@[simp] theorem engineReset_mark (s : State) : (engineReset s).mark = s.mark := rfl

/-! ## `refuseCommand` -/

@[simp] theorem refuseCommand_cfg (s : State) : (refuseCommand s).cfg = s.cfg := rfl
@[simp] theorem refuseCommand_freq (s : State) : (refuseCommand s).freq = s.freq := rfl
@[simp] theorem refuseCommand_freqValid (s : State) : (refuseCommand s).freqValid = s.freqValid := rfl
@[simp] theorem refuseCommand_tree (s : State) : (refuseCommand s).tree = s.tree := rfl
@[simp] theorem refuseCommand_treeSt (s : State) : (refuseCommand s).treeSt = s.treeSt := rfl
@[simp] theorem refuseCommand_code (s : State) : (refuseCommand s).code = s.code := rfl
@[simp] theorem refuseCommand_codeValid (s : State) : (refuseCommand s).codeValid = s.codeValid := rfl
@[simp] theorem refuseCommand_cur (s : State) : (refuseCommand s).cur = s.cur := rfl
@[simp] theorem refuseCommand_err (s : State) : (refuseCommand s).err = s.err := rfl
@[simp] theorem refuseCommand_phase (s : State) : (refuseCommand s).phase = s.phase := rfl
@[simp] theorem refuseCommand_done (s : State) : (refuseCommand s).done = s.done := rfl
@[simp] theorem refuseCommand_inp (s : State) : (refuseCommand s).inp = s.inp := rfl
@[simp] theorem refuseCommand_out (s : State) : (refuseCommand s).out = s.out := rfl
@[simp] theorem refuseCommand_scan (s : State) : (refuseCommand s).scan = s.scan := rfl
@[simp] theorem refuseCommand_ioFail (s : State) : (refuseCommand s).ioFail = s.ioFail := rfl
@[simp] theorem refuseCommand_host (s : State) : (refuseCommand s).host = s.host := rfl
@[simp] theorem refuseCommand_lastRead (s : State) : (refuseCommand s).lastRead = s.lastRead := rfl
@[simp] theorem refuseCommand_reads (s : State) : (refuseCommand s).reads = s.reads := rfl
@[simp] theorem refuseCommand_mark (s : State) : (refuseCommand s).mark = true := rfl

/-! ## `startCount` -/

@[simp] theorem startCount_cfg (s : State) : (startCount s).cfg = s.cfg := rfl
@[simp] theorem startCount_freq (s : State) : (startCount s).freq = Vector.replicate nsym 0 := rfl
@[simp] theorem startCount_freqValid (s : State) : (startCount s).freqValid = false := rfl
@[simp] theorem startCount_tree (s : State) : (startCount s).tree = s.tree := rfl
@[simp] theorem startCount_treeSt (s : State) : (startCount s).treeSt = .none := rfl
@[simp] theorem startCount_code (s : State) : (startCount s).code = s.code := rfl
@[simp] theorem startCount_codeValid (s : State) : (startCount s).codeValid = false := rfl
@[simp] theorem startCount_cur (s : State) : (startCount s).cur = s.cur := rfl
@[simp] theorem startCount_err (s : State) : (startCount s).err = s.err := rfl
@[simp] theorem startCount_phase (s : State) : (startCount s).phase = s.phase := rfl
@[simp] theorem startCount_done (s : State) : (startCount s).done = s.done := rfl
@[simp] theorem startCount_inp (s : State) : (startCount s).inp = s.inp := rfl
@[simp] theorem startCount_out (s : State) : (startCount s).out = s.out := rfl
@[simp] theorem startCount_scan (s : State) : (startCount s).scan = s.scan := rfl
@[simp] theorem startCount_ioFail (s : State) : (startCount s).ioFail = s.ioFail := rfl
@[simp] theorem startCount_host (s : State) : (startCount s).host = s.host := rfl
@[simp] theorem startCount_lastRead (s : State) : (startCount s).lastRead = s.lastRead := rfl
@[simp] theorem startCount_reads (s : State) : (startCount s).reads = s.reads := rfl
@[simp] theorem startCount_mark (s : State) : (startCount s).mark = s.mark := rfl

/-! ## `beginParse` -/

@[simp] theorem beginParse_cfg (s : State) : (beginParse s).cfg = s.cfg := rfl
@[simp] theorem beginParse_freq (s : State) : (beginParse s).freq = s.freq := rfl
@[simp] theorem beginParse_freqValid (s : State) : (beginParse s).freqValid = s.freqValid := rfl
@[simp] theorem beginParse_tree (s : State) : (beginParse s).tree = s.tree := rfl
@[simp] theorem beginParse_treeSt (s : State) : (beginParse s).treeSt = .none := rfl
@[simp] theorem beginParse_code (s : State) : (beginParse s).code = s.code := rfl
@[simp] theorem beginParse_codeValid (s : State) : (beginParse s).codeValid = false := rfl
@[simp] theorem beginParse_cur (s : State) : (beginParse s).cur = s.cur := rfl
@[simp] theorem beginParse_err (s : State) : (beginParse s).err = s.err := rfl
@[simp] theorem beginParse_phase (s : State) : (beginParse s).phase = s.phase := rfl
@[simp] theorem beginParse_done (s : State) : (beginParse s).done = s.done := rfl
@[simp] theorem beginParse_inp (s : State) : (beginParse s).inp = s.inp := rfl
@[simp] theorem beginParse_out (s : State) : (beginParse s).out = s.out := rfl
@[simp] theorem beginParse_scan (s : State) : (beginParse s).scan = .header [] := rfl
@[simp] theorem beginParse_ioFail (s : State) : (beginParse s).ioFail = s.ioFail := rfl
@[simp] theorem beginParse_host (s : State) : (beginParse s).host = s.host := rfl
@[simp] theorem beginParse_lastRead (s : State) : (beginParse s).lastRead = s.lastRead := rfl
@[simp] theorem beginParse_reads (s : State) : (beginParse s).reads = s.reads := rfl
@[simp] theorem beginParse_mark (s : State) : (beginParse s).mark = s.mark := rfl

/-! ## `attachInput` -/

@[simp] theorem attachInput_cfg (b : List Byte) (s : State) : (attachInput b s).cfg = s.cfg := rfl
@[simp] theorem attachInput_freq (b : List Byte) (s : State) : (attachInput b s).freq = s.freq := rfl
@[simp] theorem attachInput_freqValid (b : List Byte) (s : State) : (attachInput b s).freqValid = s.freqValid := rfl
@[simp] theorem attachInput_tree (b : List Byte) (s : State) : (attachInput b s).tree = s.tree := rfl
@[simp] theorem attachInput_treeSt (b : List Byte) (s : State) : (attachInput b s).treeSt = s.treeSt := rfl
@[simp] theorem attachInput_code (b : List Byte) (s : State) : (attachInput b s).code = s.code := rfl
@[simp] theorem attachInput_codeValid (b : List Byte) (s : State) : (attachInput b s).codeValid = s.codeValid := rfl
@[simp] theorem attachInput_cur (b : List Byte) (s : State) : (attachInput b s).cur = s.cur := rfl
@[simp] theorem attachInput_err (b : List Byte) (s : State) : (attachInput b s).err = s.err := rfl
@[simp] theorem attachInput_phase (b : List Byte) (s : State) : (attachInput b s).phase = s.phase := rfl
@[simp] theorem attachInput_done (b : List Byte) (s : State) : (attachInput b s).done = s.done := rfl
@[simp] theorem attachInput_inp (b : List Byte) (s : State) : (attachInput b s).inp = ⟨b, 0⟩ := rfl
@[simp] theorem attachInput_out (b : List Byte) (s : State) : (attachInput b s).out = s.out := rfl
@[simp] theorem attachInput_scan (b : List Byte) (s : State) : (attachInput b s).scan = s.scan := rfl
@[simp] theorem attachInput_ioFail (b : List Byte) (s : State) : (attachInput b s).ioFail = s.ioFail := rfl
@[simp] theorem attachInput_host (b : List Byte) (s : State) : (attachInput b s).host = s.host := rfl
@[simp] theorem attachInput_lastRead (b : List Byte) (s : State) : (attachInput b s).lastRead = s.lastRead := rfl
@[simp] theorem attachInput_reads (b : List Byte) (s : State) : (attachInput b s).reads = s.reads := rfl
@[simp] theorem attachInput_mark (b : List Byte) (s : State) : (attachInput b s).mark = s.mark := rfl

/-! ## `attachOutput` -/

@[simp] theorem attachOutput_cfg (s : State) : (attachOutput s).cfg = s.cfg := rfl
@[simp] theorem attachOutput_freq (s : State) : (attachOutput s).freq = s.freq := rfl
@[simp] theorem attachOutput_freqValid (s : State) : (attachOutput s).freqValid = s.freqValid := rfl
@[simp] theorem attachOutput_tree (s : State) : (attachOutput s).tree = s.tree := rfl
@[simp] theorem attachOutput_treeSt (s : State) : (attachOutput s).treeSt = s.treeSt := rfl
@[simp] theorem attachOutput_code (s : State) : (attachOutput s).code = s.code := rfl
@[simp] theorem attachOutput_codeValid (s : State) : (attachOutput s).codeValid = s.codeValid := rfl
@[simp] theorem attachOutput_cur (s : State) : (attachOutput s).cur = s.cur := rfl
@[simp] theorem attachOutput_err (s : State) : (attachOutput s).err = s.err := rfl
@[simp] theorem attachOutput_phase (s : State) : (attachOutput s).phase = s.phase := rfl
@[simp] theorem attachOutput_done (s : State) : (attachOutput s).done = s.done := rfl
@[simp] theorem attachOutput_inp (s : State) : (attachOutput s).inp = s.inp := rfl
@[simp] theorem attachOutput_out (s : State) : (attachOutput s).out = ⟨[], false⟩ := rfl
@[simp] theorem attachOutput_scan (s : State) : (attachOutput s).scan = s.scan := rfl
@[simp] theorem attachOutput_ioFail (s : State) : (attachOutput s).ioFail = s.ioFail := rfl
@[simp] theorem attachOutput_host (s : State) : (attachOutput s).host = s.host := rfl
@[simp] theorem attachOutput_lastRead (s : State) : (attachOutput s).lastRead = s.lastRead := rfl
@[simp] theorem attachOutput_reads (s : State) : (attachOutput s).reads = s.reads := rfl
@[simp] theorem attachOutput_mark (s : State) : (attachOutput s).mark = s.mark := rfl

/-! ## `State.advance` -/

@[simp] theorem State.advance_cfg (n : Nat) (s : State) : (s.advance n).cfg = s.cfg := rfl
@[simp] theorem State.advance_freq (n : Nat) (s : State) : (s.advance n).freq = s.freq := rfl
@[simp] theorem State.advance_freqValid (n : Nat) (s : State) : (s.advance n).freqValid = s.freqValid := rfl
@[simp] theorem State.advance_tree (n : Nat) (s : State) : (s.advance n).tree = s.tree := rfl
@[simp] theorem State.advance_treeSt (n : Nat) (s : State) : (s.advance n).treeSt = s.treeSt := rfl
@[simp] theorem State.advance_code (n : Nat) (s : State) : (s.advance n).code = s.code := rfl
@[simp] theorem State.advance_codeValid (n : Nat) (s : State) : (s.advance n).codeValid = s.codeValid := rfl
@[simp] theorem State.advance_cur (n : Nat) (s : State) : (s.advance n).cur = s.cur := rfl
@[simp] theorem State.advance_err (n : Nat) (s : State) : (s.advance n).err = s.err := rfl
@[simp] theorem State.advance_phase (n : Nat) (s : State) : (s.advance n).phase = s.phase := rfl
@[simp] theorem State.advance_done (n : Nat) (s : State) : (s.advance n).done = s.done := rfl
@[simp] theorem State.advance_inp (n : Nat) (s : State) : (s.advance n).inp = ⟨s.inp.data, s.inp.pos + n⟩ := rfl
@[simp] theorem State.advance_out (n : Nat) (s : State) : (s.advance n).out = s.out := rfl
@[simp] theorem State.advance_scan (n : Nat) (s : State) : (s.advance n).scan = s.scan := rfl
@[simp] theorem State.advance_ioFail (n : Nat) (s : State) : (s.advance n).ioFail = s.ioFail := rfl
@[simp] theorem State.advance_host (n : Nat) (s : State) : (s.advance n).host = s.host := rfl
@[simp] theorem State.advance_lastRead (n : Nat) (s : State) : (s.advance n).lastRead = s.lastRead := rfl
@[simp] theorem State.advance_reads (n : Nat) (s : State) : (s.advance n).reads = s.reads := rfl
@[simp] theorem State.advance_mark (n : Nat) (s : State) : (s.advance n).mark = s.mark := rfl

/-! ## `State.emit` -/

@[simp] theorem State.emit_cfg (b : Bits) (s : State) : (s.emit b).cfg = s.cfg := rfl
@[simp] theorem State.emit_freq (b : Bits) (s : State) : (s.emit b).freq = s.freq := rfl
@[simp] theorem State.emit_freqValid (b : Bits) (s : State) : (s.emit b).freqValid = s.freqValid := rfl
@[simp] theorem State.emit_tree (b : Bits) (s : State) : (s.emit b).tree = s.tree := rfl
@[simp] theorem State.emit_treeSt (b : Bits) (s : State) : (s.emit b).treeSt = s.treeSt := rfl
@[simp] theorem State.emit_code (b : Bits) (s : State) : (s.emit b).code = s.code := rfl
@[simp] theorem State.emit_codeValid (b : Bits) (s : State) : (s.emit b).codeValid = s.codeValid := rfl
@[simp] theorem State.emit_cur (b : Bits) (s : State) : (s.emit b).cur = s.cur := rfl
@[simp] theorem State.emit_err (b : Bits) (s : State) : (s.emit b).err = s.err := rfl
@[simp] theorem State.emit_phase (b : Bits) (s : State) : (s.emit b).phase = s.phase := rfl
@[simp] theorem State.emit_done (b : Bits) (s : State) : (s.emit b).done = s.done := rfl
@[simp] theorem State.emit_inp (b : Bits) (s : State) : (s.emit b).inp = s.inp := rfl
@[simp] theorem State.emit_out (b : Bits) (s : State) : (s.emit b).out = ⟨s.out.bits ++ b, s.out.closed⟩ := rfl
@[simp] theorem State.emit_scan (b : Bits) (s : State) : (s.emit b).scan = s.scan := rfl
@[simp] theorem State.emit_ioFail (b : Bits) (s : State) : (s.emit b).ioFail = s.ioFail := rfl
@[simp] theorem State.emit_host (b : Bits) (s : State) : (s.emit b).host = s.host := rfl
@[simp] theorem State.emit_lastRead (b : Bits) (s : State) : (s.emit b).lastRead = s.lastRead := rfl
@[simp] theorem State.emit_reads (b : Bits) (s : State) : (s.emit b).reads = s.reads := rfl
@[simp] theorem State.emit_mark (b : Bits) (s : State) : (s.emit b).mark = s.mark := rfl

/-! ## `State.faultedWith` -/

@[simp] theorem State.faultedWith_cfg (f : ErrCode) (p : Phase) (s : State) : (s.faultedWith f p).cfg = s.cfg := rfl
@[simp] theorem State.faultedWith_freq (f : ErrCode) (p : Phase) (s : State) : (s.faultedWith f p).freq = s.freq := rfl
@[simp] theorem State.faultedWith_freqValid (f : ErrCode) (p : Phase) (s : State) : (s.faultedWith f p).freqValid = false := rfl
@[simp] theorem State.faultedWith_tree (f : ErrCode) (p : Phase) (s : State) : (s.faultedWith f p).tree = s.tree := rfl
@[simp] theorem State.faultedWith_treeSt (f : ErrCode) (p : Phase) (s : State) : (s.faultedWith f p).treeSt = .none := rfl
@[simp] theorem State.faultedWith_code (f : ErrCode) (p : Phase) (s : State) : (s.faultedWith f p).code = s.code := rfl
@[simp] theorem State.faultedWith_codeValid (f : ErrCode) (p : Phase) (s : State) : (s.faultedWith f p).codeValid = false := rfl
@[simp] theorem State.faultedWith_cur (f : ErrCode) (p : Phase) (s : State) : (s.faultedWith f p).cur = none := rfl
@[simp] theorem State.faultedWith_err (f : ErrCode) (p : Phase) (s : State) : (s.faultedWith f p).err = f := rfl
@[simp] theorem State.faultedWith_phase (f : ErrCode) (p : Phase) (s : State) : (s.faultedWith f p).phase = p := rfl
@[simp] theorem State.faultedWith_done (f : ErrCode) (p : Phase) (s : State) : (s.faultedWith f p).done = false := rfl
@[simp] theorem State.faultedWith_inp (f : ErrCode) (p : Phase) (s : State) : (s.faultedWith f p).inp = s.inp := rfl
@[simp] theorem State.faultedWith_out (f : ErrCode) (p : Phase) (s : State) : (s.faultedWith f p).out = s.out := rfl
@[simp] theorem State.faultedWith_scan (f : ErrCode) (p : Phase) (s : State) : (s.faultedWith f p).scan = .idle := rfl
@[simp] theorem State.faultedWith_ioFail (f : ErrCode) (p : Phase) (s : State) : (s.faultedWith f p).ioFail = s.ioFail := rfl
@[simp] theorem State.faultedWith_host (f : ErrCode) (p : Phase) (s : State) : (s.faultedWith f p).host = s.host := rfl
@[simp] theorem State.faultedWith_lastRead (f : ErrCode) (p : Phase) (s : State) : (s.faultedWith f p).lastRead = s.lastRead := rfl
@[simp] theorem State.faultedWith_reads (f : ErrCode) (p : Phase) (s : State) : (s.faultedWith f p).reads = s.reads := rfl
@[simp] theorem State.faultedWith_mark (f : ErrCode) (p : Phase) (s : State) : (s.faultedWith f p).mark = true := rfl

/-! ## `setDone` -/

@[simp] theorem setDone_cfg (s : State) (b : Bool) : (setDone s b).cfg = s.cfg := rfl
@[simp] theorem setDone_freq (s : State) (b : Bool) : (setDone s b).freq = s.freq := rfl
@[simp] theorem setDone_freqValid (s : State) (b : Bool) : (setDone s b).freqValid = s.freqValid := rfl
@[simp] theorem setDone_tree (s : State) (b : Bool) : (setDone s b).tree = s.tree := rfl
@[simp] theorem setDone_treeSt (s : State) (b : Bool) : (setDone s b).treeSt = s.treeSt := rfl
@[simp] theorem setDone_code (s : State) (b : Bool) : (setDone s b).code = s.code := rfl
@[simp] theorem setDone_codeValid (s : State) (b : Bool) : (setDone s b).codeValid = s.codeValid := rfl
@[simp] theorem setDone_cur (s : State) (b : Bool) : (setDone s b).cur = s.cur := rfl
@[simp] theorem setDone_err (s : State) (b : Bool) : (setDone s b).err = s.err := rfl
@[simp] theorem setDone_phase (s : State) (b : Bool) : (setDone s b).phase = s.phase := rfl
@[simp] theorem setDone_done (s : State) (b : Bool) : (setDone s b).done = b := rfl
@[simp] theorem setDone_inp (s : State) (b : Bool) : (setDone s b).inp = s.inp := rfl
@[simp] theorem setDone_out (s : State) (b : Bool) : (setDone s b).out = s.out := rfl
@[simp] theorem setDone_scan (s : State) (b : Bool) : (setDone s b).scan = s.scan := rfl
@[simp] theorem setDone_ioFail (s : State) (b : Bool) : (setDone s b).ioFail = s.ioFail := rfl
@[simp] theorem setDone_host (s : State) (b : Bool) : (setDone s b).host = s.host := rfl
@[simp] theorem setDone_lastRead (s : State) (b : Bool) : (setDone s b).lastRead = s.lastRead := rfl
@[simp] theorem setDone_reads (s : State) (b : Bool) : (setDone s b).reads = s.reads := rfl
@[simp] theorem setDone_mark (s : State) (b : Bool) : (setDone s b).mark = s.mark := rfl

/-- Taking a fault is what the claims write out (R240). -/
theorem raiseFault_eq (f : ErrCode) (p : Phase) (s : State) : raiseFault f p s = s.faultedWith f p := rfl

end Sys2Proof.Machine
end

