-- ==== Sys2Proof/Laws/Ops.lean ====
section
/-! SUPPORT. What each shared operation can do, said once. -/

namespace Sys2Proof.Machine

/-! ## Bodies -/

/-- The state a piece of a body ends in, whether it goes on or raises. -/
def Res.state {α : Type} : Res α → State
  | .ok _ s => s
  | .raise _ _ s => s

@[simp] theorem Res.state_ok {α : Type} (a : α) (s : State) : (Res.ok a s).state = s := rfl

@[simp] theorem Res.state_raise {α : Type} (f : ErrCode) (p : Phase) (s : State) :
    (Res.raise f p s : Res α).state = s := rfl

@[simp] theorem Res.bind_ok {α β : Type} (a : α) (s : State) (k : α → State → Res β) :
    (Res.ok a s).bind k = k a s := rfl

@[simp] theorem Res.bind_raise {α β : Type} (f : ErrCode) (p : Phase) (s : State)
    (k : α → State → Res β) : (Res.raise f p s).bind k = .raise f p s := rfl

theorem Res.bind_assoc {α β γ : Type} (x : Res α) (k : α → State → Res β) (l : β → State → Res γ) :
    (x.bind k).bind l = x.bind fun a s => (k a s).bind l := by
  cases x <;> rfl

/-- A body that goes on to the end goes on in each of its pieces. -/
theorem Res.bind_eq_ok {α β : Type} {x : Res α} {k : α → State → Res β} {b : β} {t : State}
    (h : x.bind k = .ok b t) : ∃ a s, x = .ok a s ∧ k a s = .ok b t := by
  cases x with
  | ok a s => exact ⟨a, s, rfl, h⟩
  | raise f p s => cases h

/-- A body that raises does so in its first piece or after it. -/
theorem Res.bind_eq_raise {α β : Type} {x : Res α} {k : α → State → Res β} {f : ErrCode} {p : Phase}
    {t : State} (h : x.bind k = .raise f p t) :
    x = .raise f p t ∨ ∃ a s, x = .ok a s ∧ k a s = .raise f p t := by
  cases x with
  | ok a s => exact .inr ⟨a, s, rfl, h⟩
  | raise f' p' s =>
    rw [Res.bind_raise] at h
    injection h with h1 h2 h3
    exact .inl (by rw [h1, h2, h3])

/-- A relation between states that every piece keeps, a body keeps. -/
theorem Res.bind_keeps {α β : Type} {R : State → State → Prop}
    (trans : ∀ {a b c}, R a b → R b c → R a c) {s : State} {x : Res α} {k : α → State → Res β}
    (hx : R s x.state) (hk : ∀ a s', R s' (k a s').state) : R s (x.bind k).state := by
  cases x with
  | ok a s' => exact trans hx (hk a s')
  | raise f p s' => exact hx

/-- A relation that every round keeps, a loop keeps. -/
theorem loop_keeps {R : State → State → Prop} (refl : ∀ a, R a a)
    (trans : ∀ {a b c}, R a b → R b c → R a c) {body : State → Res Bool}
    (hb : ∀ s, R s (body s).state) (n : Nat) (s : State) : R s (loop body n s).state := by
  induction n generalizing s with
  | zero => exact refl s
  | succ n ih =>
    rw [loop]
    refine Res.bind_keeps (R := R) trans (hb s) fun more s' => ?_
    cases more
    · exact refl s'
    · exact ih s'

@[simp] theorem loop_succ (body : State → Res Bool) (n : Nat) (s : State) :
    loop body (n + 1) s =
      (body s).bind fun more s' => if more then loop body n s' else .ok () s' := rfl

/-- A round that goes on leaves less to read than it found: then more fuel than what is left to read is
enough, and any two such amounts give the same run (R283). -/
theorem loop_fuel {body : State → Res Bool}
    (hb : ∀ s s', body s = .ok true s' → s'.inp.remaining < s.inp.remaining) :
    ∀ (n m : Nat) (s : State), s.inp.remaining < n → s.inp.remaining < m →
      loop body n s = loop body m s := by
  intro n
  induction n with
  | zero => intro m s h; omega
  | succ n ih =>
    intro m s hn hm
    cases m with
    | zero => omega
    | succ m =>
      rw [loop_succ, loop_succ]
      cases h : body s with
      | raise f p s' => rfl
      | ok more s' =>
        cases more with
        | false => rfl
        | true =>
          have := hb s s' h
          simpa using ih m s' (by omega) (by omega)

/-! ## Accesses -/

/-- A collaborator that does not fail (R78). -/
@[simp] theorem access_ok {p : Phase} {s : State} (h : s.ioFail = []) : access p s = .ok () s := by
  unfold access; rw [h]

/-- An access either goes on, with only the plan of failures changed, or raises `IoError` in its phase
(R78). -/
theorem access_cases (p : Phase) (s : State) :
    (∃ l, access p s = .ok () { s with ioFail := l }) ∨
      ∃ l, s.ioFail = 0 :: l ∧ access p s = .raise .ioError p { s with ioFail := l } := by
  rcases h : s.ioFail with _ | ⟨_ | n, l⟩
  · exact .inl ⟨s.ioFail, access_ok h⟩
  · exact .inr ⟨l, rfl, by unfold access; rw [h]⟩
  · exact .inl ⟨n :: l, by unfold access; rw [h]⟩

theorem InStream.rest_length (i : InStream) : i.rest.length = i.remaining := by
  simp [InStream.rest, InStream.remaining]

theorem InStream.rest_advance (i : InStream) (n : Nat) :
    InStream.rest { i with pos := i.pos + n } = i.rest.drop n := by
  simp [InStream.rest]

theorem InStream.remaining_advance (i : InStream) (n : Nat) :
    InStream.remaining { i with pos := i.pos + n } = i.remaining - n := by
  simp [InStream.remaining]; omega

/-- `ReadBits(n)` where `n` bits are left (R63). -/
theorem readBits_some {p : Phase} {n : Nat} {s : State} (hio : s.ioFail = []) {b rest : Bits}
    (hr : s.inp.rest = b ++ rest) (hb : b.length = n) (hn : 0 < n) :
    readBits p n s = .ok (some (uint b)) (s.advance n) := by
  have hl := s.inp.rest_length
  rw [hr, List.length_append, hb] at hl
  have hle : s.inp.pos + n ≤ 8 * s.inp.data.length := by
    unfold InStream.remaining at hl; omega
  simp only [readBits, access_ok hio, Res.bind_ok, hle, if_true, hr, State.advance]
  rw [← hb, List.take_left]

/-- `ReadBits(1)` where a bit is left. -/
theorem readBits_one {p : Phase} {s : State} (hio : s.ioFail = []) {b : Bool} {rest : Bits}
    (hr : s.inp.rest = b :: rest) : readBits p 1 s = .ok (some b.toNat) (s.advance 1) := by
  have h := readBits_some (p := p) (n := 1) hio (b := [b]) hr rfl (by decide)
  rw [h]
  cases b <;> rfl

/-- What is left after moving on. -/
theorem State.advance_rest {s : State} {b rest : Bits} {n : Nat} (hr : s.inp.rest = b ++ rest)
    (hb : b.length = n) : (s.advance n).inp.rest = rest := by
  show InStream.rest { s.inp with pos := s.inp.pos + n } = _
  rw [InStream.rest_advance, hr, List.drop_left' hb]

/-- `ReadBits(n)` where fewer than `n` bits are left: `EOD`, and nothing moves (R64). -/
theorem readBits_eod {p : Phase} {n : Nat} {s : State} (hio : s.ioFail = [])
    (hn : s.inp.rest.length < n) : readBits p n s = .ok none s := by
  rw [InStream.rest_length] at hn
  unfold InStream.remaining at hn
  have hle : ¬ s.inp.pos + n ≤ 8 * s.inp.data.length := by omega
  simp [readBits, access_ok hio, hle]

/-- Everything `ReadBits(n)` can do. -/
theorem readBits_cases (p : Phase) (n : Nat) (s : State) :
    (∃ l, readBits p n s = .raise .ioError p { s with ioFail := l }) ∨
      (∃ l, readBits p n s = .ok none { s with ioFail := l }) ∨
        ∃ l, s.inp.pos + n ≤ 8 * s.inp.data.length ∧
          readBits p n s = .ok (some (uint (s.inp.rest.take n))) { s.advance n with ioFail := l } := by
  rcases access_cases p s with ⟨l, h⟩ | ⟨l, -, h⟩
  · by_cases hle : s.inp.pos + n ≤ 8 * s.inp.data.length
    · exact .inr (.inr ⟨l, hle, by simp [readBits, h, hle, State.advance]⟩)
    · exact .inr (.inl ⟨l, by simp [readBits, h, hle]⟩)
  · exact .inl ⟨l, by simp [readBits, h]⟩

/-- `WriteStr(b)` on an open output (R67). -/
theorem writeStr_ok {p : Phase} {b : Bits} {s : State} (hio : s.ioFail = [])
    (ho : s.out.closed = false) : writeStr p b s = .ok () (s.emit b) := by
  simp [writeStr, access_ok hio, OutStream.append, ho, State.emit]

/-- `WriteBits(n, v)` on an open output (R66). -/
theorem writeBits_ok {p : Phase} {n v : Nat} {s : State} (hio : s.ioFail = [])
    (ho : s.out.closed = false) : writeBits p n v s = .ok () (s.emit (bitsOf n v)) :=
  writeStr_ok hio ho

/-- Everything `WriteStr(b)` can do. -/
theorem writeStr_cases (p : Phase) (b : Bits) (s : State) :
    (∃ l, writeStr p b s = .raise .ioError p { s with ioFail := l }) ∨
      ∃ l, writeStr p b s = .ok () { s with ioFail := l, out := s.out.append b } := by
  rcases access_cases p s with ⟨l, h⟩ | ⟨l, -, h⟩
  · exact .inr ⟨l, by simp [writeStr, h]⟩
  · exact .inl ⟨l, by simp [writeStr, h]⟩

/-- `Rewind()` (R65). -/
theorem rewind_ok {p : Phase} {s : State} (hio : s.ioFail = []) :
    rewind p s = .ok () { s with inp := ⟨s.inp.data, 0⟩ } := by
  simp [rewind, access_ok hio]

/-- `Close()` (R68). -/
theorem close_ok {p : Phase} {s : State} (hio : s.ioFail = []) :
    close p s = .ok () { s with out := ⟨padToByte s.out.bits, true⟩ } := by
  simp [close, access_ok hio]

/-! ## Dispatch -/

/-- A refused write of `CMD` (R243). -/
theorem dispatch_faulted {pre : State → Bool} {body : State → Res Unit} {s : State}
    (h : s.err ≠ .none) : dispatch pre body s = .next (refuseCommand s) := by
  simp [dispatch, h, goOn]

/-- A failed precondition (R216). -/
theorem dispatch_illegal {pre : State → Bool} {body : State → Res Unit} {s : State}
    (he : s.err = .none) (hp : pre s = false) :
    dispatch pre body s = .next (s.faultedWith .illegalSequence .none) := by
  rw [dispatch, if_neg (by simp [he]), if_neg (by simp [hp])]; rfl

/-- A command that runs (R215). -/
theorem dispatch_runs {pre : State → Bool} {body : State → Res Unit} {s : State}
    (he : s.err = .none) (hp : pre s = true) :
    dispatch pre body s = complete (body (setDone s false)) := by
  rw [dispatch, if_neg (by simp [he]), if_pos hp]

/-- A command whose body reaches its end (R215). -/
theorem dispatch_ok {pre : State → Bool} {body : State → Res Unit} {s t : State}
    (he : s.err = .none) (hp : pre s = true) (hb : body (setDone s false) = .ok () t) :
    dispatch pre body s = .next (setDone t true) := by
  rw [dispatch_runs he hp, hb]; rfl

/-- A command whose body raises a fault (R240). -/
theorem dispatch_raise {pre : State → Bool} {body : State → Res Unit} {s t : State} {f : ErrCode}
    {p : Phase} (he : s.err = .none) (hp : pre s = true)
    (hb : body (setDone s false) = .raise f p t) :
    dispatch pre body s = .next (t.faultedWith f p) := by
  rw [dispatch_runs he hp, hb]; rfl

/-- Everything the dispatcher can do (R215). -/
theorem dispatch_cases (pre : State → Bool) (body : State → Res Unit) (s : State) :
    (s.err ≠ .none ∧ dispatch pre body s = .next (refuseCommand s)) ∨
      (s.err = .none ∧ pre s = false ∧
        dispatch pre body s = .next (s.faultedWith .illegalSequence .none)) ∨
      (s.err = .none ∧ pre s = true ∧
        ((∃ t, body (setDone s false) = .ok () t ∧
            dispatch pre body s = .next (setDone t true)) ∨
          ∃ f p t, body (setDone s false) = .raise f p t ∧
            dispatch pre body s = .next (t.faultedWith f p))) := by
  by_cases he : s.err = .none
  · cases hp : pre s with
    | false => exact .inr (.inl ⟨he, rfl, dispatch_illegal he hp⟩)
    | true =>
      refine .inr (.inr ⟨he, rfl, ?_⟩)
      cases hb : body (setDone s false) with
      | ok u t => exact .inl ⟨t, rfl, dispatch_ok he hp hb⟩
      | raise f p t => exact .inr ⟨f, p, t, rfl, dispatch_raise he hp hb⟩
  · exact .inl ⟨he, dispatch_faulted he⟩

/-- A token that goes on or ends its command. -/
theorem takeToken_ok {token : State → Res Bool} {s t : State} {more : Bool} (he : s.err = .none)
    (ht : token (setDone s false) = .ok more t) :
    takeToken token s = .next (setDone t !more) := by
  rw [takeToken, if_neg (by simp [he]), ht]; rfl

/-- A token that raises a fault. -/
theorem takeToken_raise {token : State → Res Bool} {s t : State} {f : ErrCode} {p : Phase}
    (he : s.err = .none) (ht : token (setDone s false) = .raise f p t) :
    takeToken token s = .next (t.faultedWith f p) := by
  rw [takeToken, if_neg (by simp [he]), ht]; rfl

/-- Everything taking a token can do. -/
theorem takeToken_cases (token : State → Res Bool) (s : State) :
    (s.err ≠ .none ∧ takeToken token s = .next (refuseCommand s)) ∨
      (s.err = .none ∧
        ((∃ more t, token (setDone s false) = .ok more t ∧
            takeToken token s = .next (setDone t !more)) ∨
          ∃ f p t, token (setDone s false) = .raise f p t ∧
            takeToken token s = .next (t.faultedWith f p))) := by
  by_cases he : s.err = .none
  · refine .inr ⟨he, ?_⟩
    cases ht : token (setDone s false) with
    | ok more t => exact .inl ⟨more, t, rfl, takeToken_ok he ht⟩
    | raise f p t => exact .inr ⟨f, p, t, rfl, takeToken_raise he ht⟩
  · exact .inl ⟨he, by simp [takeToken, he, goOn]⟩

end Sys2Proof.Machine
end

