-- ==== Sys2Proof/Laws/Faults.lean ====
section
/-! SUPPORT. The faults a piece of a body can raise, and in which phase: once for every shared operation. -/

namespace Sys2Proof.Machine

/-- The piece raises only these faults. -/
def Res.Raises {α : Type} (l : List (ErrCode × Phase)) (r : Res α) : Prop :=
  ∀ f p t, r = .raise f p t → (f, p) ∈ l

theorem Res.Raises.ok {α : Type} (l : List (ErrCode × Phase)) (a : α) (s : State) :
    (Res.ok a s).Raises l := by
  intro f p t h
  cases h

theorem Res.Raises.raise {α : Type} {l : List (ErrCode × Phase)} {f : ErrCode} {p : Phase} {s : State}
    (h : (f, p) ∈ l) : (Res.raise f p s : Res α).Raises l := by
  intro f' p' t h'
  cases h'
  exact h

theorem Res.Raises.mono {α : Type} {l l' : List (ErrCode × Phase)} {x : Res α} (h : x.Raises l)
    (hl : ∀ a ∈ l, a ∈ l') : x.Raises l' := fun f p t e => hl _ (h f p t e)

/-- Pieces in a row raise what one of them raises. -/
theorem Res.Raises.bind {α β : Type} {l : List (ErrCode × Phase)} {x : Res α}
    {k : α → State → Res β} (hx : x.Raises l) (hk : ∀ a s, (k a s).Raises l) :
    (x.bind k).Raises l := by
  intro f p t h
  rcases Res.bind_eq_raise h with h | ⟨a, s, -, h⟩
  · exact hx _ _ _ h
  · exact hk _ _ _ _ _ h

/-- A loop raises what its body raises. -/
theorem Res.Raises.loop {l : List (ErrCode × Phase)} {body : State → Res Bool}
    (hb : ∀ s, (body s).Raises l) (n : Nat) (s : State) : (loop body n s).Raises l := by
  induction n generalizing s with
  | zero => exact .ok l () s
  | succ n ih =>
    rw [loop_succ]
    refine .bind (hb s) fun more s' => ?_
    cases more
    · exact .ok l () s'
    · exact ih s'

/-! ## The accesses (R78) -/

theorem access_raises (p : Phase) (s : State) : (access p s).Raises [(.ioError, p)] := by
  rcases access_cases p s with ⟨l, h⟩ | ⟨l, -, h⟩ <;> rw [h]
  · exact .ok _ _ _
  · exact .raise (by simp)

theorem readBits_raises (p : Phase) (n : Nat) (s : State) : (readBits p n s).Raises [(.ioError, p)] := by
  refine .bind (access_raises p s) fun _ s => ?_
  split <;> exact .ok _ _ _

theorem writeStr_raises (p : Phase) (b : Bits) (s : State) : (writeStr p b s).Raises [(.ioError, p)] :=
  .bind (access_raises p s) fun _ _ => .ok _ _ _

theorem rewind_raises (p : Phase) (s : State) : (rewind p s).Raises [(.ioError, p)] :=
  .bind (access_raises p s) fun _ _ => .ok _ _ _

theorem close_raises (p : Phase) (s : State) : (close p s).Raises [(.ioError, p)] :=
  .bind (access_raises p s) fun _ _ => .ok _ _ _

/-- The next access is one that fails. -/
theorem access_fails {p : Phase} {s : State} {l : List Nat} (h : s.ioFail = 0 :: l) :
    access p s = .raise .ioError p { s with ioFail := l } := by
  unfold access
  rw [h]

end Sys2Proof.Machine
end

