-- ==== Sys2Proof/Laws/Fetch.lean ====
section
/-! SUPPORT. What a step fetches, case by case, and what the reading of a token gives. -/

namespace Sys2Proof.Machine

/-! ## Reading a token -/

/-- 32 bits are left (R171). -/
theorem fetchMagic_ok {s : State} (hio : s.ioFail = []) {b rest : Bits} (hr : s.inp.rest = b ++ rest)
    (hb : b.length = 32) : fetchMagic s = .ok (uint b) (s.advance 32) := by
  rw [fetchMagic, readBits_some hio hr hb (by decide)]; rfl

/-- Fewer than 32 bits are left (R172). -/
theorem fetchMagic_eod {s : State} (hio : s.ioFail = []) (hr : s.inp.rest.length < 32) :
    fetchMagic s = .raise .headerError .headerValidation s := by
  rw [fetchMagic, readBits_eod hio hr]; rfl

/-- The next token is `0` (R175). -/
theorem fetchHeader_int {s : State} (hio : s.ioFail = []) {rest : Bits}
    (hr : s.inp.rest = false :: rest) : fetchHeader s = .ok (0, 0) (s.advance 1) := by
  rw [fetchHeader, readBits_one hio hr]; rfl

/-- The next token is `1` and nine bits (R176). -/
theorem fetchHeader_leaf {s : State} (hio : s.ioFail = []) {b rest : Bits}
    (hr : s.inp.rest = true :: (b ++ rest)) (hb : b.length = 9) :
    fetchHeader s = .ok (1, uint b) (s.advance 10) := by
  have hr1 : (s.advance 1).inp.rest = b ++ rest := State.advance_rest (b := [true]) hr rfl
  have h1 := readBits_one (p := .treeParse) hio hr
  have h9 := readBits_some (p := .treeParse) (s := s.advance 1) hio hr1 hb (by decide)
  rw [fetchHeader, h1, Res.bind_ok]
  simp only [Bool.toNat_true, show fieldWidth 1 = 9 from rfl, h9]
  rfl

/-- No marker bit is left (R175). -/
theorem fetchHeader_eod {s : State} (hio : s.ioFail = []) (hr : s.inp.rest = []) :
    fetchHeader s = .raise .truncatedStreamError .treeParse s := by
  rw [fetchHeader, readBits_eod hio (by rw [hr]; decide)]; rfl

/-- The marker is `1` and fewer than nine bits are left (R176). -/
theorem fetchHeader_short {s : State} (hio : s.ioFail = []) {rest : Bits}
    (hr : s.inp.rest = true :: rest) (hl : rest.length < 9) :
    fetchHeader s = .raise .truncatedStreamError .treeParse (s.advance 1) := by
  have hr1 : (s.advance 1).inp.rest = rest := State.advance_rest (b := [true]) hr rfl
  have h1 := readBits_one (p := .treeParse) hio hr
  have h9 := readBits_eod (p := .treeParse) (n := 9) (s := s.advance 1) hio (by rw [hr1]; exact hl)
  rw [fetchHeader, h1, Res.bind_ok]
  simp only [Bool.toNat_true, show fieldWidth 1 = 9 from rfl, h9]
  rfl

/-- The next payload bit (R200). -/
theorem fetchPayload_ok {s : State} (hio : s.ioFail = []) {b : Bool} {rest : Bits}
    (hr : s.inp.rest = b :: rest) : fetchPayload s = .ok b.toNat (s.advance 1) := by
  rw [fetchPayload, readBits_one hio hr]; rfl

/-- No payload bit is left (R204). -/
theorem fetchPayload_eod {s : State} (hio : s.ioFail = []) (hr : s.inp.rest = []) :
    fetchPayload s = .raise .truncatedStreamError .payloadDecode s := by
  rw [fetchPayload, readBits_eod hio (by rw [hr]; decide)]; rfl

/-! ## What a step fetches -/

/-- The host acts between commands (R277). -/
theorem fetch_between {s : State} (h : BetweenCommands s) : fetch s = fetchHost s := by
  unfold fetch
  rcases h with h | ⟨h1, h2⟩
  · rw [if_pos h]
  · rw [h1, h2, ite_self]

/-- The 32 bits of a magic number. -/
theorem fetch_magic {s : State} (he : s.err = .none) (hs : s.scan = .magic) :
    fetch s = fetched Instr.magic (fetchMagic s) := by
  unfold fetch
  rw [if_neg (by simp [he]), hs]

/-- A header token. -/
theorem fetch_header {s : State} {st : List Frame} (he : s.err = .none) (hs : s.scan = .header st) :
    fetch s = fetched (fun mf => decodeHeader mf.1 mf.2) (fetchHeader s) := by
  unfold fetch
  rw [if_neg (by simp [he]), hs]

/-- A payload bit. -/
theorem fetch_payload {s : State} {p : Bits} (he : s.err = .none) (hs : s.scan = .idle)
    (hc : s.cur = some p) : fetch s = fetched decodePayload (fetchPayload s) := by
  unfold fetch
  rw [if_neg (by simp [he]), hs, hc]

/-- With no action left nothing changes (R270). -/
theorem step_idle {s : State} (h : BetweenCommands s) (hh : s.host = []) : step s = .next s := by
  unfold step
  rw [fetch_between h, fetchHost, hh]
  rfl

/-- The next action of the host. -/
theorem step_between {s : State} (h : BetweenCommands s) {a : HostAction} {rest : List HostAction}
    (hh : s.host = a :: rest) :
    step s = match hostAction a { s with host := rest } with
      | .run i s' => exec i s'
      | .stop o => o := by
  have e : fetch s = hostAction a { s with host := rest } := by rw [fetch_between h, fetchHost, hh]
  show (match fetch s with
    | .run i s' => exec i s'
    | .stop o => o) = _
  rw [e]

/-- A write of `CMD` runs the command of its low four bits (R33). -/
theorem step_command {s : State} (h : BetweenCommands s) {v : BitVec 16} {rest : List HostAction}
    (hh : s.host = .writeReg 0 v :: rest) :
    step s = exec (decodeCommand v.toNat) { s with host := rest } := by
  rw [step_between h hh]; rfl

/-- A token that was read runs at the state after it. -/
theorem step_of_run {s s' : State} {i : Instr} (h : fetch s = .run i s') : step s = exec i s' := by
  unfold step; rw [h]

/-- A token that could not be read is the fault of its reading. -/
theorem step_of_stop {s : State} {o : Host.Outcome State Fault Refusal} (h : fetch s = .stop o) :
    step s = o := by
  unfold step; rw [h]

end Sys2Proof.Machine
end

