-- ==== Sys2Proof/Laws/Frame.lean ====
section
/-! SUPPORT. What no body of a command touches, and how the streams may change: once for every operation
and body. -/

namespace Sys2Proof.Machine

/-- How writing changes `OUT`: bits are appended, it is not closed, and a closed output stays as it is
(R70, R37). -/
structure OutGrows (o o' : OutStream) : Prop where
  bits : o.bits <+: o'.bits
  closed : o'.closed = o.closed
  still : o.closed = true → o' = o

theorem OutGrows.refl (o : OutStream) : OutGrows o o := ⟨List.prefix_rfl, rfl, fun _ => rfl⟩

theorem OutGrows.trans {a b c : OutStream} (h : OutGrows a b) (k : OutGrows b c) : OutGrows a c :=
  ⟨h.bits.trans k.bits, k.closed.trans h.closed, fun hc => by
    have hb := h.still hc
    subst hb
    exact k.still hc⟩

/-- What every piece of a body keeps: the input's bytes, the parameters, the host's part, the fault and the
history mark; the output only grows. -/
structure Keeps (s t : State) : Prop where
  data : t.inp.data = s.inp.data
  out : OutGrows s.out t.out
  cfg : t.cfg = s.cfg
  host : t.host = s.host
  lastRead : t.lastRead = s.lastRead
  reads : t.reads = s.reads
  err : t.err = s.err
  phase : t.phase = s.phase
  done : t.done = s.done
  mark : t.mark = s.mark

theorem Keeps.refl (s : State) : Keeps s s := ⟨rfl, OutGrows.refl _, rfl, rfl, rfl, rfl, rfl, rfl, rfl, rfl⟩

theorem Keeps.trans {a b c : State} (h : Keeps a b) (k : Keeps b c) : Keeps a c :=
  ⟨k.data.trans h.data, h.out.trans k.out, k.cfg.trans h.cfg, k.host.trans h.host,
    k.lastRead.trans h.lastRead, k.reads.trans h.reads, k.err.trans h.err, k.phase.trans h.phase,
    k.done.trans h.done, k.mark.trans h.mark⟩

/-- An update of the fields that no stream, parameter or host field is among. -/
theorem Keeps.tables (s : State) (f : Vector Nat nsym) (fv : Bool) (t : Tree) (ts : TreeSt)
    (c : Vector (Option Bits) nsym) (cv : Bool) (cur : Option Bits) (sc : Scan) (l : List Nat)
    (p : Nat) :
    Keeps s { s with freq := f, freqValid := fv, tree := t, treeSt := ts, code := c, codeValid := cv,
                     cur := cur, scan := sc, ioFail := l, inp := ⟨s.inp.data, p⟩ } :=
  ⟨rfl, OutGrows.refl _, rfl, rfl, rfl, rfl, rfl, rfl, rfl, rfl⟩

theorem OutStream.append_grows (o : OutStream) (b : Bits) : OutGrows o (o.append b) := by
  unfold OutStream.append
  split
  · exact OutGrows.refl o
  · rename_i h
    exact ⟨List.prefix_append _ _, rfl, fun hc => absurd hc h⟩

/-- Pieces in a row keep what each keeps. -/
theorem bind_keeps {α β : Type} {s : State} {x : Res α} {k : α → State → Res β}
    (hx : Keeps s x.state) (hk : ∀ a s', Keeps s' (k a s').state) : Keeps s (x.bind k).state :=
  Res.bind_keeps (R := Keeps) Keeps.trans hx hk

theorem access_keeps (p : Phase) (s : State) : Keeps s (access p s).state := by
  rcases access_cases p s with ⟨l, h⟩ | ⟨l, -, h⟩ <;> rw [h] <;> exact Keeps.tables s ..

theorem readBits_keeps (p : Phase) (n : Nat) (s : State) : Keeps s (readBits p n s).state := by
  rcases readBits_cases p n s with ⟨l, h⟩ | ⟨l, h⟩ | ⟨l, -, h⟩ <;> rw [h] <;> exact Keeps.tables s ..

theorem writeStr_keeps (p : Phase) (b : Bits) (s : State) : Keeps s (writeStr p b s).state := by
  rcases writeStr_cases p b s with ⟨l, h⟩ | ⟨l, h⟩ <;> rw [h]
  · exact Keeps.tables s ..
  · exact ⟨rfl, s.out.append_grows b, rfl, rfl, rfl, rfl, rfl, rfl, rfl, rfl⟩

theorem writeBits_keeps (p : Phase) (n v : Nat) (s : State) : Keeps s (writeBits p n v s).state :=
  writeStr_keeps p _ s

theorem rewind_keeps (p : Phase) (s : State) : Keeps s (rewind p s).state :=
  bind_keeps (access_keeps p s) fun _ s' => Keeps.tables s' ..

theorem loop_keeps_frame {body : State → Res Bool} (hb : ∀ s, Keeps s (body s).state) (n : Nat)
    (s : State) : Keeps s (loop body n s).state :=
  loop_keeps (R := Keeps) Keeps.refl Keeps.trans hb n s

/-! ## The bodies -/

theorem countWord_keeps (w : Nat) (s : State) : Keeps s (countWord w s).state := by
  unfold countWord
  split
  · exact Keeps.tables s ..
  · exact Keeps.refl s

theorem cntRound_keeps (s : State) : Keeps s (cntRound s).state := by
  refine bind_keeps (readBits_keeps _ _ s) fun r s' => ?_
  cases r
  · exact Keeps.refl s'
  · exact bind_keeps (countWord_keeps _ s') fun _ t => Keeps.refl t

theorem countEof_keeps (s : State) : Keeps s (countEof s).state := by
  unfold countEof
  split
  · exact Keeps.tables s ..
  · exact Keeps.refl s

theorem cntBody_keeps (s : State) : Keeps s (cntBody s).state := by
  have h0 : Keeps s (startCount s) := Keeps.tables s ..
  exact bind_keeps (h0.trans (loop_keeps_frame cntRound_keeps _ _)) fun _ t => countEof_keeps t

theorem bldBody_keeps (s : State) : Keeps s (bldBody s).state := by
  unfold bldBody
  split
  · exact Keeps.tables s ..
  · exact Keeps.refl s

theorem genBody_keeps (s : State) : Keeps s (genBody s).state := Keeps.tables s ..

theorem wmgBody_keeps (s : State) : Keeps s (wmgBody s).state := writeBits_keeps _ _ _ s

theorem fetchMagic_keeps (s : State) : Keeps s (fetchMagic s).state := by
  refine bind_keeps (readBits_keeps _ _ s) fun r s' => ?_
  cases r <;> exact Keeps.refl s'

theorem magicToken_keeps (m : Nat) (s : State) : Keeps s (magicToken m s).state := by
  unfold magicToken
  split
  · exact Keeps.tables s ..
  · exact Keeps.refl s

theorem rmgBody_keeps (s : State) : Keeps s (rmgBody s).state :=
  bind_keeps (fetchMagic_keeps s) fun m s' =>
    bind_keeps (magicToken_keeps m s') fun _ t => Keeps.refl t

theorem putTree_keeps (t : Tree) (s : State) : Keeps s (putTree t s).state := by
  induction t generalizing s with
  | leaf sym w => exact bind_keeps (writeBits_keeps _ _ _ s) fun _ s' => writeBits_keeps _ _ _ s'
  | node l r w ihl ihr =>
    exact bind_keeps (writeBits_keeps _ _ _ s) fun _ s' => bind_keeps (ihl s') fun _ t => ihr t

theorem serBody_keeps (s : State) : Keeps s (serBody s).state := putTree_keeps _ s

theorem inParse_keeps (s : State) : Keeps s (inParse s) := by
  unfold inParse
  split
  · exact Keeps.refl s
  · exact Keeps.tables s ..
  · exact Keeps.tables s ..

theorem hdrIntToken_keeps (s : State) : Keeps s (hdrIntToken s).state := by
  unfold hdrIntToken noRoom
  split
  · exact (inParse_keeps s).trans (Keeps.tables _ ..)
  · exact inParse_keeps s

theorem hdrLeafToken_keeps (sym : Nat) (s : State) : Keeps s (hdrLeafToken sym s).state := by
  unfold hdrLeafToken noRoom
  split
  · split <;> exact (inParse_keeps s).trans (Keeps.tables _ ..)
  · exact inParse_keeps s

theorem fetchHeader_keeps (s : State) : Keeps s (fetchHeader s).state := by
  refine bind_keeps (readBits_keeps _ _ s) fun r s' => ?_
  cases r with
  | none => exact Keeps.refl s'
  | some m =>
    dsimp only
    split
    · exact Keeps.refl s'
    · refine bind_keeps (readBits_keeps _ _ s') fun r t => ?_
      cases r <;> exact Keeps.refl t

theorem desRound_keeps (s : State) : Keeps s (desRound s).state := by
  refine bind_keeps (fetchHeader_keeps s) fun mf s' => ?_
  split
  · exact hdrIntToken_keeps s'
  · exact hdrLeafToken_keeps _ s'

theorem desBody_keeps (s : State) : Keeps s (desBody s).state := by
  have h0 : Keeps s (beginParse s) := Keeps.tables s ..
  exact h0.trans (loop_keeps_frame desRound_keeps _ _)

theorem writeCode_keeps (sym : Nat) (s : State) : Keeps s (writeCode sym s).state := by
  unfold writeCode
  split
  · exact Keeps.refl s
  · exact writeStr_keeps _ _ s

theorem encRound_keeps (s : State) : Keeps s (encRound s).state := by
  refine bind_keeps (readBits_keeps _ _ s) fun r s' => ?_
  cases r
  · exact Keeps.refl s'
  · exact bind_keeps (writeCode_keeps _ s') fun _ t => Keeps.refl t

theorem encBody_keeps (s : State) : Keeps s (encBody s).state :=
  bind_keeps (rewind_keeps _ s) fun _ s1 =>
    bind_keeps (loop_keeps_frame encRound_keeps _ s1) fun _ s2 =>
      bind_keeps (writeCode_keeps _ s2) fun _ s3 => Keeps.tables s3 ..

theorem payMove_keeps (b : Bool) (path : Bits) (s : State) : Keeps s (payMove b path s).state := by
  unfold payMove
  split
  · split
    · exact Keeps.tables s ..
    · split
      · exact Keeps.tables s ..
      · exact bind_keeps (writeBits_keeps _ _ _ s) fun _ t => Keeps.tables t ..
  · exact Keeps.refl s
  · exact Keeps.refl s

theorem payToken_keeps (b : Bool) (s : State) : Keeps s (payToken b s).state := by
  unfold payToken
  split
  · exact payMove_keeps b _ s
  · split
    · exact (Keeps.tables s ..).trans (payMove_keeps b _ _)
    · exact Keeps.refl s

theorem fetchPayload_keeps (s : State) : Keeps s (fetchPayload s).state := by
  refine bind_keeps (readBits_keeps _ _ s) fun r s' => ?_
  cases r <;> exact Keeps.refl s'

theorem decRound_keeps (s : State) : Keeps s (decRound s).state :=
  bind_keeps (fetchPayload_keeps s) fun _ s' => payToken_keeps _ s'

theorem decBody_keeps (s : State) : Keeps s (decBody s).state := by
  have h0 : Keeps s { s with cur := some [] } := Keeps.tables s ..
  exact h0.trans (loop_keeps_frame decRound_keeps _ _)

/-- Closing an output that is not closed appends to it and closes it (R68); a failing `Close` leaves it. -/
theorem finBody_cases (p : Phase) (s : State) :
    (∃ l, finBody p s = .ok () { s with ioFail := l, out := ⟨padToByte s.out.bits, true⟩ }) ∨
      ∃ l, finBody p s = .raise .ioError p { s with ioFail := l } := by
  rcases access_cases p s with ⟨l, h⟩ | ⟨l, -, h⟩
  · exact .inl ⟨l, by simp [finBody, close, h]⟩
  · exact .inr ⟨l, by simp [finBody, close, h]⟩

theorem discardAll_keeps (s : State) : Keeps s (discardAll s) := Keeps.tables s ..

end Sys2Proof.Machine
end

