-- ==== Sys2Proof/Laws/Memory.lean ====
section
/-! SUPPORT. The two streams keep their form under every operation on them (10_state.md R36, R37). -/

namespace Sys2Proof.Machine

/-- The form of the streams, as a proposition. -/
theorem Memory.wf_iff (s : State) : Memory.wf s = true ↔
    s.inp.pos ≤ 8 * s.inp.data.length ∧ (s.out.closed = true → s.out.bits.length % 8 = 0) := by
  unfold Memory.wf
  cases s.out.closed <;> simp

/-- Only the streams matter. -/
theorem Memory.wf_of_streams {s t : State} (hi : t.inp = s.inp) (ho : t.out = s.out) :
    Memory.wf t = Memory.wf s := by
  unfold Memory.wf; rw [hi, ho]

theorem Memory.wf_reset : Memory.wf State.reset = true := by decide

theorem Memory.wf_attachInput {s : State} (bytes : List Byte) (h : Memory.wf s = true) :
    Memory.wf (attachInput bytes s) = true := by
  rw [Memory.wf_iff] at h ⊢
  exact ⟨Nat.zero_le _, h.2⟩

theorem Memory.wf_attachOutput {s : State} (h : Memory.wf s = true) :
    Memory.wf (attachOutput s) = true := by
  rw [Memory.wf_iff] at h ⊢
  exact ⟨h.1, fun hc => by cases hc⟩

theorem Memory.wf_access (p : Phase) {s : State} (h : Memory.wf s = true) :
    Memory.wf (access p s).state = true := by
  rcases access_cases p s with ⟨l, e⟩ | ⟨l, -, e⟩ <;> rw [e] <;> exact h

theorem Memory.wf_readBits (p : Phase) (n : Nat) {s : State} (h : Memory.wf s = true) :
    Memory.wf (readBits p n s).state = true := by
  rcases readBits_cases p n s with ⟨l, e⟩ | ⟨l, e⟩ | ⟨l, hl, e⟩ <;> rw [e]
  · exact h
  · exact h
  · rw [Memory.wf_iff] at h ⊢
    exact ⟨hl, h.2⟩

theorem Memory.wf_rewind (p : Phase) {s : State} (h : Memory.wf s = true) :
    Memory.wf (rewind p s).state = true := by
  refine Res.bind_keeps (R := fun a b => Memory.wf a = true → Memory.wf b = true)
    (fun f g x => g (f x)) (Memory.wf_access p) (fun _ s' h' => ?_) h
  rw [Memory.wf_iff] at h' ⊢
  exact ⟨Nat.zero_le _, h'.2⟩

theorem Memory.wf_writeStr (p : Phase) (b : Bits) {s : State} (h : Memory.wf s = true) :
    Memory.wf (writeStr p b s).state = true := by
  rcases writeStr_cases p b s with ⟨l, e⟩ | ⟨l, e⟩ <;> rw [e]
  · exact h
  · rw [Memory.wf_iff] at h ⊢
    refine ⟨h.1, fun hc => ?_⟩
    have hg := s.out.append_grows b
    have hs : s.out.closed = true := hg.closed ▸ hc
    show (s.out.append b).bits.length % 8 = 0
    rw [hg.still hs]
    exact h.2 hs

theorem Memory.wf_writeBits (p : Phase) (n v : Nat) {s : State} (h : Memory.wf s = true) :
    Memory.wf (writeBits p n v s).state = true := Memory.wf_writeStr p _ h

theorem Memory.wf_close (p : Phase) {s : State} (h : Memory.wf s = true) :
    Memory.wf (close p s).state = true := by
  refine Res.bind_keeps (R := fun a b => Memory.wf a = true → Memory.wf b = true)
    (fun f g x => g (f x)) (Memory.wf_access p) (fun _ s' h' => ?_) h
  rw [Memory.wf_iff] at h' ⊢
  exact ⟨h'.1, fun _ => padToByte_length_mod _⟩

/-- A piece of a body that writes no tables' streams itself keeps the form where its pieces do. -/
theorem Memory.wf_bind {α β : Type} {s : State} {x : Res α} {k : α → State → Res β}
    (hx : Memory.wf s = true → Memory.wf x.state = true)
    (hk : ∀ a s', Memory.wf s' = true → Memory.wf (k a s').state = true) :
    Memory.wf s = true → Memory.wf (x.bind k).state = true :=
  Res.bind_keeps (R := fun a b => Memory.wf a = true → Memory.wf b = true)
    (fun f g y => g (f y)) hx hk

theorem Memory.wf_loop {body : State → Res Bool}
    (hb : ∀ s, Memory.wf s = true → Memory.wf (body s).state = true) (n : Nat) (s : State) :
    Memory.wf s = true → Memory.wf (loop body n s).state = true :=
  loop_keeps (R := fun a b => Memory.wf a = true → Memory.wf b = true)
    (fun _ h => h) (fun f g y => g (f y)) hb n s

/-- Placing an instruction for the next step keeps the form of the input. -/
theorem InStream.place_wf (b : Bits) (i : InStream) (h : i.pos ≤ 8 * i.data.length) :
    (i.place b).pos ≤ 8 * (i.place b).data.length := by
  have hm := padToByte_length_mod
    ((bitsOfBytes i.data).take i.pos ++ b ++ (bitsOfBytes i.data).drop (i.pos + b.length))
  have hl := congrArg List.length (bitsOfBytes_bytesOfBits hm)
  rw [bitsOfBytes_length] at hl
  show i.pos ≤ 8 * (bytesOfBits _).length
  rw [hl]
  simp only [padToByte, List.length_append, List.length_take, List.length_replicate, List.length_drop,
    bitsOfBytes_length]
  omega

theorem Memory.wf_withFetchWord {s : State} (nbits w : Nat) (h : Memory.wf s = true) :
    Memory.wf (s.withFetchWord nbits w) = true := by
  rw [Memory.wf_iff] at h
  unfold State.withFetchWord placeWord
  split
  all_goals
    rw [Memory.wf_iff]
    exact ⟨by first | exact h.1 | exact InStream.place_wf _ _ h.1, h.2⟩

end Sys2Proof.Machine
end

