-- ==== Sys2Proof/Laws/PerInstr.lean ====
section
/-! SUPPORT. Statements for all instructions, one lemma per constructor: every well-formed instruction is
read back from its encoding, whatever bits follow it. -/

namespace Sys2Proof.Laws.ReadBack

/-- Decoding the bits of a well-formed instruction gives it back and leaves what follows. -/
def Statement (i : Instr) : Prop :=
  i.wf = true → ∀ rest : Bits, decode i.space (encode i ++ rest) = .ok (i, rest)

theorem reserved0 : Statement .reserved0 := fun _ => decode_encode_command rfl (by decide) rfl
theorem cnt : Statement .cnt := fun _ => decode_encode_command rfl (by decide) rfl
theorem bld : Statement .bld := fun _ => decode_encode_command rfl (by decide) rfl
theorem gen : Statement .gen := fun _ => decode_encode_command rfl (by decide) rfl
theorem wmg : Statement .wmg := fun _ => decode_encode_command rfl (by decide) rfl
theorem ser : Statement .ser := fun _ => decode_encode_command rfl (by decide) rfl
theorem enc : Statement .enc := fun _ => decode_encode_command rfl (by decide) rfl
theorem fin : Statement .fin := fun _ => decode_encode_command rfl (by decide) rfl
theorem rmg : Statement .rmg := fun _ => decode_encode_command rfl (by decide) rfl
theorem des : Statement .des := fun _ => decode_encode_command rfl (by decide) rfl
theorem dec : Statement .dec := fun _ => decode_encode_command rfl (by decide) rfl
theorem cmp : Statement .cmp := fun _ => decode_encode_command rfl (by decide) rfl
theorem dcmp : Statement .dcmp := fun _ => decode_encode_command rfl (by decide) rfl
theorem reserved13 : Statement .reserved13 := fun _ => decode_encode_command rfl (by decide) rfl
theorem reserved14 : Statement .reserved14 := fun _ => decode_encode_command rfl (by decide) rfl
theorem clr : Statement .clr := fun _ => decode_encode_command rfl (by decide) rfl

theorem magic (m : Nat) : Statement (.magic m) := by
  intro h rest
  have h : m < 2 ^ magicW := by simpa [Instr.wf] using h
  show decode .magic (bitsOf magicW m ++ rest) = _
  rw [decode_magic (bitsOf_length _ _), uint_bitsOf_of_lt h]

theorem hdrInt : Statement .hdrInt := fun _ rest => decode_header_int rest

theorem hdrLeaf (sym : Nat) : Statement (.hdrLeaf sym) := by
  intro h rest
  have h : sym < 2 ^ symFieldW := by simpa [Instr.wf] using h
  show decode .header (encode (.hdrLeaf sym) ++ rest) = _
  rw [encode_hdrLeaf h, List.cons_append, decode_header_leaf (bitsOf_length _ _), uint_bitsOf_of_lt h]

theorem payL : Statement .payL := fun _ rest => decode_payload false rest
theorem payR : Statement .payR := fun _ rest => decode_payload true rest

end Sys2Proof.Laws.ReadBack
end

