-- ==== Sys2Proof/Laws/Run.lean ====
section
/-! SUPPORT. What the definitions of a run say, case by case, and how the steps of a run follow its
events. -/

namespace Sys2Proof.Machine

@[simp] theorem runEvents_nil (s : State) : runEvents [] s = some [] := rfl

/-- The events of a run that begins with an action whose step goes on. -/
theorem runEvents_cons {a : HostAction} {as : List HostAction} {s t : State}
    (h : step { s with host := a :: as } = .next t) :
    runEvents (a :: as) s = (runEvents as t).map fun es => ⟨a, s, t⟩ :: es := by
  rw [runEvents, h]

/-- The first event of a run that ends, and the rest of it. -/
theorem runEvents_cons_eq_some {a : HostAction} {as : List HostAction} {s : State}
    {es : List RunEvent} (h : runEvents (a :: as) s = some es) :
    ∃ t es', step { s with host := a :: as } = .next t ∧ runEvents as t = some es' ∧
      es = ⟨a, s, t⟩ :: es' := by
  rw [runEvents] at h
  split at h
  · rename_i t ht
    obtain ⟨es', h1, h2⟩ := Option.map_eq_some_iff.1 h
    exact ⟨t, es', ht, h1, h2.symm⟩
  · cases h
  · cases h

@[simp] theorem HostAction.command_writeCmd (v : BitVec 16) :
    (HostAction.writeReg 0 v).command = some (decodeCommand v.toNat) := rfl

@[simp] theorem HostAction.command_attachIn (bs : List Byte) : (attachIn bs).command = none := rfl

@[simp] theorem HostAction.command_attachOut : attachOut.command = none := rfl

@[simp] theorem HostAction.command_readReg (n : Nat) : (readReg n).command = none := rfl

@[simp] theorem HostAction.command_readOut : readOut.command = none := rfl

@[simp] theorem HostAction.command_reset : reset.command = none := rfl

/-- `CLR` completes in every state (R222). -/
theorem clr_completes (s : State) : commandCompleted .clr s (clearFault s) = true := by
  simp [commandCompleted, clearFault]

/-- An action that is no command is no matter of success. -/
theorem RunEvent.completed_of_no_command {e : RunEvent} (h : e.action.command = none) :
    e.completed = true := by
  unfold RunEvent.completed; rw [h]

/-- Every command of an operation that succeeded completed. -/
theorem Operation.completed_of_succeeded {o : Operation} (h : o.succeeded = true) {e : RunEvent}
    (he : e ∈ o.commands) : e.completed = true := by
  unfold Operation.succeeded at h
  simp only [Bool.and_eq_true, List.all_eq_true] at h
  exact h.1.2 e he

/-- Where what is left without a `FIN` counts as no failure, it is `CLR` alone. -/
theorem isClear_of_unended_succeeded {pending : List RunEvent}
    (h : (unended pending).all Operation.succeeded = true) {e : RunEvent} (he : e ∈ pending) :
    e.isClear = true := by
  unfold unended at h
  split at h
  · rename_i hc
    exact List.all_eq_true.1 hc e he
  · simp [Operation.succeeded] at h

end Sys2Proof.Machine
end

