-- ==== Sys2Proof/Laws/Tables.lean ====
section
/-! SUPPORT. The entries of the two tables after a write, and the least entry of the priority structure. -/

namespace Sys2Proof.Machine

/-! ## Tables -/

theorem freqAt_setFreq {f : Vector Nat nsym} {i n : Nat} (j : Nat) (hi : i < nsym) :
    freqAt (setFreq f i n) j = if i = j then n else freqAt f j := by
  unfold freqAt setFreq
  rw [Vector.getElem?_setIfInBounds]
  by_cases h : i = j
  · subst h
    simp [hi]
  · simp [h]

@[simp] theorem freqAt_replicate (i : Nat) : freqAt (Vector.replicate nsym 0) i = 0 := by
  simp only [freqAt, Vector.getElem?_replicate]
  split <;> rfl

theorem codeAt_setCode {t : Vector (Option Bits) nsym} {i : Nat} {s : Bits} (j : Nat) (hi : i < nsym) :
    codeAt (setCode t i s) j = if i = j then some s else codeAt t j := by
  unfold codeAt setCode
  rw [Vector.getElem?_setIfInBounds]
  by_cases h : i = j
  · subst h
    simp [hi]
  · simp [h]

@[simp] theorem codeAt_replicate (i : Nat) : codeAt (Vector.replicate nsym none) i = none := by
  simp only [codeAt, Vector.getElem?_replicate]
  split <;> rfl

/-- There are no entries past 256. -/
theorem codeAt_past (c : Vector (Option Bits) nsym) {i : Nat} (h : 256 < i) : codeAt c i = none := by
  unfold codeAt
  rw [Vector.getElem?_eq_none (by unfold nsym; omega)]
  rfl

/-! ## The limits -/

theorem fitsCount_iff (c : Config) (n : Nat) :
    fitsCount c n = true ↔ ∀ w, c.cntW = some w → n ≤ 2 ^ w - 1 := by
  unfold fitsCount
  cases c.cntW <;> simp

theorem fitsNodes_iff (c : Config) (n : Nat) :
    fitsNodes c n = true ↔ ∀ k, c.nodeCap = some k → n ≤ k := by
  unfold fitsNodes
  cases c.nodeCap <;> simp

/-! ## Words -/

theorem InStream.words_nil {i : InStream} (h : i.remaining < 8) : i.words = [] := by
  unfold InStream.words
  rw [Nat.div_eq_of_lt h]
  rfl

theorem InStream.words_lt {i : InStream} : ∀ w ∈ i.words, w < 256 := by
  intro w hw
  unfold InStream.words at hw
  obtain ⟨k, -, rfl⟩ := List.mem_map.1 hw
  refine lt_of_lt_of_le (uint_lt _) ?_
  show 2 ^ _ ≤ 2 ^ 8
  exact Nat.pow_le_pow_right (by omega) (by simp)

/-! ## The priority structure -/

/-- The order of R141, as a proposition. -/
theorem Entry.before_iff (a b : Entry) :
    a.before b = true ↔ a.weight < b.weight ∨ (a.weight = b.weight ∧ a.seq < b.seq) := by
  unfold Entry.before
  simp

/-- The least entry taken out and the others are the entries there were. -/
theorem extractMin_perm (x : Entry) (xs : List Entry) :
    (x :: xs).Perm ((extractMin x xs).1 :: (extractMin x xs).2) := by
  induction xs generalizing x with
  | nil => exact List.Perm.refl _
  | cons y ys ih =>
    unfold extractMin
    split
    · exact ((List.Perm.swap y x ys).trans ((ih x).cons y)).trans (List.Perm.swap _ _ _)
    · exact ((ih y).cons x).trans (List.Perm.swap _ _ _)

/-- Nothing goes before the entry taken out (R141). -/
theorem extractMin_least (x : Entry) (xs : List Entry) :
    ∀ y ∈ x :: xs, (extractMin x xs).1.weight < y.weight ∨
      ((extractMin x xs).1.weight = y.weight ∧ (extractMin x xs).1.seq ≤ y.seq) := by
  induction xs generalizing x with
  | nil =>
    intro y hy
    obtain rfl := List.mem_singleton.1 hy
    exact .inr ⟨rfl, le_refl _⟩
  | cons y ys ih =>
    intro z hz
    unfold extractMin
    split
    · rename_i hb
      rw [Entry.before_iff] at hb
      rcases List.mem_cons.1 hz with rfl | hz
      · exact ih z z (by simp)
      rcases List.mem_cons.1 hz with rfl | hz
      · have := ih x x (by simp)
        dsimp only
        omega
      · exact ih x z (by simp [hz])
    · rename_i hb
      rw [Entry.before_iff] at hb
      rcases List.mem_cons.1 hz with rfl | hz
      · have := ih y y (by simp)
        dsimp only
        omega
      · exact ih y z hz

/-- A least entry is the only one. -/
theorem IsLeast.unique {es : List Entry} {a b : Entry} (ha : Machine.IsLeast a es)
    (hb : Machine.IsLeast b es) : a = b := by
  rcases ha.2 b hb.1 with h | h
  · exact h.symm
  · rcases hb.2 a ha.1 with h' | h'
    · exact h'
    · omega

end Sys2Proof.Machine
end

