-- ==== Sys2Proof/Laws/Trees.lean ====
section
/-! SUPPORT. Trees, their paths and leaves, and the stack of nodes begun. -/

namespace Sys2Proof.Machine

theorem Tree.nodes_leaves (t : Tree) : t.nodes + 1 = 2 * t.leaves.length := by
  induction t with
  | leaf => rfl
  | node l r w ihl ihr =>
    simp only [Tree.nodes, Tree.leaves, List.length_append]
    omega

@[simp] theorem Tree.unweighted_nodes (t : Tree) : t.unweighted.nodes = t.nodes := by
  induction t with
  | leaf => rfl
  | node l r w ihl ihr => simp [Tree.unweighted, Tree.nodes, ihl, ihr]

@[simp] theorem Tree.unweighted_serBits (t : Tree) : t.unweighted.serBits = t.serBits := by
  induction t with
  | leaf => rfl
  | node l r w ihl ihr => simp [Tree.unweighted, Tree.serBits, ihl, ihr]

@[simp] theorem Tree.unweighted_unweighted (t : Tree) : t.unweighted.unweighted = t.unweighted := by
  induction t with
  | leaf => rfl
  | node l r w ihl ihr => simp [Tree.unweighted, ihl, ihr]

/-! ## Paths -/

theorem Tree.nodeAt_append (t : Tree) (p q : Bits) :
    t.nodeAt (p ++ q) = (t.nodeAt p).bind fun n => n.nodeAt q := by
  induction p generalizing t with
  | nil => cases t <;> rfl
  | cons b p ih =>
    cases t with
    | leaf => rfl
    | node l r w => cases b <;> exact ih _

theorem Tree.not_hasLeaf_nil {l r : Tree} {w : Option Nat} {s : Sym} :
    ¬ (Tree.node l r w).HasLeaf [] s := by
  rintro ⟨w', h⟩
  simp [Tree.nodeAt] at h

theorem Tree.hasLeaf_cons {l r : Tree} {w : Option Nat} {b : Bool} {p : Bits} {s : Sym} :
    (Tree.node l r w).HasLeaf (b :: p) s ↔ (if b then r else l).HasLeaf p s := by
  unfold Tree.HasLeaf
  cases b <;> rfl

theorem Tree.hasLeaf_leaf {x : Sym} {w : Option Nat} {p : Bits} {s : Sym} :
    (Tree.leaf x w).HasLeaf p s ↔ p = [] ∧ x = s := by
  constructor
  · rintro ⟨w', h⟩
    cases p with
    | nil => exact ⟨rfl, by simpa using (by simpa [Tree.nodeAt] using h : x = s ∧ w = w').1⟩
    | cons => cases h
  · rintro ⟨rfl, rfl⟩
    exact ⟨w, rfl⟩

/-- A path to a leaf is shorter than the number of leaves. -/
theorem Tree.hasLeaf_length {t : Tree} {p : Bits} {s : Sym} (h : t.HasLeaf p s) :
    p.length + 1 ≤ t.leaves.length := by
  induction t generalizing p with
  | leaf x w =>
    obtain ⟨rfl, rfl⟩ := Tree.hasLeaf_leaf.1 h
    simp [Tree.leaves]
  | node l r w ihl ihr =>
    have hl := l.nodes_leaves
    have hr := r.nodes_leaves
    cases p with
    | nil => exact absurd h Tree.not_hasLeaf_nil
    | cons b p =>
      rw [Tree.hasLeaf_cons] at h
      simp only [List.length_cons, Tree.leaves, List.length_append]
      cases b
      · have := ihl h
        omega
      · have := ihr h
        omega

theorem Tree.mem_symbols {t : Tree} {s : Sym} : s ∈ t.symbols ↔ ∃ p, t.HasLeaf p s := by
  induction t with
  | leaf x w =>
    simp only [Tree.symbols, Tree.leaves, List.map_cons, List.map_nil, List.mem_singleton]
    refine ⟨fun h => ⟨[], Tree.hasLeaf_leaf.2 ⟨rfl, h.symm⟩⟩, fun ⟨p, h⟩ => ?_⟩
    exact (Tree.hasLeaf_leaf.1 h).2.symm
  | node l r w ihl ihr =>
    have hs : (Tree.node l r w).symbols = l.symbols ++ r.symbols := by simp [Tree.symbols, Tree.leaves]
    rw [hs, List.mem_append, ihl, ihr]
    constructor
    · rintro (⟨p, h⟩ | ⟨p, h⟩)
      · exact ⟨false :: p, Tree.hasLeaf_cons.2 h⟩
      · exact ⟨true :: p, Tree.hasLeaf_cons.2 h⟩
    · rintro ⟨p, h⟩
      cases p with
      | nil => exact absurd h Tree.not_hasLeaf_nil
      | cons b p =>
        rw [Tree.hasLeaf_cons] at h
        cases b
        · exact .inl ⟨p, h⟩
        · exact .inr ⟨p, h⟩

/-! ## The stack of a parse -/

/-- A subtree that completes the nodes that wait for their right subtree only. -/
theorem plug_rights (ls : List Tree) (t : Tree) (st : List Frame) :
    plug t (ls.map .right ++ st) = plug (ls.foldl (fun u l => .node l u none) t) st := by
  induction ls generalizing t with
  | nil => rfl
  | cons l ls ih => exact ih _

end Sys2Proof.Machine
end

