-- ==== Sys2Proof/Tests/Slice0.lean ====
section
/-! SUPPORT. The model's own tests. Part 1: what `WellFormed` refuses. Part 2: words written out bit by bit
from the spec's encodings. Part 3: one step of each instruction, with the results of spec/95_test_vectors.md (the id of
the vector stands in the docstring). Part 4: for every statement with hypotheses, a state and operands that meet
them, each clause at the edge of its range. -/

open Sys2Proof Sys2Proof.Machine

namespace Sys2Proof.Tests

-- One thread: each kernel evaluation of a test would otherwise hold a thread and its stack.
set_option Elab.async false

/-! ## Helpers -/

/-- A bit string from its digits. -/
def bits (l : List Nat) : Bits := l.map fun d => decide (d = 1)

/-- A frequency table from its non-zero entries. -/
def counts (l : List (Nat × Nat)) : Vector Nat nsym :=
  l.foldl (fun f p => setFreq f p.1 p.2) (Vector.replicate nsym 0)

/-- A code table from its present entries. -/
def codes (l : List (Nat × List Nat)) : Vector (Option Bits) nsym :=
  l.foldl (fun c p => setCode c p.1 (bits p.2)) (Vector.replicate nsym none)

/-- The non-zero entries of a frequency table. -/
def countsOf (f : Vector Nat nsym) : List (Nat × Nat) :=
  (List.range nsym).filterMap fun i => if freqAt f i = 0 then none else some (i, freqAt f i)

/-- The present entries of a code table. -/
def codesOf (c : Vector (Option Bits) nsym) : List (Nat × Bits) :=
  (List.range nsym).filterMap fun i => (codeAt c i).map fun p => (i, p)

/-- A leaf with a weight. -/
def lw (x w : Nat) : Tree := .leaf (BitVec.ofNat 9 x) (some w)

/-- A leaf without one. -/
def lu (x : Nat) : Tree := .leaf (BitVec.ofNat 9 x) none

/-- An internal node with a weight. -/
def nw (l r : Tree) (w : Nat) : Tree := .node l r (some w)

/-- An internal node without one. -/
def nu (l r : Tree) : Tree := .node l r none

/-- What one sees of the next state of an instruction. -/
def after {α : Type} (i : Instr) (s : State) (f : State → α) : Option α :=
  match exec i s with
  | .next t => some (f t)
  | .fault _ => none
  | .refused _ => none

/-- The fault, its phase and the history mark. -/
def fault (s : State) : Nat × Nat × Bool := (s.err.code, s.phase.code, s.mark)

/-- The validity flags and `DONE`. -/
def flags (s : State) : Bool × TreeSt × Bool × Bool := (s.freqValid, s.treeSt, s.codeValid, s.done)

/-- The reset state with an input. -/
def onInput (bytes : List Byte) : State := { State.reset with inp := ⟨bytes, 0⟩ }

/-- The trees of the vectors B1, B2, B6. -/
def b1 : Tree := nw (lw 257 0) (lw 256 1) 1
def b2 : Tree := nw (nw (lw 66 1) (lw 256 1) 2) (lw 65 3) 5
def b6 : Tree := nw (lw 66 2) (nw (lw 65 1) (lw 256 1) 2) 4

/-- The header and the container of the scenario (vectors V1, H2). -/
def h2 : Bits := bits [0, 0, 1,0,0,1,0,0,0,0,1,0, 1,1,0,0,0,0,0,0,0,0, 1,0,0,1,0,0,0,0,0,1]
def v1 : List Byte := [0xFA#8, 0xCE#8, 0x82#8, 0x01#8, 0x24#8, 0x2C#8, 0x02#8, 0x41#8, 0xE2#8]

/-! ## Part 1: WellFormed refuses -/

theorem test_magic_of_33_bits_is_ill_formed : (Instr.magic (2 ^ 32)).wf = false := by decide
theorem test_magic_of_32_bits_is_well_formed : (Instr.magic (2 ^ 32 - 1)).wf = true := by decide
theorem test_symbol_of_10_bits_is_ill_formed : (Instr.hdrLeaf 512).wf = false := by decide
theorem test_symbol_of_9_bits_is_well_formed : (Instr.hdrLeaf 511).wf = true := by decide

/-! ## Part 2: decoding -/

/-- R110, R111: the sixteen codes. -/
theorem test_decode_commands_0_to_7 :
    decode .command (bits [0,0,0,0]) = .ok (.reserved0, []) ∧
    decode .command (bits [0,0,0,1]) = .ok (.cnt, []) ∧
    decode .command (bits [0,0,1,0]) = .ok (.bld, []) ∧
    decode .command (bits [0,0,1,1]) = .ok (.gen, []) ∧
    decode .command (bits [0,1,0,0]) = .ok (.wmg, []) ∧
    decode .command (bits [0,1,0,1]) = .ok (.ser, []) ∧
    decode .command (bits [0,1,1,0]) = .ok (.enc, []) ∧
    decode .command (bits [0,1,1,1]) = .ok (.fin, []) := by decide

theorem test_decode_commands_8_to_15 :
    decode .command (bits [1,0,0,0]) = .ok (.rmg, []) ∧
    decode .command (bits [1,0,0,1]) = .ok (.des, []) ∧
    decode .command (bits [1,0,1,0]) = .ok (.dec, []) ∧
    decode .command (bits [1,0,1,1]) = .ok (.cmp, []) ∧
    decode .command (bits [1,1,0,0]) = .ok (.dcmp, []) ∧
    decode .command (bits [1,1,0,1]) = .ok (.reserved13, []) ∧
    decode .command (bits [1,1,1,0]) = .ok (.reserved14, []) ∧
    decode .command (bits [1,1,1,1]) = .ok (.clr, []) := by decide

/-- R91: the suggested magic number, `FA CE 82 01`. -/
theorem test_decode_magic :
    decode .magic (bits [1,1,1,1,1,0,1,0, 1,1,0,0,1,1,1,0, 1,0,0,0,0,0,1,0, 0,0,0,0,0,0,0,1])
      = .ok (.magic 0xFACE8201, []) := by decide

/-- R93, R94: the tokens of H4, the symbols 511 and 0. -/
theorem test_decode_header_tokens :
    decode .header (bits [0]) = .ok (.hdrInt, []) ∧
    decode .header (bits [1,1,1,1,1,1,1,1,1,1]) = .ok (.hdrLeaf 511, []) ∧
    decode .header (bits [1,0,0,0,0,0,0,0,0,0, 1]) = .ok (.hdrLeaf 0, [true]) := by decide

/-- R99. -/
theorem test_decode_payload_bits :
    decode .payload (bits [0]) = .ok (.payL, []) ∧ decode .payload (bits [1]) = .ok (.payR, []) := by
  decide

/-- R172, R175, R176, R204: what is too short is rejected by name. -/
theorem test_decode_rejects_short_words :
    decode .command (bits [0,0,1]) = .error .shortCommand ∧
    decode .magic (bits [1,1,1]) = .error .shortMagic ∧
    decode .header [] = .error .noMarker ∧
    decode .header (bits [1,0,0,0,0,0,0,0,0]) = .error .shortSymbol ∧
    decode .payload [] = .error .noPayloadBit := by decide

/-- Words numbered as the opcode table numbers them: its `match` values. -/
theorem test_decode_table_words :
    decodeTableWord 8 0xB = some .cmp ∧ decodeTableWord 16 0x200 = some (.hdrLeaf 0) ∧
    decodeTableWord 32 0xFACE8201 = some (.magic 0xFACE8201) ∧
    decodeTableWord 1 1 = some .payR ∧ decodeTableWord 24 0 = none := by decide

/-- R112, R113: mnemonics and the two pseudo-instructions. -/
theorem test_mnemonics :
    commandOfMnemonic "COMPRESS" = some .cmp ∧ commandOfMnemonic "DECOMPRESS" = some .dcmp ∧
    commandOfMnemonic "FIN" = some .fin ∧ commandOfMnemonic "NOP" = none := by decide +kernel

/-! ## Part 3: one step of each instruction -/

/-- M6 to M8: A5 C3 read as 1, 9 and 8 bits. -/
theorem test_readBits :
    (match readBits .none 1 (onInput [0xA5#8, 0xC3#8]) with
      | .ok a s => match readBits .none 9 s with
        | .ok b s => match readBits .none 8 s with
          | .ok c s => some (a, b, c, s.inp.pos)
          | .raise _ _ _ => none
        | .raise _ _ _ => none
      | .raise _ _ _ => none) = some (some 1, some 151, none, 10) := by decide +kernel

/-- M2, M3: a field is the low bits of its value, the most significant first. -/
theorem test_writeBits :
    bitsOf 9 256 = bits [1,0,0,0,0,0,0,0,0] ∧ bitsOf 9 0x341 = bits [1,0,1,0,0,0,0,0,1] := by decide

/-- C4 (the first word is before the position), and C3. -/
theorem test_cnt_from_position_8 :
    after .cnt { onInput [0x41#8, 0x42#8] with inp := ⟨[0x41#8, 0x42#8], 8⟩ }
      (fun t => (countsOf t.freq, flags t, t.inp.pos))
      = some ([(66, 1), (256, 1)], (true, .none, false, true), 16) := by decide +kernel

theorem test_cnt_counts :
    after .cnt (onInput [0x00#8, 0xFF#8, 0x00#8]) (fun t => (countsOf t.freq, t.inp.pos))
      = some ([(0, 2), (255, 1), (256, 1)], 24) := by decide +kernel

/-- B6: a leaf before an internal node of equal weight. -/
theorem test_bld_leaf_before_node :
    after .bld { State.reset with freq := counts [(65, 1), (66, 2), (256, 1)], freqValid := true }
      (fun t => (t.tree, flags t)) = some (b6, (false, .built, false, true)) := by decide +kernel

/-- B1: the placeholder is the left leaf. -/
theorem test_bld_placeholder :
    after .bld { State.reset with freq := counts [(256, 1)], freqValid := true } (fun t => t.tree)
      = some b1 := by decide +kernel

/-- G4. -/
theorem test_gen_paths :
    after .gen { State.reset with tree := b6, treeSt := .built } (fun t => (codesOf t.code, flags t))
      = some ([(65, bits [1,0]), (66, bits [0]), (256, bits [1,1])], (false, .built, true, true)) := by
  decide +kernel

/-- G1: no code for the placeholder. -/
theorem test_gen_leaves_out_the_placeholder :
    after .gen { State.reset with tree := b1, treeSt := .built } (fun t => codesOf t.code)
      = some [(256, bits [1])] := by decide +kernel

/-- W1. -/
theorem test_wmg :
    after .wmg State.reset (fun t => (bytesOfBits t.out.bits, t.out.bits.length, t.done))
      = some ([0xFA#8, 0xCE#8, 0x82#8, 0x01#8], 32, true) := by decide +kernel

/-- W6. -/
theorem test_wmg_on_a_closed_output :
    after .wmg { State.reset with out := ⟨[], true⟩ } (fun t => (fault t, t.out))
      = some ((4, 0, true), ⟨[], true⟩) := by decide +kernel

/-- H2. -/
theorem test_ser :
    after .ser { State.reset with tree := b2, treeSt := .built } (fun t => (t.out.bits, t.treeSt))
      = some (h2, .built) := by decide +kernel

/-- E1, E4: `ENC` rewinds. -/
theorem test_enc_rewinds :
    after .enc { State.reset with
        inp := ⟨[0x41#8, 0x41#8, 0x41#8, 0x42#8], 24⟩, codeValid := true, treeSt := .built,
        code := codes [(65, [1]), (66, [0, 0]), (256, [0, 1])] }
      (fun t => (t.out.bits, flags t, t.inp.pos))
      = some (bits [1,1,1,0,0,0,1], (false, .none, false, true), 32) := by decide +kernel

/-- E3: a word without a code. -/
theorem test_enc_absent_code :
    after .enc { State.reset with
        inp := ⟨[0x41#8, 0x43#8], 0⟩, codeValid := true, treeSt := .built,
        code := codes [(65, [1]), (66, [0, 0]), (256, [0, 1])] }
      (fun t => (t.out.bits, fault t, flags t))
      = some (bits [1], (5, 7, true), (false, .none, false, false)) := by decide +kernel

/-- M4. -/
theorem test_fin_pads :
    after .fin { State.reset with out := ⟨bits [1,1,0,0,0,0,0,0,0,0], false⟩ }
      (fun t => (t.out.bytes, t.out.closed)) = some ([0xC0#8, 0x00#8], true) := by decide +kernel

/-- M5: nothing to pad. -/
theorem test_fin_on_an_empty_output :
    after .fin State.reset (fun t => (t.out, t.done)) = some (⟨[], true⟩, true) := by decide +kernel

/-- W2. -/
theorem test_rmg_match :
    after .rmg (onInput [0xFA#8, 0xCE#8, 0x82#8, 0x01#8, 0x60#8]) (fun t => (fault t, t.inp.pos, t.done))
      = some ((0, 0, false), 32, true) := by decide +kernel

/-- W3. -/
theorem test_rmg_mismatch :
    after .rmg (onInput [0xFA#8, 0xCE#8, 0x82#8, 0x00#8]) fault = some (1, 1, true) := by decide +kernel

/-- The container of V1 from bit 32 on, vector H2: 32 bits are consumed. -/
theorem test_des :
    after .des { State.reset with inp := ⟨v1, 32⟩ } (fun t => (t.tree, flags t, t.inp.pos))
      = some (nu (nu (lu 66) (lu 256)) (lu 65), (false, .parsed, false, true), 64) := by decide +kernel

/-- F6: a structural bit is missing. -/
theorem test_des_truncated :
    after .des { State.reset with inp := ⟨[0x02#8, 0x41#8], 0⟩ } (fun t => (fault t, t.inp.pos))
      = some ((2, 2, true), 16) := by decide +kernel

/-- V1, its payload: the bit after the terminator is not read. -/
theorem test_dec :
    after .dec { State.reset with
        inp := ⟨v1, 64⟩, tree := nu (nu (lu 66) (lu 256)) (lu 65), treeSt := .parsed }
      (fun t => (bytesOfBits t.out.bits, t.inp.pos, t.treeSt, t.cur))
      = some ([0x41#8, 0x41#8, 0x41#8, 0x42#8], 71, .none, none) := by decide +kernel

/-- F9: a bare leaf; one bit is read. -/
theorem test_dec_bare_leaf :
    after .dec { State.reset with inp := ⟨[0x90#8, 0x40#8], 10⟩, tree := lu 65, treeSt := .parsed }
      (fun t => (fault t, t.inp.pos)) = some ((3, 3, true), 11) := by decide +kernel

/-- V1. -/
theorem test_cmp :
    after .cmp (onInput [0x41#8, 0x41#8, 0x41#8, 0x42#8]) (fun t => (t.out.bytes, t.out.closed, flags t))
      = some (v1, true, (false, .none, false, true)) := by decide +kernel

/-- V2: the empty input. -/
theorem test_cmp_of_nothing :
    after .cmp State.reset (fun t => t.out.bytes)
      = some [0xFA#8, 0xCE#8, 0x82#8, 0x01#8, 0x60#8, 0x38#8, 0x04#8] := by decide +kernel

/-- F11: the placeholder leaf emits 1. -/
theorem test_dcmp_emits_the_placeholder :
    after .dcmp (onInput [0xFA#8, 0xCE#8, 0x82#8, 0x01#8, 0x60#8, 0x38#8, 0x01#8])
      (fun t => (t.out.bytes, t.out.closed, fault t))
      = some ([0x01#8, 0x01#8], true, (0, 0, false)) := by decide +kernel

/-- F8: the words before the end stay, the output is open. -/
theorem test_dcmp_truncated :
    after .dcmp (onInput [0xFA#8, 0xCE#8, 0x82#8, 0x01#8, 0x24#8, 0x2C#8, 0x02#8, 0x41#8, 0xE0#8])
      (fun t => (bytesOfBits t.out.bits, t.out.closed, fault t))
      = some ([0x41#8, 0x41#8, 0x41#8, 0x42#8, 0x42#8], false, (2, 3, true)) := by decide +kernel

/-- X1, X2, and the third reserved code. -/
theorem test_reserved :
    after .reserved0 State.reset fault = some (6, 0, true) ∧
    after .reserved13 State.reset fault = some (6, 0, true) ∧
    after .reserved14 State.reset fault = some (6, 0, true) := by decide +kernel

/-- X4. -/
theorem test_clr :
    after .clr { State.reset with err := .truncatedStreamError, phase := .payloadDecode }
      (fun t => (t.err.code, t.phase.code, flags t)) = some (0, 0, (false, .none, false, true)) := by
  decide +kernel

/-- X3. -/
theorem test_faulted_engine_refuses_cnt :
    after .cnt { onInput [0x41#8] with err := .truncatedStreamError }
      (fun t => (t.err.code, t.inp.pos, countsOf t.freq, t.done)) = some (2, 0, [], false) := by
  decide +kernel

/-- R91: another magic number is a `HeaderError`. -/
theorem test_magic_token :
    after (.magic 0xFACE8201) { State.reset with scan := .magic } (fun t => (fault t, t.done))
      = some ((0, 0, false), true) ∧
    after (.magic 0xFACE8200) { State.reset with scan := .magic } fault = some (1, 1, true) := by
  decide +kernel

/-- R93, R174: the left subtree of a new node is next. -/
theorem test_hdrInt :
    after .hdrInt { State.reset with scan := .header [.left] } (fun t => (t.scan, busy t))
      = some (.header [.left, .left], true) := by decide +kernel

/-- H1, its last leaf: the right child of the one node begun. -/
theorem test_hdrLeaf_ends_the_header :
    after (.hdrLeaf 256) { State.reset with scan := .header [.right (lu 257)] }
      (fun t => (t.tree, t.treeSt, t.done)) = some (nu (lu 257) (lu 256), .parsed, true) := by
  decide +kernel

/-- H1, its first leaf. -/
theorem test_hdrLeaf_on_the_left :
    after (.hdrLeaf 257) { State.reset with scan := .header [.left] } (fun t => (t.scan, t.treeSt))
      = some (.header [.right (lu 257)], .none) := by decide +kernel

/-- R201, R203: a literal on the left is emitted, and the walk is at the root again. -/
theorem test_payL_emits :
    after .payL { State.reset with tree := nu (lu 97) (lu 256), treeSt := .parsed, cur := some [] }
      (fun t => (bytesOfBits t.out.bits, t.cur)) = some ([0x61#8], some []) := by decide +kernel

/-- R205: pseudo-EOF on the right ends the walk, and the tree is discarded. -/
theorem test_payR_ends :
    after .payR { State.reset with tree := nu (lu 97) (lu 256), treeSt := .parsed, cur := some [] }
      (fun t => (t.out.bits, t.cur, flags t)) = some ([], none, (false, .none, false, true)) := by
  decide +kernel

/-- R34: `DONE` is bit 1, `ERR` is bits 5 to 2, `PHASE` bits 8 to 6, `TREE_ST` bits 11 and 10. -/
theorem test_status :
    status { State.reset with done := true, treeSt := .parsed, codeValid := true } = 0x1802#16 ∧
    status { State.reset with err := .capacityError, phase := .payloadEncode } = 0x01E0#16 := by decide

/-- R33, X7: a write of `CMD` runs the command of its low four bits, here `DEC` without a tree. -/
theorem test_step_runs_a_write_of_cmd :
    (match step { State.reset with host := [.writeReg 0 0xFFFA#16] } with
      | .next t => some (fault t, t.host)
      | .fault _ => none
      | .refused _ => none) = some ((4, 0, true), []) := by decide +kernel

/-- R78, R242, R249: the second access of `SER` fails, and the bit of the first one stays. -/
theorem test_ser_second_access_fails :
    after .ser { State.reset with tree := b1, treeSt := .built, ioFail := [1] }
      (fun t => (fault t, t.out.bits)) = some ((7, 6, true), bits [0]) := by decide +kernel

/-- An event of a run. -/
def event (a : HostAction) (s t : State) : RunEvent := ⟨a, s, t⟩

/-- The operations of P4 (R278): a faulted `DCMP`, a `FIN` refused, and after `CLR` a `DCMP` that is successful
although the mark is set. -/
theorem test_P4_operations :
    (operationsFrom []
      [event (.attachIn []) State.reset State.reset,
       event .attachOut State.reset State.reset,
       event (.writeReg 0 12#16) State.reset { State.reset with err := .truncatedStreamError, mark := true },
       event (.writeReg 0 7#16) { State.reset with err := .truncatedStreamError, mark := true }
         { State.reset with err := .truncatedStreamError, mark := true },
       event (.writeReg 0 15#16) { State.reset with err := .truncatedStreamError, mark := true }
         { State.reset with done := true, mark := true },
       event (.attachIn v1) { State.reset with done := true, mark := true }
         { State.reset with done := true, mark := true },
       event .attachOut { State.reset with done := true, mark := true }
         { State.reset with done := true, mark := true },
       event (.writeReg 0 12#16) { State.reset with done := true, mark := true }
         { State.reset with done := true, mark := true, out := ⟨[], true⟩ }]).map Operation.succeeded
      = [false, false, true] := by decide +kernel

/-- R278: a staged sequence that stops before its `FIN` is no successful operation; `CLR` alone is none. -/
theorem test_operation_without_fin :
    (operationsFrom []
      [event (.writeReg 0 15#16) State.reset { State.reset with done := true },
       event (.attachIn []) State.reset { State.reset with done := true },
       event (.writeReg 0 1#16) State.reset { State.reset with done := true }]).map Operation.succeeded
      = [false] := by decide +kernel

/-- R278, vector P4 after its fault: `CLR`, new streams and `DCMP` are a successful run. -/
theorem test_P4_recovery :
    runSucceeded [.writeReg 0 15#16, .attachIn v1, .attachOut, .writeReg 0 12#16]
      { State.reset with err := .truncatedStreamError, phase := .payloadDecode, mark := true }
      = true := by decide +kernel

/-! ## Part 4: witnesses -/

/-- From a check of a next state to the state. -/
theorem of_next {o : Host.Outcome State Fault Refusal} {f : State → Bool}
    (h : (match o with | .next t => f t | .fault _ => false | .refused _ => false) = true) :
    ∃ t, o = .next t ∧ f t = true := by
  split at h
  · exact ⟨_, rfl, h⟩
  · cases h
  · cases h

/-- From a check of the next state to the state. -/
theorem of_after {i : Instr} {s : State} {f : State → Bool} (h : after i s f = some true) :
    ∃ t, exec i s = .next t ∧ f t = true := by
  unfold after at h
  split at h
  · exact ⟨_, ‹_›, by simpa using h⟩
  · cases h
  · cases h

theorem witness_DecodeAndEncodeAgree :
    (Instr.magic (2 ^ 32 - 1)).wf = true ∧ (Instr.hdrLeaf 511).wf = true ∧ Instr.clr.wf = true ∧
      decode .header (bits [1,1,1,1,1,1,1,1,1,1, 0]) = .ok (.hdrLeaf 511, [false]) := by decide

theorem witness_InputBitsComeMostSignificantFirst :
    5 < InStream.remaining ⟨[0xA5#8, 0xC3#8], 10⟩ := by decide

theorem witness_ReadBitsReturnsOrSignalsEnd :
    1 ≤ 8 ∧ (onInput [0xA5#8]).ioFail = [] ∧
      (onInput [0xA5#8]).inp.pos + 8 ≤ 8 * (onInput [0xA5#8]).inp.data.length ∧
      ¬ (onInput [0xA5#8]).inp.pos + 9 ≤ 8 * (onInput [0xA5#8]).inp.data.length := by decide

theorem witness_FieldsAreMostSignificantFirst :
    ∃ s : State, s.ioFail = [] ∧ s.inp.remaining = 9 :=
  ⟨{ State.reset with inp := ⟨[0xA5#8, 0xC3#8], 7⟩ }, rfl, rfl⟩

/-- A faulted engine, in the middle of nothing. -/
def faulted : State := { State.reset with err := .ioError, phase := .count, mark := true }

theorem witness_HostResetClearsTheEngine :
    ∃ s : State, BetweenCommands s ∧ s.err ≠ .none ∧ s.host = [.reset] :=
  ⟨{ faulted with host := [.reset] }, .inl (by decide), by decide, rfl⟩

theorem witness_ReservedCodesAreIllegalCommands : State.reset.err = .none := rfl

theorem witness_FaultedEngineRefusesAllButClear :
    Instr.cnt.space = .command ∧ Instr.cnt ≠ .clr ∧ faulted.err ≠ .none := by decide

theorem witness_FailedPreconditionIsIllegalSequence :
    Instr.ser.space = .command ∧ State.reset.err = .none ∧ ¬ Precondition .ser State.reset ∧
      ∃ t, exec .fin State.reset = .next t ∧ Precondition .fin State.reset := by
  obtain ⟨t, h, -⟩ := of_after (i := .fin) (s := State.reset) (f := fun _ => true) (by decide +kernel)
  exact ⟨rfl, rfl, fun h => h.1 rfl, t, h, rfl⟩

theorem witness_FlagsAfterEachCommand_completed :
    ∃ t, exec .cnt State.reset = .next t ∧ decide (t.err = .none) = true :=
  of_after (by decide +kernel)

theorem witness_FlagsAfterEachCommand_faulted :
    ∃ t, exec .rmg State.reset = .next t ∧ decide (t.err ≠ .none) = true :=
  of_after (by decide +kernel)

theorem witness_FlagsAfterEachCommand_clear :
    ∃ t, exec .clr faulted = .next t ∧ decide (t.err = .none) = true :=
  of_after (by decide +kernel)

/-- For FaultEntryClearsTheEngine and FaultsAndPhasesOfEachInstruction: a fault after a bit was read. -/
theorem witness_FaultEntryClearsTheEngine :
    ∃ t, exec .des { State.reset with inp := ⟨[0x01#8], 7⟩ } = .next t ∧
      decide (t.err ≠ .none ∧ t.inp.pos = 8) = true :=
  of_after (by decide +kernel)

/-- The first clause: a command that touches a stream, and its next state; one access makes it fail, and the
next one does not. -/
theorem witness_FailingAccessRaisesIoError_any :
    (∃ u, exec .wmg State.reset = .next u ∧ decide (u.err = .none) = true) ∧
    (∃ t, exec .wmg { State.reset with ioFail := [0] } = .next t ∧ decide (t.err = .ioError) = true) ∧
    ∃ t, exec .wmg { State.reset with ioFail := [1] } = .next t ∧ decide (t.ioFail = [0]) = true :=
  ⟨of_after (by decide +kernel), of_after (by decide +kernel), of_after (by decide +kernel)⟩

theorem witness_FailingAccessRaisesIoError_first :
    ∃ s : State, s.err = .none ∧ s.ioFail = [0] ∧ s.out.closed = false ∧ s.treeSt ≠ .none ∧
      s.codeValid = true :=
  ⟨{ State.reset with ioFail := [0], tree := b1, treeSt := .built, codeValid := true },
    rfl, rfl, rfl, by decide, rfl⟩

theorem witness_StreamsOnlyGrow :
    ∃ t, exec .wmg State.reset = .next t ∧ decide (t.out.bits.length = 32) = true :=
  of_after (by decide +kernel)

theorem witness_StreamsOnlyGrow_closed :
    ∃ t, exec .rmg { State.reset with out := ⟨[], true⟩ } = .next t ∧ decide (t.out.closed = true) = true :=
  of_after (by decide +kernel)

/-- Three words of one value, with counts of two bits: the largest count that fits, and the least that does
not. -/
def threeWords : State :=
  { onInput [0x41#8, 0x41#8, 0x41#8] with cfg := ⟨0xFACE8201#32, some 2, none⟩ }

theorem witness_CountGivesTheOccurrences :
    Ready threeWords ∧ CountsFit threeWords.cfg threeWords.inp.words ∧
      threeWords.inp.words.count 0x41 = 2 ^ 2 - 1 := by
  refine ⟨⟨rfl, rfl⟩, fun w h => ?_, by decide +kernel⟩
  obtain rfl : w = 2 := by injection h.symm
  exact ⟨by decide, by decide +kernel⟩

theorem witness_CountPastItsWidthIsACapacityError :
    ∃ s : State, Ready s ∧ s.cfg.cntW = some 1 ∧ 0x41 < 256 ∧ s.inp.words.count 0x41 = 2 ^ 1 - 1 + 1 :=
  ⟨{ onInput [0x41#8, 0x41#8] with cfg := ⟨0xFACE8201#32, some 1, none⟩ },
    ⟨rfl, rfl⟩, rfl, by decide, by decide +kernel⟩

/-- The table of the empty input: the merge rule gives B1, and the parameters just suffice. -/
def emptyCounted : State :=
  { State.reset with freq := counts [(256, 1)], freqValid := true, cfg := ⟨0xFACE8201#32, some 1, some 514⟩ }

theorem emptyCounted_freqAt (i : Nat) : freqAt emptyCounted.freq i = if 256 = i then 1 else 0 := by
  show freqAt (setFreq (Vector.replicate nsym 0) 256 1) i = _
  rw [freqAt_setFreq i (by decide), freqAt_replicate]

theorem emptyCounted_support : ∀ i < 257, freqAt emptyCounted.freq i > 0 → i = 256 := by
  intro i _ h
  rw [emptyCounted_freqAt] at h
  by_contra hi
  rw [if_neg (Ne.symm hi)] at h
  exact absurd h (by decide)

theorem emptyCounted_eof : freqAt emptyCounted.freq 256 = 1 := emptyCounted_freqAt 256

theorem emptyCounted_leaves :
    LeafEntries emptyCounted.freq [⟨1, 256, lw 256 1⟩, ⟨0, 257, lw 257 0⟩] := by
  refine ⟨[⟨1, 256, lw 256 1⟩], by simp, fun e => ⟨fun h => ?_, fun ⟨i, hi, hp, he⟩ => ?_⟩, rfl⟩
  · refine ⟨256, le_refl _, by rw [emptyCounted_eof]; decide, ?_⟩
    rw [emptyCounted_eof]
    simpa [lw] using h
  · obtain rfl := emptyCounted_support i (by omega) hp
    rw [emptyCounted_eof] at he
    simp [he, lw]

theorem emptyCounted_merges : MergesTo 0 [⟨1, 256, lw 256 1⟩, ⟨0, 257, lw 257 0⟩] b1 := by
  refine .round 0 _ [⟨1, 256, lw 256 1⟩] [] ⟨0, 257, lw 257 0⟩ ⟨1, 256, lw 256 1⟩ b1
    ⟨by simp, ?_⟩ (.swap _ _ _) ⟨by simp, by simp⟩ (.refl _) (.root _ _)
  intro x hx
  rcases List.mem_pair.1 hx with rfl | rfl
  · exact .inr (.inl (by decide))
  · exact .inl rfl

theorem witness_BuildFollowsTheMergeRule :
    emptyCounted.err = .none ∧ emptyCounted.freqValid = true ∧
      BuildFits emptyCounted.cfg emptyCounted.freq ∧ BuildsTo emptyCounted.freq b1 := by
  refine ⟨rfl, rfl, ⟨fun w h => ?_, fun n h => ?_⟩, _, emptyCounted_leaves, emptyCounted_merges⟩
  · obtain rfl : w = 1 := by injection h.symm
    decide +kernel
  · injection h with h
    omega

theorem witness_BuiltTreesAreWeighedPrefixTrees :
    freqAt emptyCounted.freq pseudoEof = 1 ∧
      ∃ t, exec .bld emptyCounted = .next t ∧ decide (t.err = .none) = true :=
  ⟨emptyCounted_eof, of_after (by decide +kernel)⟩

theorem witness_WeightPastItsWidthIsACapacityError :
    ∃ s : State, s.err = .none ∧ s.freqValid = true ∧ s.cfg.cntW = some 1 ∧
      totalCount s.freq = 2 ^ 1 - 1 + 1 :=
  ⟨{ State.reset with
      freq := counts [(0, 1), (256, 1)], freqValid := true, cfg := ⟨0xFACE8201#32, some 1, none⟩ },
    rfl, rfl, rfl, by decide +kernel⟩

/-- B1 is a built tree. -/
theorem b1_built : BuiltTree b1 where
  root := rfl
  weights := ⟨rfl, rfl, 0, 1, rfl, rfl, rfl⟩
  distinct := by unfold Tree.Distinct; decide
  eof := by decide
  few := by decide
  short := by
    rintro p s ⟨w, h⟩
    rcases p with _ | ⟨x, _ | ⟨y, q⟩⟩
    · simp
    · simp
    · cases x <;> simp [b1, nw, lw, Tree.nodeAt] at h

/-- The state of B1 built. -/
def builtB1 : State := { State.reset with tree := b1, treeSt := .built }

/-- For GenRecordsThePathOfEveryLeaf too. -/
theorem witness_CodesAreAPrefixCode :
    builtB1.err = .none ∧ builtB1.treeSt = .built ∧ BuiltTree builtB1.tree ∧ builtB1.tree.Distinct ∧
      ∃ t, exec .gen builtB1 = .next t ∧ decide (t.err = .none) = true :=
  ⟨rfl, rfl, b1_built, b1_built.distinct, of_after (by decide +kernel)⟩

/-- For FinalisePadsAndCloses, SerialiseWritesThePreorder and DecodeEndsInOneOfThreeWays too. -/
theorem witness_WriteMagicAppendsTheConstant :
    Ready builtB1 ∧ builtB1.out.closed = false ∧ builtB1.treeSt ≠ .none :=
  ⟨⟨rfl, rfl⟩, rfl, by decide⟩

theorem witness_ReadMagicComparesThirtyTwoBits_match :
    ∃ s : State, Ready s ∧ s.inp.rest = bitsOf 32 s.cfg.magic.toNat ++ [] :=
  ⟨onInput [0xFA#8, 0xCE#8, 0x82#8, 0x01#8], ⟨rfl, rfl⟩, by decide +kernel⟩

theorem witness_ReadMagicComparesThirtyTwoBits_mismatch :
    ∃ s : State, Ready s ∧ s.out.closed = false ∧ s.inp.rest.length = 32 ∧
      s.inp.rest.take 32 ≠ bitsOf 32 s.cfg.magic.toNat :=
  ⟨onInput [0xFA#8, 0xCE#8, 0x82#8, 0x00#8], ⟨rfl, rfl⟩, rfl, by decide +kernel, by decide +kernel⟩

theorem witness_ReadMagicComparesThirtyTwoBits_short :
    ∃ s : State, Ready s ∧ s.out.closed = false ∧ s.inp.rest.length = 31 :=
  ⟨{ State.reset with inp := ⟨[0xFA#8, 0xCE#8, 0x82#8, 0x01#8], 1⟩ }, ⟨rfl, rfl⟩, rfl, by decide +kernel⟩

theorem witness_HeaderLengthIsElevenPerLeafLessOne :
    ∃ t, exec .ser builtB1 = .next t ∧ decide (t.out.bits.length = 21) = true :=
  of_after (by decide +kernel)

/-- The header of B1, with nothing after it but the padding. -/
def b1Header (cap : Nat) : State :=
  { onInput [0x60#8, 0x38#8, 0x00#8] with cfg := ⟨0xFACE8201#32, none, some cap⟩ }

theorem witness_DeserialiseRebuildsTheTree :
    Ready (b1Header 3) ∧ (b1Header 3).inp.rest = b1.serBits ++ [false, false, false] ∧
      ∀ n, (b1Header 3).cfg.nodeCap = some n → b1.nodes ≤ n := by
  refine ⟨⟨rfl, rfl⟩, by decide +kernel, fun n h => ?_⟩
  injection h with h
  subst h
  decide

/-- One whole token, which a store of one node just holds, and then eight bits of a symbol. -/
theorem witness_HeaderCutOffIsTruncated :
    ∃ s : State, Ready s ∧ s.cfg.nodeCap = some 1 ∧ headerTokens 0 s.inp.rest = 1 ∧
      ∀ (T : Tree) (rest : Bits), s.inp.rest ≠ T.serBits ++ rest := by
  have hr : InStream.rest ⟨[0x01#8, 0xFF#8], 6⟩ = bits [0,1,1,1,1,1,1,1,1,1] := by decide +kernel
  refine ⟨{ State.reset with inp := ⟨[0x01#8, 0xFF#8], 6⟩, cfg := ⟨0xFACE8201#32, none, some 1⟩ },
    ⟨rfl, rfl⟩, rfl, by rw [hr]; decide, fun T rest h => ?_⟩
  rw [hr] at h
  rcases T with ⟨x, w⟩ | ⟨⟨x, w'⟩ | ⟨l, r', w'⟩, r, w⟩
  · have := congrArg List.head? h
    simp [Tree.serBits, bits] at this
  · have := congrArg List.length h
    simp [Tree.serBits, bits, symFieldW] at this
    omega
  · have := congrArg (fun b => b.tail.head?) h
    simp [Tree.serBits, bits] at this

theorem witness_HeaderPastTheStoreIsACapacityError :
    Ready (b1Header 2) ∧ (b1Header 2).cfg.nodeCap = some 2 ∧ 2 < b1.nodes ∧
      (b1Header 2).inp.rest = b1.serBits ++ [false, false, false] :=
  ⟨⟨rfl, rfl⟩, rfl, by decide, by decide +kernel⟩

/-- The store just holds the tree. -/
theorem witness_HeaderFidelity_serialised :
    Ready builtB1 ∧ builtB1.treeSt ≠ .none ∧ builtB1.out.closed = false ∧ Ready (b1Header 3) ∧
      (∀ n, (b1Header 3).cfg.nodeCap = some n → builtB1.tree.nodes ≤ n) ∧
      ∃ t, exec .ser builtB1 = .next t ∧
        decide ((b1Header 3).inp.rest
          = t.out.bits.drop builtB1.out.bits.length ++ [false, false, false]) = true := by
  refine ⟨⟨rfl, rfl⟩, by decide, rfl, ⟨rfl, rfl⟩, fun n h => ?_, of_after (by decide +kernel)⟩
  injection h with h
  subst h
  decide

theorem witness_HeaderFidelity_parsed :
    Ready (b1Header 3) ∧ ∃ t, exec .des (b1Header 3) = .next t ∧
      decide (t.err = .none ∧ t.out.closed = false) = true :=
  ⟨⟨rfl, rfl⟩, of_after (by decide +kernel)⟩

/-- The empty input, with the codes of G1. -/
def emptyCoded : State := { builtB1 with code := codes [(256, [1])], codeValid := true }

theorem witness_EncodeWritesEveryCodeThenTheTerminator :
    Ready emptyCoded ∧ emptyCoded.codeValid = true ∧ emptyCoded.out.closed = false ∧
      (∀ b ∈ emptyCoded.inp.data, codeAt emptyCoded.code b.toNat ≠ none) ∧
      codeAt emptyCoded.code pseudoEof = some [true] :=
  ⟨⟨rfl, rfl⟩, rfl, rfl, by simp [emptyCoded, builtB1, State.reset], by decide +kernel⟩

theorem witness_WordWithoutACodeIsAbsentCode :
    ∃ s : State, Ready s ∧ s.codeValid = true ∧ s.out.closed = false ∧
      s.inp.data = [] ++ 0x43#8 :: [] ∧ codeAt s.code (0x43#8).toNat = none :=
  ⟨{ emptyCoded with inp := ⟨[0x43#8], 0⟩ }, ⟨rfl, rfl⟩, rfl, rfl, rfl, by decide +kernel⟩

/-- The tree of V3 and its payload `1 0`: one word, then the terminator, then the rest of the byte. -/
def oneWord : State :=
  { onInput [0x80#8] with tree := nu (lu 256) (lu 97), treeSt := .parsed }

theorem oneWord_paths : WordPaths oneWord.tree [([true], 97#9)] := by
  intro x hx
  obtain rfl := List.mem_singleton.1 hx
  exact ⟨⟨none, rfl⟩, by decide⟩

theorem oneWord_eof : EofPath oneWord.tree [false] := ⟨none, rfl⟩

theorem witness_DecodeEmitsUntilPseudoEof :
    Ready oneWord ∧ oneWord.treeSt ≠ .none ∧ oneWord.out.closed = false ∧
      oneWord.tree.isNode = true ∧ WordPaths oneWord.tree [([true], 97#9)] ∧
      EofPath oneWord.tree [false] ∧
      oneWord.inp.rest = pathBits [([true], 97#9)] ++ ([false] ++ List.replicate 6 false) :=
  ⟨⟨rfl, rfl⟩, by decide, rfl, rfl, oneWord_paths, oneWord_eof, by decide +kernel⟩

theorem witness_DecodeLeavesNoNodeAndNoTree :
    oneWord.cur = none ∧ ∃ t, exec .dec oneWord = .next t ∧ decide (t.err = .none) = true :=
  ⟨rfl, of_after (by decide +kernel)⟩

/-- A walk at a path of a tree, with an input. -/
def walking (t : Tree) (path : List Nat) (i : InStream) : State :=
  { State.reset with tree := t, treeSt := .parsed, cur := some (bits path), inp := i }

/-- The tree of H2, without weights. -/
def h2Tree : Tree := nu (nu (lu 66) (lu 256)) (lu 65)

/-- The hypotheses that every clause of OneStepOfTheDecoder and PayloadBitsMoveToTheChild shares. -/
theorem witness_OneStepOfTheDecoder (t : Tree) (path : List Nat) (i : InStream) :
    Ready (walking t path i) ∧ (walking t path i).scan = .idle ∧
      (walking t path i).cur = some (bits path) ∧ (walking t path i).out.closed = false :=
  ⟨⟨rfl, rfl⟩, rfl, rfl, rfl⟩

theorem witness_OneStepOfTheDecoder_truncation :
    (walking h2Tree [0] ⟨[0xFF#8], 8⟩).inp.rest = [] := by decide +kernel

theorem witness_OneStepOfTheDecoder_malformed :
    (walking (lu 65) [] ⟨[0x00#8], 7⟩).inp.rest = false :: [] ∧
      (walking (lu 65) [] ⟨[0x00#8], 7⟩).tree.nodeAt [] = some (.leaf 65#9 none) := by decide +kernel

/-- At the root of H2 the bit 0 descends and the bit 1 emits; at its left child the bit 1 stops. -/
theorem witness_OneStepOfTheDecoder_rows :
    (walking h2Tree [] ⟨[0x00#8], 7⟩).inp.rest = false :: [] ∧
    (walking h2Tree [] ⟨[0x01#8], 7⟩).inp.rest = true :: [] ∧
    h2Tree.nodeAt [] = some (.node (.node (lu 66) (lu 256) none) (.leaf 65#9 none) none) ∧
    h2Tree.nodeAt [false] = some (.node (.leaf 66#9 none) (.leaf 256#9 none) none) := by decide +kernel

/-- Each payload bit at a node whose child on its side is a word. -/
theorem witness_FailingAccessRaisesIoError_word :
    ({ walking h2Tree [0] ⟨[], 0⟩ with ioFail := [0] } : State).err = .none ∧
    h2Tree.nodeAt (bits [0]) = some (.node (.leaf 66#9 none) (.leaf 256#9 none) none) ∧
    h2Tree.nodeAt (bits []) = some (.node (nu (lu 66) (lu 256)) (.leaf 65#9 none) none) ∧
    (66#9).toNat ≠ 256 ∧ (65#9).toNat ≠ 256 := ⟨rfl, by decide, by decide, by decide, by decide⟩

/-- A literal leaf, and the pseudo-EOF leaf, on the other sides. -/
theorem witness_PayloadBitsMoveToTheChild :
    h2Tree.nodeAt (bits [0]) = some (.node (.leaf 66#9 none) (.leaf 256#9 none) none) ∧
    (nu (lu 256) (nu (lu 97) (lu 98))).nodeAt (bits [])
      = some (.node (.leaf 256#9 none) (.node (lu 97) (lu 98) none) none) ∧
    (lu 65).nodeAt (bits []) = some (.leaf 65#9 none) := by decide

theorem witness_MagicTokenIsCompared :
    State.reset.err = .none ∧ 0xFACE8201 = State.reset.cfg.magic.toNat ∧
      0xFACE8200 ≠ State.reset.cfg.magic.toNat := by decide

/-- A header being parsed, with a limit of the node store. -/
def parsing (st : List Frame) (cap : Nat) : State :=
  { State.reset with scan := .header st, cfg := ⟨0xFACE8201#32, none, some cap⟩ }

/-- For LeafTokenCompletesSubtrees too: the last node that fits. -/
theorem witness_InternalTokenBeginsANode_fits :
    (parsing [.left] 2).err = .none ∧ (parsing [.left] 2).scan = .header [.left] ∧
      ∀ n, (parsing [.left] 2).cfg.nodeCap = some n → stackNodes [.left] + 1 ≤ n := by
  refine ⟨rfl, rfl, fun n h => ?_⟩
  injection h with h
  subst h
  decide

/-- For LeafTokenCompletesSubtrees too: the first node that does not fit. -/
theorem witness_InternalTokenBeginsANode_past :
    (parsing [.left] 1).cfg.nodeCap = some 1 ∧ 1 < stackNodes [.left] + 1 := by decide

/-- No node waits, or one does: the leaf alone, or the right child of a node begun. -/
theorem witness_LeafTokenCompletesSubtrees :
    511 < 512 ∧ ([] : List Frame) = ([] : List Tree).map .right ∧
      [Frame.right (lu 257)] = [lu 257].map .right ∧
      [Frame.right (lu 257), .left] = [lu 257].map .right ++ .left :: [] ∧
      nu (lu 257) (lu 511) = [lu 257].foldl (fun u l => .node l u none) (.leaf (BitVec.ofNat 9 511) none) :=
  by decide

theorem witness_ReadingCommandsAreTheirTokensIterated :
    oneWord.err = .none ∧ oneWord.treeSt ≠ .none ∧ oneWord.out.closed = false ∧ oneWord.scan = .idle := by
  decide

/-- For DecompressIsItsStages too, with streams that do not fail. -/
theorem witness_CompressIsItsStages :
    ∃ s : State, s.ioFail = [] ∧ s.out.closed = false ∧ s.cur = none ∧ s.scan = .idle ∧ s.freqValid = false :=
  ⟨State.reset, rfl, rfl, rfl, rfl, rfl⟩

/-- Two words, with the least parameters that suffice. -/
def twoWords : State :=
  { onInput [0x41#8, 0x42#8] with cfg := ⟨0xFACE8201#32, some 2, some 514⟩ }

theorem twoWords_fits : InputFits twoWords.cfg 2 := by
  refine ⟨fun w h => ?_, fun k h => ?_⟩
  · obtain rfl : w = 2 := by injection h.symm
    decide
  · injection h with h
    omega

/-- For DecompressInvertsCompress and ContainerSize too. -/
theorem witness_CompressWritesTheContainer :
    Ready twoWords ∧ twoWords.inp = ⟨[0x41#8, 0x42#8], 0⟩ ∧ twoWords.out = ⟨[], false⟩ ∧
      InputFits twoWords.cfg 2 := ⟨⟨rfl, rfl⟩, rfl, rfl, twoWords_fits⟩

theorem witness_ContainerSize : ∃ t, exec .cmp twoWords = .next t := by
  rcases dispatch_cases preCmp cmpBody twoWords with h | h | ⟨-, -, ⟨t, -, h⟩ | ⟨f, p, t, -, h⟩⟩
  · exact ⟨_, h.2⟩
  · exact ⟨_, h.2.2⟩
  · exact ⟨_, h⟩
  · exact ⟨_, h⟩

/-- The container of the empty input, with a node store that just holds its tree. -/
def emptyContainer : State :=
  { onInput [0xFA#8, 0xCE#8, 0x82#8, 0x01#8, 0x60#8, 0x38#8, 0x04#8] with
    cfg := ⟨0xFACE8201#32, none, some 3⟩ }

/-- It takes seven accesses before the `Close`. With seven that succeed it is the `Close` that fails. -/
theorem witness_FailingAccessRaisesIoError_close :
    ∃ t, execAll [.rmg, .des, .dec] { emptyContainer with ioFail := [7] } = .next t ∧
      decide (t.err = .none ∧ t.ioFail = [0]) = true :=
  of_next (by decide +kernel)

/-- With eight that succeed no access fails, and with six the last read of `DEC` does. -/
theorem witness_DecompressIsItsStages :
    (∀ t l, execAll [.rmg, .des, .dec] { emptyContainer with ioFail := [8] } = .next t → t.err = .none →
      t.ioFail ≠ 0 :: l) ∧
    ∀ t l, execAll [.rmg, .des, .dec] { emptyContainer with ioFail := [6] } = .next t → t.err = .none →
      t.ioFail ≠ 0 :: l := by
  constructor
  · obtain ⟨u, h, hu⟩ : ∃ t, execAll [.rmg, .des, .dec] { emptyContainer with ioFail := [8] } = .next t ∧
        decide (t.ioFail = [1]) = true := of_next (by decide +kernel)
    intro t l ht _ hl
    obtain rfl : u = t := by injection h.symm.trans ht
    rw [of_decide_eq_true hu] at hl
    exact absurd hl (by simp)
  · obtain ⟨u, h, hu⟩ : ∃ t, execAll [.rmg, .des, .dec] { emptyContainer with ioFail := [6] } = .next t ∧
        decide (t.err = .ioError) = true := of_next (by decide +kernel)
    intro t l ht he
    obtain rfl : u = t := by injection h.symm.trans ht
    rw [of_decide_eq_true hu] at he
    cases he

theorem witness_DecompressReadsTheContainer :
    Ready emptyContainer ∧ emptyContainer.out = ⟨[], false⟩ ∧ b1.isNode = true ∧ WordPaths b1 [] ∧
      EofPath b1 [true] ∧ (∀ n, emptyContainer.cfg.nodeCap = some n → b1.nodes ≤ n) ∧
      emptyContainer.inp.rest = bitsOf 32 emptyContainer.cfg.magic.toNat
        ++ (b1.serBits ++ (pathBits [] ++ ([true] ++ [false, false]))) := by
  refine ⟨⟨rfl, rfl⟩, rfl, rfl, by simp [WordPaths], ⟨some 1, rfl⟩, fun n h => ?_, by decide +kernel⟩
  injection h with h
  subst h
  decide

theorem witness_BytesAfterTheTerminatorDoNotMatter :
    Ready emptyContainer ∧ ∃ t, exec .dcmp emptyContainer = .next t ∧ decide (t.err = .none) = true :=
  ⟨⟨rfl, rfl⟩, of_after (by decide +kernel)⟩

/-- Any list of host actions can be met between commands, in a faulted engine too. -/
theorem witness_HostActionsBetweenCommands (hs : List HostAction) :
    ∃ s u : State, BetweenCommands s ∧ s.host = hs ∧ BetweenCommands u ∧ u.err ≠ .none ∧ u.host = hs :=
  ⟨{ State.reset with host := hs }, { faulted with host := hs }, .inr ⟨rfl, rfl⟩, rfl, .inl nofun,
    nofun, rfl⟩

/-- B1 built: the invariant holds, whatever the host does next. -/
theorem builtB1_inv (hs : List HostAction) : Inv { builtB1 with host := hs } where
  streams := rfl
  faulted := fun h => absurd rfl h
  phase := fun _ => rfl
  counts := fun h => by cases h
  built := fun _ => b1_built
  parsed := fun h => by cases h
  codes := fun h => by cases h
  cur := fun p h => by cases h
  parse := fun st h => by cases h

theorem witness_HostActionsBetweenCommands_status :
    ∃ s : State, BetweenCommands s ∧ Inv s ∧ s.host = [.readReg 1] :=
  ⟨{ builtB1 with host := [.readReg 1] }, .inr ⟨rfl, rfl⟩, builtB1_inv _, rfl⟩

theorem witness_SinkHoldsAPrefixOfTheOutput :
    ∃ s : State, BetweenCommands s ∧ s.host = [.readOut] ∧ s.out.closed = true :=
  ⟨{ State.reset with host := [.readOut], out := ⟨[], true⟩ }, .inr ⟨rfl, rfl⟩, rfl, rfl⟩

theorem witness_StepRunsTheDecodedInstruction_command :
    ∃ s : State, BetweenCommands s ∧ s.host = [.writeReg 0 0xFFFF#16] ∧
      decode .command (bitsOf 4 (0xFFFF#16).toNat) = .ok (.clr, []) :=
  ⟨{ State.reset with host := [.writeReg 0 0xFFFF#16] }, .inr ⟨rfl, rfl⟩, rfl, by decide⟩

/-- Each token the last of its input. -/
theorem witness_StepRunsTheDecodedInstruction_tokens :
    decode .magic (InStream.rest ⟨[0xFA#8, 0xCE#8, 0x82#8, 0x01#8], 0⟩) = .ok (.magic 0xFACE8201, []) ∧
    decode .header (InStream.rest ⟨[0x00#8], 7⟩) = .ok (.hdrInt, []) ∧
    decode .header (InStream.rest ⟨[0x03#8, 0xFF#8], 6⟩) = .ok (.hdrLeaf 511, []) ∧
    decode .payload (InStream.rest ⟨[0x01#8], 7⟩) = .ok (.payR, []) := by decide +kernel

/-- One bit too few for each token. -/
theorem witness_StepAtTheEndOfTheInputFaults :
    (InStream.rest ⟨[0xFA#8, 0xCE#8, 0x82#8, 0x01#8], 1⟩).length = 31 ∧
    InStream.rest ⟨[0x01#8, 0xFF#8], 7⟩ = true :: bits [1,1,1,1,1,1,1,1] ∧
    InStream.rest ⟨[0x01#8], 8⟩ = [] := by decide +kernel

/-- States in the middle of each reading command. -/
theorem witness_StepAtTheEndOfTheInputFaults_states (i : InStream) :
    ∃ s u v : State, (Ready s ∧ s.scan = .magic ∧ s.inp = i) ∧
      (Ready u ∧ u.scan = .header [.left] ∧ u.inp = i) ∧
      Ready v ∧ v.scan = .idle ∧ v.cur = some [] ∧ v.inp = i :=
  ⟨{ State.reset with scan := .magic, inp := i }, { State.reset with scan := .header [.left], inp := i },
    walking h2Tree [] i, ⟨⟨rfl, rfl⟩, rfl, rfl⟩, ⟨⟨rfl, rfl⟩, rfl, rfl⟩, ⟨rfl, rfl⟩, rfl, rfl, rfl⟩

theorem witness_HistoryMarkAndSuccessfulRuns_kept :
    step faulted = .next faulted ∧ faulted.mark = true := ⟨rfl, rfl⟩

theorem witness_HistoryMarkAndSuccessfulRuns_fault :
    ∃ s t : State, step s = .next t ∧ s.err = .none ∧ t.err ≠ .none :=
  ⟨{ State.reset with host := [.writeReg 0 0#16] }, _, rfl, rfl, by decide⟩

theorem witness_HistoryMarkAndSuccessfulRuns_refusal :
    ∃ t : State, exec .fin { faulted with mark := false } = .next t ∧ Instr.fin ≠ .clr ∧
      ({ faulted with mark := false } : State).err ≠ .none :=
  ⟨_, rfl, by decide, by decide⟩

/-- A command that completes, and one that is reserved. -/
theorem witness_HistoryMarkAndSuccessfulRuns_command :
    (∃ t, exec .wmg State.reset = .next t ∧ commandCompleted .wmg State.reset t = true) ∧
    ∃ t, exec .reserved0 State.reset = .next t ∧ (!commandCompleted .reserved0 State.reset t) = true :=
  ⟨of_after (by decide +kernel), of_after (by decide +kernel)⟩

/-- A successful run: the empty input is compressed. -/
theorem witness_HistoryMarkAndSuccessfulRuns_run :
    BetweenCommands State.reset ∧ State.reset.err = .none ∧
      runSucceeded [.attachIn [], .attachOut, .writeReg 0 11#16] State.reset = true :=
  ⟨.inr ⟨rfl, rfl⟩, rfl, by decide +kernel⟩

/-- A faulted engine with the mark set, and the least parameters that suffice. -/
theorem witness_HistoryMarkAndSuccessfulRuns_recovery :
    BetweenCommands { faulted with cfg := twoWords.cfg } ∧ faulted.ioFail = [] ∧ faulted.mark = true ∧
      InputFits twoWords.cfg [0x41#8, 0x42#8].length :=
  ⟨.inl nofun, rfl, rfl, twoWords_fits⟩

/-- B1 built, and about to be coded: the invariant holds, and there is a next step. -/
theorem witness_EveryStepKeepsTheInvariant :
    ∃ s t : State, Inv s ∧ s.treeSt = .built ∧ s.host = [.writeReg 0 3#16] ∧ step s = .next t := by
  obtain ⟨t, h, -⟩ := of_after (i := .gen) (s := builtB1) (f := fun _ => true) (by decide +kernel)
  exact ⟨{ builtB1 with host := [.writeReg 0 3#16] }, t, builtB1_inv _, rfl, rfl, h⟩

end Sys2Proof.Tests
end

/-! Family `10_state.md`: the registers and the streams. -/

namespace Sys2Proof.Machine

/-! ## Reset and the invariant's base case -/

/-- Settles O7, by evaluating the reset state. -/
theorem resetStateIsClear : Obligations.ResetStateIsClear := by
  unfold Obligations.ResetStateIsClear
  decide

/-- In a state that holds nothing every clause of the invariant but those on the streams and on `ERR` speaks of
something that is not there. -/
theorem Inv.of_empty {s : State} (hw : Memory.wf s = true)
    (hf : s.err ≠ .none → s.done = false ∧ s.mark = true) (hp : s.err = .none → s.phase = .none)
    (hfreq : s.freqValid = false) (htree : s.treeSt = .none) (hcode : s.codeValid = false)
    (hcur : s.cur = none) (hscan : s.scan = .idle) : Inv s where
  streams := hw
  faulted he := ⟨hfreq, htree, hcode, hcur, hscan, hf he⟩
  phase := hp
  counts h := by simp [hfreq] at h
  built h := by simp [htree] at h
  parsed h := by simp [htree] at h
  codes h := by simp [hcode] at h
  cur p h := by simp [hcur] at h
  parse st h := by simp [hscan] at h

/-- Settles O59: the reset state holds nothing. -/
theorem invariantHoldsAtReset : Obligations.InvariantHoldsAtReset :=
  Inv.of_empty Memory.wf_reset (fun h => absurd rfl h) (fun _ => rfl) rfl rfl rfl rfl rfl

/-! ## The input -/

/-- Settles O3: the bits that are left are those of the input from the position on. -/
theorem inputBitsComeMostSignificantFirst : Obligations.InputBitsComeMostSignificantFirst := by
  intro i k hk
  have hlt : (i.pos + k) / 8 < i.data.length := by
    unfold InStream.remaining at hk
    omega
  refine ⟨i.data[(i.pos + k) / 8], List.getElem?_eq_getElem hlt, ?_⟩
  rw [InStream.rest, List.getElem?_drop, bitsOfBytes_getElem?, List.getElem?_eq_getElem hlt]
  rfl

/-! ## `STATUS` -/

theorem ErrCode.code_lt (e : ErrCode) : e.code < 16 := by cases e <;> decide

theorem Phase.code_lt (p : Phase) : p.code < 8 := by cases p <;> decide

theorem TreeSt.code_lt (t : TreeSt) : t.code < 4 := by cases t <;> decide

theorem ofBool_eq_ofNat_toNat (b : Bool) : BitVec.ofBool b = BitVec.ofNat 1 b.toNat := by cases b <;> rfl

/-- The field of `n` bits from bit `a` on of a 16-bit word. -/
theorem extractLsb'_ofNat_eq {a n x v : Nat} (hx : x < 2 ^ 16) (h : x / 2 ^ a % 2 ^ n = v) :
    (BitVec.ofNat 16 x).extractLsb' a n = BitVec.ofNat n v := by
  subst h
  apply BitVec.eq_of_toNat_eq
  rw [BitVec.extractLsb'_toNat, BitVec.toNat_ofNat, BitVec.toNat_ofNat, Nat.mod_eq_of_lt hx,
    Nat.shiftRight_eq_div_pow, Nat.mod_mod]

/-- Settles O53: the fields are the digits of a sum in a mixed base. -/
theorem statusShowsTheFlags : Obligations.StatusShowsTheFlags := by
  intro s
  have hbusy := Bool.toNat_le (busy s)
  have hdone := Bool.toNat_le s.done
  have herr := s.err.code_lt
  have hphase := s.phase.code_lt
  have hfreq := Bool.toNat_le s.freqValid
  have htree := s.treeSt.code_lt
  have hcode := Bool.toNat_le s.codeValid
  simp only [ofBool_eq_ofNat_toNat]
  unfold status
  refine ⟨?_, ?_, ?_, ?_, ?_, ?_, ?_, ?_⟩ <;> apply extractLsb'_ofNat_eq <;> omega

/-! ## What no instruction touches -/

/-- How an instruction may change the streams, and what else it leaves: as `Keeps`, but the output may be closed,
and the fault and the history mark are free. -/
structure Grows (s t : State) : Prop where
  data : t.inp.data = s.inp.data
  bits : s.out.bits <+: t.out.bits
  still : s.out.closed = true → t.out = s.out
  cfg : t.cfg = s.cfg
  host : t.host = s.host
  lastRead : t.lastRead = s.lastRead
  reads : t.reads = s.reads

theorem Keeps.grows {s t : State} (h : Keeps s t) : Grows s t :=
  ⟨h.data, h.out.bits, h.out.still, h.cfg, h.host, h.lastRead, h.reads⟩

theorem Grows.trans {a b c : State} (h : Grows a b) (k : Grows b c) : Grows a c :=
  ⟨k.data.trans h.data, h.bits.trans k.bits, fun ha => by
    have hb := h.still ha
    rw [k.still (hb ▸ ha), hb], k.cfg.trans h.cfg, k.host.trans h.host,
    k.lastRead.trans h.lastRead, k.reads.trans h.reads⟩

/-- A change of the engine's part of the state alone. -/
theorem Grows.of_streams {s t : State} (hi : t.inp = s.inp) (ho : t.out = s.out) (hc : t.cfg = s.cfg)
    (hh : t.host = s.host) (hl : t.lastRead = s.lastRead) (hr : t.reads = s.reads) : Grows s t :=
  ⟨by rw [hi], by rw [ho], fun _ => ho, hc, hh, hl, hr⟩

/-- `Close` appends the padding to an output that is open (R68). -/
theorem finBody_grows (p : Phase) {s : State} (ho : s.out.closed = false) : Grows s (finBody p s).state := by
  rcases finBody_cases p s with ⟨l, h⟩ | ⟨l, h⟩ <;> rw [h]
  · exact ⟨rfl, List.prefix_append _ _, fun hc => by simp [ho] at hc, rfl, rfl, rfl, rfl⟩
  · exact .of_streams rfl rfl rfl rfl rfl rfl

/-- Pieces of a body before its last one. -/
theorem bind_grows {α β : Type} {s₀ s : State} {x : Res α} {k : α → State → Res β} (h₀ : Keeps s₀ s)
    (hx : Keeps s x.state) (hk : ∀ a t, Keeps s₀ t → Grows s₀ (k a t).state) :
    Grows s₀ (x.bind k).state := by
  cases x with
  | ok a t => exact hk a t (h₀.trans hx)
  | raise f p t => exact (h₀.trans hx).grows

/-- `Close` as the last piece of a body that began with the output open. -/
theorem Keeps.finBody_grows {s₀ s : State} (h : Keeps s₀ s) (p : Phase) (ho : s₀.out.closed = false) :
    Grows s₀ (finBody p s).state :=
  h.grows.trans (Machine.finBody_grows p (h.out.closed.trans ho))

theorem cmpBody_grows {s : State} (ho : s.out.closed = false) : Grows s (cmpBody s).state :=
  bind_grows (discardAll_keeps s) (cntBody_keeps _) fun _ s₁ h₁ =>
    bind_grows h₁ (bldBody_keeps s₁) fun _ s₂ h₂ =>
      bind_grows h₂ (genBody_keeps s₂) fun _ s₃ h₃ =>
        bind_grows h₃ (wmgBody_keeps s₃) fun _ s₄ h₄ =>
          bind_grows h₄ (serBody_keeps s₄) fun _ s₅ h₅ =>
            bind_grows h₅ (encBody_keeps s₅) fun _ _ h₆ => h₆.finBody_grows _ ho

theorem dcmpBody_grows {s : State} (ho : s.out.closed = false) : Grows s (dcmpBody s).state :=
  bind_grows (discardAll_keeps s) (rmgBody_keeps _) fun _ s₁ h₁ =>
    bind_grows h₁ (desBody_keeps s₁) fun _ s₂ h₂ =>
      bind_grows h₂ (decBody_keeps s₂) fun _ _ h₃ => h₃.finBody_grows _ ho

/-- The dispatcher adds to a body only `DONE`, the fault and the mark. -/
theorem dispatch_grows {pre : State → Bool} {body : State → Res Unit} {s t : State}
    (hb : pre s = true → Grows (setDone s false) (body (setDone s false)).state)
    (h : dispatch pre body s = .next t) : Grows s t := by
  rcases dispatch_cases pre body s with ⟨-, e⟩ | ⟨-, -, e⟩ | ⟨-, hp, ⟨u, hu, e⟩ | ⟨f, p, u, hu, e⟩⟩ <;>
    obtain rfl := Host.Outcome.next.inj (e.symm.trans h)
  · exact .of_streams rfl rfl rfl rfl rfl rfl
  · exact .of_streams rfl rfl rfl rfl rfl rfl
  all_goals
    have hg := hb hp
    rw [hu] at hg
    exact ⟨hg.data, hg.bits, hg.still, hg.cfg, hg.host, hg.lastRead, hg.reads⟩

/-- Taking a token adds to it only `DONE`, the fault and the mark. -/
theorem takeToken_grows {token : State → Res Bool} (hk : ∀ s, Keeps s (token s).state) {s t : State}
    (h : takeToken token s = .next t) : Grows s t := by
  rcases takeToken_cases token s with ⟨-, e⟩ | ⟨-, ⟨more, u, hu, e⟩ | ⟨f, p, u, hu, e⟩⟩ <;>
    obtain rfl := Host.Outcome.next.inj (e.symm.trans h)
  · exact .of_streams rfl rfl rfl rfl rfl rfl
  all_goals
    have hg := (hk (setDone s false)).grows
    rw [hu] at hg
    exact ⟨hg.data, hg.bits, hg.still, hg.cfg, hg.host, hg.lastRead, hg.reads⟩

/-- A reserved code is a fault or a refusal (R111, R243). -/
theorem dispatchReserved_grows {s t : State} (h : dispatchReserved s = .next t) : Grows s t := by
  unfold dispatchReserved at h
  split at h <;> obtain rfl := Host.Outcome.next.inj h <;> exact .of_streams rfl rfl rfl rfl rfl rfl

theorem outOpen_iff {s : State} : outOpen s = true ↔ s.out.closed = false := by simp [outOpen]

theorem exec_grows {i : Instr} {s t : State} (h : exec i s = .next t) : Grows s t := by
  cases i with
  | cnt => exact dispatch_grows (fun _ => (cntBody_keeps _).grows) h
  | bld => exact dispatch_grows (fun _ => (bldBody_keeps _).grows) h
  | gen => exact dispatch_grows (fun _ => (genBody_keeps _).grows) h
  | wmg => exact dispatch_grows (fun _ => (wmgBody_keeps _).grows) h
  | ser => exact dispatch_grows (fun _ => (serBody_keeps _).grows) h
  | enc => exact dispatch_grows (fun _ => (encBody_keeps _).grows) h
  | fin => exact dispatch_grows (fun hp => finBody_grows _ (outOpen_iff.1 hp)) h
  | rmg => exact dispatch_grows (fun _ => (rmgBody_keeps _).grows) h
  | des => exact dispatch_grows (fun _ => (desBody_keeps _).grows) h
  | dec => exact dispatch_grows (fun _ => (decBody_keeps _).grows) h
  | cmp => exact dispatch_grows (fun hp => cmpBody_grows (outOpen_iff.1 hp)) h
  | dcmp => exact dispatch_grows (fun hp => dcmpBody_grows (outOpen_iff.1 hp)) h
  | reserved0 | reserved13 | reserved14 => exact dispatchReserved_grows h
  | clr =>
    obtain rfl := Host.Outcome.next.inj h
    exact .of_streams rfl rfl rfl rfl rfl rfl
  | magic m => exact takeToken_grows (magicToken_keeps m) h
  | hdrInt => exact takeToken_grows hdrIntToken_keeps h
  | hdrLeaf sym => exact takeToken_grows (hdrLeafToken_keeps sym) h
  | payL => exact takeToken_grows (payToken_keeps false) h
  | payR => exact takeToken_grows (payToken_keeps true) h

/-- Settles O18: what every body keeps, and `Close` on an open output. -/
theorem streamsOnlyGrow : Obligations.StreamsOnlyGrow := by
  intro i s t h
  have hg := exec_grows h
  exact ⟨hg.data, hg.bits, hg.still, hg.cfg, hg.host, hg.lastRead, hg.reads⟩

/-! ## What a step runs -/

/-- A command is that of the low four bits written to `CMD` (R33, R110). -/
theorem decode_command_eq {v : Nat} {i : Instr} (h : decode .command (bitsOf 4 v) = .ok (i, [])) :
    decodeCommand v = i := by
  have h4 := decode_command (bitsOf_length 4 v) []
  rw [List.append_nil, uint_bitsOf] at h4
  have hi := congrArg Prod.fst (Except.ok.inj (h4.symm.trans h))
  simpa [decodeCommand] using hi

/-- What is decoded as a magic number begins with its 32 bits (R91). -/
theorem decode_magic_inv {s rest : Bits} {i : Instr} (h : decode .magic s = .ok (i, rest)) :
    ∃ b : Bits, b.length = magicW ∧ s = b ++ rest ∧ i = .magic (uint b) := by
  by_cases hl : s.length < magicW
  · simp [decode, hl] at h
  · have hb : (s.take magicW).length = magicW := by rw [List.length_take]; omega
    rw [← List.take_append_drop magicW s, decode_magic hb] at h
    cases h
    exact ⟨_, hb, (List.take_append_drop magicW s).symm, rfl⟩

/-- What is decoded as a header token is the marker `0`, or the marker `1` and nine bits (R93, R94). -/
theorem decode_header_inv {s rest : Bits} {i : Instr} (h : decode .header s = .ok (i, rest)) :
    (s = false :: rest ∧ i = .hdrInt) ∨
      ∃ b : Bits, b.length = symFieldW ∧ s = true :: (b ++ rest) ∧ i = .hdrLeaf (uint b) := by
  rcases s with _ | ⟨_ | _, r⟩
  · cases h
  · rw [decode_header_int] at h
    cases h
    exact .inl ⟨rfl, rfl⟩
  · by_cases hl : r.length < symFieldW
    · simp [decode, fieldWidth, hl] at h
    · have hb : (r.take symFieldW).length = symFieldW := by rw [List.length_take]; omega
      rw [← List.take_append_drop symFieldW r, decode_header_leaf hb] at h
      cases h
      exact .inr ⟨_, hb, by rw [List.take_append_drop], rfl⟩

/-- The magic number that is read is the next 32 bits (R171). -/
theorem fetchMagic_decode {s : State} {i : Instr} {rest : Bits} (hio : s.ioFail = [])
    (h : decode .magic s.inp.rest = .ok (i, rest)) :
    fetched Instr.magic (fetchMagic s) = .run i (s.advance i.width) := by
  obtain ⟨b, hb, hr, rfl⟩ := decode_magic_inv h
  rw [fetchMagic_ok hio hr hb]
  rfl

/-- The header token that is read is the marker and its field (R174). -/
theorem fetchHeader_decode {s : State} {i : Instr} {rest : Bits} (hio : s.ioFail = [])
    (h : decode .header s.inp.rest = .ok (i, rest)) :
    fetched (fun mf => decodeHeader mf.1 mf.2) (fetchHeader s) = .run i (s.advance i.width) := by
  rcases decode_header_inv h with ⟨hr, rfl⟩ | ⟨b, hb, hr, rfl⟩
  · rw [fetchHeader_int hio hr]
    rfl
  · rw [fetchHeader_leaf hio hr hb]
    rfl

/-- The payload bit that is read is the next bit (R99, R201). -/
theorem fetchPayload_decode {s : State} {i : Instr} {rest : Bits} (hio : s.ioFail = [])
    (h : decode .payload s.inp.rest = .ok (i, rest)) :
    fetched decodePayload (fetchPayload s) = .run i (s.advance i.width) := by
  rcases hr : s.inp.rest with _ | ⟨b, r⟩ <;> rw [hr] at h
  · cases h
  · rw [fetchPayload_ok hio hr]
    cases b <;> cases h <;> rfl

/-- Settles O56: what a step fetches, space by space. -/
theorem stepRunsTheDecodedInstruction : Obligations.StepRunsTheDecodedInstruction := by
  refine ⟨fun s v rest i hb hh hd => ?_, fun s i rest ⟨he, hio⟩ hs hd => ?_,
    fun s st i rest ⟨he, hio⟩ hs hd => ?_, fun s p i rest ⟨he, hio⟩ hs hc hd => ?_⟩
  · rw [step_command hb hh, decode_command_eq hd]
  · exact step_of_run ((fetch_magic he hs).trans (fetchMagic_decode hio hd))
  · exact step_of_run ((fetch_header he hs).trans (fetchHeader_decode hio hd))
  · exact step_of_run ((fetch_payload he hs hc).trans (fetchPayload_decode hio hd))

end Sys2Proof.Machine

/-! The tree that `BLD` makes (41_tree_builder.md R147, R148), the code table that `GEN` makes of it
(42_code_table_generator.md R160), and the tree that `DES` makes (43_header_codec.md R177). -/

namespace Sys2Proof.Machine

/-! ## The merge -/

/-- The merge as an induction: what the order of the entries does not matter to, and a round keeps, holds of
the root alone in the end. -/
theorem mergeAll_induction {P : List Entry → Prop} (perm : ∀ {es es'}, es.Perm es' → P es → P es')
    (merge : ∀ {k a b es}, P (a :: b :: es) → P (mergeEntry k a b :: es)) {c : Config} {fuel k : Nat}
    {x : Entry} {xs : List Entry} {t : Tree} (h : mergeAll c fuel k x xs = some t) (hP : P (x :: xs)) :
    ∃ e, e.tree = t ∧ P [e] := by
  induction fuel generalizing k x xs with
  | zero =>
    cases xs with
    | nil => exact ⟨x, Option.some.inj h, hP⟩
    | cons y ys => cases h
  | succ fuel ih =>
    cases xs with
    | nil => exact ⟨x, Option.some.inj h, hP⟩
    | cons y ys =>
      have hfirst := perm (extractMin_perm x (y :: ys)) hP
      rw [mergeAll] at h
      split at h
      · cases h
      · rename_i z zs hrest
        split at h
        · rw [hrest] at hfirst
          exact ih h (merge (perm ((extractMin_perm z zs).cons _) hfirst))
        · cases h

/-- An entry's weight is that of its tree, whose weights add up (R141, R144). -/
def Entry.Weighed (e : Entry) : Prop := e.tree.WeightsAdd ∧ e.tree.weight = some e.weight

theorem mergeEntry_weighed {k : Nat} {a b : Entry} (ha : a.Weighed) (hb : b.Weighed) :
    (mergeEntry k a b).Weighed :=
  ⟨⟨ha.1, hb.1, a.weight, b.weight, ha.2, hb.2, rfl⟩, rfl⟩

/-- The entries are weighed, and the leaves of their trees are `ls` in some order. -/
def Forest (ls : List (Sym × Option Nat)) (es : List Entry) : Prop :=
  (∀ e ∈ es, e.Weighed) ∧ (es.flatMap fun e => e.tree.leaves).Perm ls

theorem Forest.perm {ls : List (Sym × Option Nat)} {es es' : List Entry} (h : es.Perm es')
    (hf : Forest ls es) : Forest ls es' :=
  ⟨fun e he => hf.1 e (h.mem_iff.2 he), (h.flatMap_right _).symm.trans hf.2⟩

theorem Forest.merge {ls : List (Sym × Option Nat)} {k : Nat} {a b : Entry} {es : List Entry}
    (hf : Forest ls (a :: b :: es)) : Forest ls (mergeEntry k a b :: es) := by
  obtain ⟨hw, hl⟩ := hf
  refine ⟨fun e he => ?_, by simpa [mergeEntry, Tree.leaves] using hl⟩
  rcases List.mem_cons.1 he with rfl | he
  · exact mergeEntry_weighed (hw a (by simp)) (hw b (by simp))
  · exact hw e (by simp [he])

/-- The merge keeps the leaves, and the weights of the tree it makes add up (R144, R147). -/
theorem mergeAll_weighed {c : Config} {fuel k : Nat} {x : Entry} {xs : List Entry} {t : Tree}
    {ls : List (Sym × Option Nat)} (h : mergeAll c fuel k x xs = some t) (hf : Forest ls (x :: xs)) :
    t.WeightsAdd ∧ t.leaves.Perm ls := by
  obtain ⟨e, rfl, hw, hl⟩ := mergeAll_induction Forest.perm Forest.merge h hf
  exact ⟨(hw e (by simp)).1, by simpa using hl⟩

/-! ## The entries the merge starts from -/

/-- The entry of one leaf, whose number is its symbol (R142, R143). -/
def Entry.IsLeafOf (e : Entry) : Prop :=
  e.tree = .leaf (BitVec.ofNat symFieldW e.seq) (some e.weight)

theorem leafEntry_isLeafOf {f : Vector Nat nsym} {i : Nat} {e : Entry} (h : leafEntry f i = some e) :
    e.IsLeafOf := by
  unfold leafEntry at h
  split at h
  · cases h
    rfl
  · cases h

/-- The numbers of the leaves are the symbols that occur, in order (R142). -/
theorem leafEntries_seq (f : Vector Nat nsym) :
    (leafEntries f).map Entry.seq = (List.range nsym).filter fun i => decide (freqAt f i > 0) := by
  unfold leafEntries
  induction List.range nsym with
  | nil => rfl
  | cons i is ih => by_cases h : freqAt f i > 0 <;> simp [leafEntry, h, ih]

/-- What is used of the entries the merge starts from: leaves of distinct symbols, two to 257 of them, with
that of a symbol that occurs among them (R142, R143). -/
structure StartsMerge (f : Vector Nat nsym) (es : List Entry) : Prop where
  leaf : ∀ e ∈ es, e.IsLeafOf
  distinct : (es.map Entry.seq).Nodup
  small : ∀ i ∈ es.map Entry.seq, i < 2 ^ symFieldW
  occurs : ∀ i < nsym, 0 < freqAt f i → i ∈ es.map Entry.seq
  many : (∃ i < nsym, 0 < freqAt f i) → 2 ≤ es.length
  few : es.length ≤ 257

theorem leafEntries_isLeafOf {f : Vector Nat nsym} : ∀ e ∈ leafEntries f, e.IsLeafOf := fun e he => by
  obtain ⟨i, -, hi⟩ := List.mem_filterMap.1 he
  exact leafEntry_isLeafOf hi

theorem mem_leafEntries_seq {f : Vector Nat nsym} {i : Nat} :
    i ∈ (leafEntries f).map Entry.seq ↔ i < 257 ∧ 0 < freqAt f i := by
  simp [leafEntries_seq]

theorem leafEntries_nodup (f : Vector Nat nsym) : ((leafEntries f).map Entry.seq).Nodup :=
  leafEntries_seq f ▸ List.nodup_range.filter _

theorem leafEntries_length (f : Vector Nat nsym) : (leafEntries f).length ≤ 257 := by
  have h := List.length_filter_le (fun i => decide (freqAt f i > 0)) (List.range nsym)
  rw [← leafEntries_seq] at h
  simpa using h

/-- With the placeholder there are two leaves where one symbol occurs (R143). -/
theorem startsMerge_placeholder {f : Vector Nat nsym} (h : (leafEntries f).length < 2) :
    StartsMerge f (leafEntries f ++ [placeholderEntry]) where
  leaf e he := by
    rcases List.mem_append.1 he with he | he
    · exact leafEntries_isLeafOf e he
    · obtain rfl := List.mem_singleton.1 he
      rfl
  distinct := by
    rw [List.map_append, List.nodup_append]
    refine ⟨leafEntries_nodup f, by simp, fun i hi j hj hij => ?_⟩
    have hlt := (mem_leafEntries_seq.1 hi).1
    have hj : j = 257 := List.mem_singleton.1 hj
    omega
  small i hi := by
    rw [List.map_append, List.mem_append] at hi
    show i < 512
    rcases hi with hi | hi
    · have := (mem_leafEntries_seq.1 hi).1
      omega
    · have hi : i = 257 := List.mem_singleton.1 hi
      omega
  occurs i hi hf := by
    rw [List.map_append, List.mem_append]
    exact .inl (mem_leafEntries_seq.2 ⟨hi, hf⟩)
  many := by
    rintro ⟨i, hi, hf⟩
    have := List.length_pos_of_mem (mem_leafEntries_seq.2 ⟨hi, hf⟩)
    rw [List.length_map] at this
    rw [List.length_append, List.length_singleton]
    omega
  few := by
    rw [List.length_append, List.length_singleton]
    omega

theorem startEntries_startsMerge (f : Vector Nat nsym) : StartsMerge f (startEntries f) := by
  unfold startEntries
  split
  · exact startsMerge_placeholder ‹_›
  · exact {
      leaf := leafEntries_isLeafOf
      distinct := leafEntries_nodup f
      small := fun i hi => lt_trans (mem_leafEntries_seq.1 hi).1 (by decide)
      occurs := fun i hi hf => mem_leafEntries_seq.2 ⟨hi, hf⟩
      many := fun _ => by omega
      few := leafEntries_length f }

/-- The leaves of entries that are leaves. -/
theorem leaves_of_isLeafOf {es : List Entry} (h : ∀ e ∈ es, e.IsLeafOf) :
    (es.flatMap fun e => e.tree.leaves) =
      es.map fun e => (BitVec.ofNat symFieldW e.seq, some e.weight) := by
  induction es with
  | nil => rfl
  | cons e es ih =>
    rw [List.flatMap_cons, ih fun x hx => h x (by simp [hx]), h e (by simp)]
    rfl

theorem Entry.IsLeafOf.weighed {e : Entry} (h : e.IsLeafOf) : e.Weighed := by
  unfold Entry.Weighed
  rw [h]
  exact ⟨rfl, rfl⟩

/-- Distinct numbers of at most nine bits are distinct symbols. -/
theorem nodup_map_ofNat {is : List Nat} (hd : is.Nodup) (hs : ∀ i ∈ is, i < 2 ^ symFieldW) :
    (is.map (BitVec.ofNat symFieldW)).Nodup :=
  hd.map_on fun i hi j hj h => by
    have := congrArg BitVec.toNat h
    rwa [BitVec.toNat_ofNat, BitVec.toNat_ofNat, Nat.mod_eq_of_lt (hs i hi), Nat.mod_eq_of_lt (hs j hj)] at this

theorem Tree.isNode_of_leaves {t : Tree} (h : 2 ≤ t.leaves.length) : t.isNode = true := by
  cases t with
  | leaf => simp [Tree.leaves] at h
  | node => rfl

/-- A tree that `BLD` makes of a table in which pseudo-EOF occurs has the properties of R147 and R148. -/
theorem buildTree_built {c : Config} {f : Vector Nat nsym} {t : Tree} (h : buildTree c f = some t)
    (heof : 0 < freqAt f pseudoEof) : BuiltTree t := by
  have hstart := startEntries_startsMerge f
  unfold buildTree at h
  split at h
  · cases h
  rename_i x xs hes
  split at h
  · cases h
  rename_i t' hmerge
  split at h
  swap
  · cases h
  obtain rfl := Option.some.inj h
  rw [hes] at hstart
  have hleaves := leaves_of_isLeafOf hstart.leaf
  obtain ⟨hweights, hperm⟩ :=
    mergeAll_weighed hmerge ⟨fun e he => (hstart.leaf e he).weighed, List.Perm.of_eq hleaves⟩
  have hsymbols : t'.symbols.Perm (((x :: xs).map Entry.seq).map (BitVec.ofNat symFieldW)) := by
    have := hperm.map Prod.fst
    rw [List.map_map] at this ⊢
    exact this
  have hlen : t'.leaves.length = (x :: xs).length := by rw [hperm.length_eq, List.length_map]
  have hfew := hlen ▸ hstart.few
  have hoccurs : pseudoEof ∈ (x :: xs).map Entry.seq := hstart.occurs _ (by decide) heof
  exact {
    root := Tree.isNode_of_leaves (hlen ▸ hstart.many ⟨_, by decide, heof⟩)
    weights := hweights
    distinct := hsymbols.nodup_iff.2 (nodup_map_ofNat hstart.distinct hstart.small)
    eof := hsymbols.mem_iff.2 (List.mem_map_of_mem hoccurs)
    few := hfew
    short := fun p s hp => by
      have := Tree.hasLeaf_length hp
      omega }

/-! ## The code table -/

theorem Tree.symbols_node (l r : Tree) (w : Option Nat) :
    (Tree.node l r w).symbols = l.symbols ++ r.symbols := by
  simp [Tree.symbols, Tree.leaves]

/-- A leaf of a node is one of its left subtree or one of its right subtree. -/
theorem Tree.hasLeaf_node {l r : Tree} {w : Option Nat} {p : Bits} {s : Sym} :
    (Tree.node l r w).HasLeaf p s ↔
      (∃ q, p = false :: q ∧ l.HasLeaf q s) ∨ ∃ q, p = true :: q ∧ r.HasLeaf q s := by
  cases p with
  | nil => simp [Tree.not_hasLeaf_nil]
  | cons b q => cases b <;> simp [Tree.hasLeaf_cons]

theorem codeAt_walk_leaf {x : Sym} {w : Option Nat} {i : Nat} (hi : i ≤ pseudoEof) (path : Bits)
    (c : Vector (Option Bits) nsym) :
    codeAt (walk (.leaf x w) path c) i =
      if x = BitVec.ofNat symFieldW i then some path else codeAt c i := by
  have hi : i ≤ 256 := hi
  have hx : x = BitVec.ofNat symFieldW i ↔ x.toNat = i := by
    rw [← BitVec.toNat_inj, BitVec.toNat_ofNat, Nat.mod_eq_of_lt (lt_of_le_of_lt hi (by decide))]
  simp only [walk, hx]
  split
  · rename_i h
    exact codeAt_setCode i (Nat.lt_succ_of_le h)
  · rename_i h
    have h : ¬ x.toNat ≤ 256 := h
    rw [if_neg (by omega)]

/-- `Walk` records the path of every leaf, after the path it starts with, and leaves the entries of all other
symbols (R160, R162). -/
theorem codeAt_walk {t : Tree} (hd : t.Distinct) {i : Nat} (hi : i ≤ pseudoEof) (path : Bits)
    (c : Vector (Option Bits) nsym) (p : Bits) :
    codeAt (walk t path c) i = some p ↔
      (∃ q, p = path ++ q ∧ t.HasLeaf q (BitVec.ofNat symFieldW i)) ∨
        (BitVec.ofNat symFieldW i ∉ t.symbols ∧ codeAt c i = some p) := by
  induction t generalizing path c with
  | leaf x w =>
    rw [codeAt_walk_leaf hi]
    by_cases hx : x = BitVec.ofNat symFieldW i
    · simp [hx, Tree.hasLeaf_leaf, Tree.symbols, Tree.leaves, eq_comm]
    · simp [hx, Tree.hasLeaf_leaf, Tree.symbols, Tree.leaves, eq_comm (a := BitVec.ofNat symFieldW i)]
  | node l r w ihl ihr =>
    unfold Tree.Distinct at hd
    rw [Tree.symbols_node, List.nodup_append] at hd
    obtain ⟨hl, hr, hlr⟩ := hd
    have hdisj : ∀ q, l.HasLeaf q (BitVec.ofNat symFieldW i) → BitVec.ofNat symFieldW i ∉ r.symbols :=
      fun q hq hr => hlr _ (Tree.mem_symbols.2 ⟨q, hq⟩) _ hr rfl
    rw [walk, ihr hr, ihl hl, Tree.symbols_node, List.mem_append]
    simp only [Tree.hasLeaf_node, List.append_assoc, List.singleton_append]
    constructor
    · rintro (⟨q, rfl, hq⟩ | ⟨hnr, ⟨q, rfl, hq⟩ | ⟨hnl, hc⟩⟩)
      · exact .inl ⟨true :: q, rfl, .inr ⟨q, rfl, hq⟩⟩
      · exact .inl ⟨false :: q, rfl, .inl ⟨q, rfl, hq⟩⟩
      · exact .inr ⟨fun h => h.elim hnl hnr, hc⟩
    · rintro (⟨_, rfl, ⟨q, rfl, hq⟩ | ⟨q, rfl, hq⟩⟩ | ⟨hn, hc⟩)
      · exact .inr ⟨hdisj q hq, .inl ⟨q, rfl, hq⟩⟩
      · exact .inl ⟨q, rfl, hq⟩
      · exact .inr ⟨fun h => hn (.inr h), .inr ⟨fun h => hn (.inl h), hc⟩⟩

/-- A code table of a tree whose symbols are distinct holds the paths of its leaves (R160). -/
theorem codeTable_codesOf {t : Tree} (hd : t.Distinct) : CodesOf (codeTable t) t := by
  intro i hi p
  simp [codeTable, codeAt_walk hd hi]

/-! ## The tree of a header -/

/-- The subtrees that the nodes begun hold carry no weight. -/
def Unweighted (st : List Frame) : Prop := ∀ l, Frame.right l ∈ st → l.unweighted = l

theorem Unweighted.left {st : List Frame} (h : Unweighted st) : Unweighted (.left :: st) :=
  fun l hl => h l (by simpa using hl)

/-- Completing subtrees sets no weight (R177). -/
theorem plug_unweighted {t : Tree} {st : List Frame} (ht : t.unweighted = t) (hst : Unweighted st) :
    (∀ t', plug t st = .inl t' → t'.unweighted = t') ∧ ∀ st', plug t st = .inr st' → Unweighted st' := by
  induction st generalizing t with
  | nil => exact ⟨fun t' h => Sum.inl.inj h ▸ ht, fun st' h => by cases h⟩
  | cons fr st ih =>
    have hrest : Unweighted st := fun l hl => hst l (List.mem_cons_of_mem _ hl)
    cases fr with
    | left =>
      refine ⟨fun t' h => (by cases h), fun st' h => ?_⟩
      obtain rfl := Sum.inr.inj h
      intro l hl
      rcases List.mem_cons.1 hl with hl | hl
      · exact Frame.right.inj hl ▸ ht
      · exact hrest l hl
    | right l =>
      have hl : l.unweighted = l := hst l (by simp)
      exact ih (by rw [Tree.unweighted, hl, ht]) hrest

end Sys2Proof.Machine

/-! The invariant (10_state.md) is kept by every step: what each piece of a body keeps of it, the bodies made of
these pieces, and the step. -/

namespace Sys2Proof.Machine

/-! ## What a piece of a body yields -/

/-- A piece of a body that goes on does so with `Q`; one that raises raises a fault, with the streams in
form (R240). -/
def Res.Yields {α : Type} (r : Res α) (Q : α → State → Prop) : Prop :=
  match r with
  | .ok a t => Q a t
  | .raise f _ t => f ≠ .none ∧ Memory.wf t = true

section
variable {α β : Type} {Q : α → State → Prop} {R : β → State → Prop}

theorem Res.Yields.bind {x : Res α} {k : α → State → Res β} (hx : x.Yields Q)
    (hk : ∀ a t, Q a t → (k a t).Yields R) : (x.bind k).Yields R := by
  cases x with
  | ok a t => exact hk a t hx
  | raise f p t => exact hx

theorem Res.Yields.mono {x : Res α} {Q' : α → State → Prop} (hx : x.Yields Q)
    (h : ∀ a t, Q a t → Q' a t) : x.Yields Q' := by
  cases x with
  | ok a t => exact h a t hx
  | raise f p t => exact hx

/-- A piece that goes on keeps what it keeps in every case. -/
theorem Res.Yields.with_keeps {s : State} {x : Res α} (hx : x.Yields Q) (hk : Keeps s x.state) :
    x.Yields fun a t => Q a t ∧ Keeps s t := by
  cases x with
  | ok a t => exact ⟨hx, hk⟩
  | raise f p t => exact hx

end

/-- A loop whose rounds keep `I`, and leave less to read where they go on, ends in a round that does not go
on (R283). -/
theorem loop_yields {I Q : State → Prop} {body : State → Res Bool}
    (hb : ∀ s, I s → (body s).Yields fun more t =>
      if more then I t ∧ t.inp.remaining < s.inp.remaining else Q t)
    {n : Nat} {s : State} (hn : s.inp.remaining < n) (hs : I s) :
    (loop body n s).Yields fun _ t => Q t := by
  induction n generalizing s with
  | zero => omega
  | succ n ih =>
    rw [loop_succ]
    refine (hb s hs).bind fun more t ht => ?_
    cases more with
    | false => exact ht
    | true => exact ih (by have := ht.2; omega) ht.1

/-! ## Accesses -/

/-- `t` is `s` after some accesses to its streams, which have their form; an open output is still open. -/
structure Accessed (s t : State) : Prop where
  eq : ∃ i o l, t = { s with inp := i, out := o, ioFail := l }
  closed : t.out.closed = s.out.closed
  streams : Memory.wf t = true

theorem Accessed.refl {s : State} (h : Memory.wf s = true) : Accessed s s := ⟨⟨_, _, _, rfl⟩, rfl, h⟩

theorem Accessed.trans {a b c : State} (h : Accessed a b) (k : Accessed b c) : Accessed a c := by
  obtain ⟨⟨i, o, l, rfl⟩, hc, -⟩ := h
  obtain ⟨⟨i', o', l', rfl⟩, kc, kw⟩ := k
  exact ⟨⟨i', o', l', rfl⟩, kc.trans hc, kw⟩

theorem Accessed.err {s t : State} (h : Accessed s t) : t.err = s.err := by
  obtain ⟨⟨i, o, l, rfl⟩, -, -⟩ := h; rfl

theorem Accessed.scan {s t : State} (h : Accessed s t) : t.scan = s.scan := by
  obtain ⟨⟨i, o, l, rfl⟩, -, -⟩ := h; rfl

theorem Accessed.cur {s t : State} (h : Accessed s t) : t.cur = s.cur := by
  obtain ⟨⟨i, o, l, rfl⟩, -, -⟩ := h; rfl

theorem Accessed.freqValid {s t : State} (h : Accessed s t) : t.freqValid = s.freqValid := by
  obtain ⟨⟨i, o, l, rfl⟩, -, -⟩ := h; rfl

theorem Accessed.treeSt {s t : State} (h : Accessed s t) : t.treeSt = s.treeSt := by
  obtain ⟨⟨i, o, l, rfl⟩, -, -⟩ := h; rfl

theorem Accessed.codeValid {s t : State} (h : Accessed s t) : t.codeValid = s.codeValid := by
  obtain ⟨⟨i, o, l, rfl⟩, -, -⟩ := h; rfl

/-- `ReadBits(n)` where it answers `n` bits leaves `n` bits less (R63, R64). -/
theorem readBits_yields (p : Phase) {n : Nat} (hn : 0 < n) {s : State} (h : Memory.wf s = true) :
    (readBits p n s).Yields fun r t =>
      Accessed s t ∧ (r.isSome = true → t.inp.remaining < s.inp.remaining) := by
  have hw := Memory.wf_readBits p n h
  rcases readBits_cases p n s with ⟨l, e⟩ | ⟨l, e⟩ | ⟨l, hle, e⟩ <;> rw [e] at hw ⊢
  · exact ⟨by decide, hw⟩
  · exact ⟨⟨⟨_, _, _, rfl⟩, rfl, hw⟩, fun hr => by cases hr⟩
  · refine ⟨⟨⟨_, _, _, rfl⟩, rfl, hw⟩, fun _ => ?_⟩
    simp only [InStream.remaining, State.advance]
    omega

theorem writeStr_yields (p : Phase) (b : Bits) {s : State} (h : Memory.wf s = true) :
    (writeStr p b s).Yields fun _ t => Accessed s t ∧ t.inp = s.inp := by
  have hw := Memory.wf_writeStr p b h
  rcases writeStr_cases p b s with ⟨l, e⟩ | ⟨l, e⟩ <;> rw [e] at hw ⊢
  · exact ⟨by decide, hw⟩
  · exact ⟨⟨⟨_, _, _, rfl⟩, (s.out.append_grows b).closed, hw⟩, rfl⟩

theorem writeBits_yields (p : Phase) (n v : Nat) {s : State} (h : Memory.wf s = true) :
    (writeBits p n v s).Yields fun _ t => Accessed s t ∧ t.inp = s.inp := writeStr_yields p _ h

theorem rewind_yields (p : Phase) {s : State} (h : Memory.wf s = true) :
    (rewind p s).Yields fun _ t => Accessed s t := by
  have hw := Memory.wf_rewind p h
  unfold rewind at hw ⊢
  rcases access_cases p s with ⟨l, e⟩ | ⟨l, -, e⟩ <;> rw [e] at hw ⊢
  · exact ⟨⟨_, _, _, rfl⟩, rfl, hw⟩
  · exact ⟨by decide, hw⟩

/-- A piece that reads on and needs what it reads: the end of the input is a fault. -/
theorem fetchMagic_yields {s : State} (h : Memory.wf s = true) :
    (fetchMagic s).Yields fun _ t => Accessed s t := by
  refine (readBits_yields _ (by decide) h).bind fun r t ⟨ht, _⟩ => ?_
  cases r with
  | none => exact ⟨by decide, ht.streams⟩
  | some m => exact ht

theorem fetchPayload_yields {s : State} (h : Memory.wf s = true) :
    (fetchPayload s).Yields fun _ t => Accessed s t ∧ t.inp.remaining < s.inp.remaining := by
  refine (readBits_yields _ (by decide) h).bind fun r t ⟨ht, hl⟩ => ?_
  cases r with
  | none => exact ⟨by decide, ht.streams⟩
  | some b => exact ⟨ht, hl rfl⟩

theorem fetchHeader_yields {s : State} (h : Memory.wf s = true) :
    (fetchHeader s).Yields fun _ t => Accessed s t ∧ t.inp.remaining < s.inp.remaining := by
  refine (readBits_yields _ (by decide) h).bind fun r t ⟨ht, hl⟩ => ?_
  cases r with
  | none => exact ⟨by decide, ht.streams⟩
  | some marker =>
    dsimp only
    split
    · exact ⟨ht, hl rfl⟩
    · rename_i hm
      refine (readBits_yields _ (Nat.pos_of_ne_zero hm) ht.streams).bind fun r u ⟨hu, hl'⟩ => ?_
      cases r with
      | none => exact ⟨by decide, hu.streams⟩
      | some field => exact ⟨ht.trans hu, (hl' rfl).trans (hl rfl)⟩

theorem putTree_yields (T : Tree) {s : State} (h : Memory.wf s = true) :
    (putTree T s).Yields fun _ t => Accessed s t := by
  induction T generalizing s with
  | leaf sym w =>
    exact (writeBits_yields _ _ _ h).bind fun _ t ⟨ht, _⟩ =>
      (writeBits_yields _ _ _ ht.streams).mono fun _ _ ⟨hu, _⟩ => ht.trans hu
  | node l r w ihl ihr =>
    exact (writeBits_yields _ _ _ h).bind fun _ t ⟨ht, _⟩ =>
      (ihl ht.streams).bind fun _ u hu =>
        (ihr hu.streams).mono fun _ _ hv => (ht.trans hu).trans hv

theorem writeCode_yields (sym : Nat) {s : State} (h : Memory.wf s = true) :
    (writeCode sym s).Yields fun _ t => Accessed s t ∧ t.inp = s.inp := by
  unfold writeCode
  split
  · exact ⟨by decide, h⟩
  · exact writeStr_yields _ _ h

theorem encRound_yields {s₀ s : State} (h : Accessed s₀ s) :
    (encRound s).Yields fun more t =>
      if more then Accessed s₀ t ∧ t.inp.remaining < s.inp.remaining else Accessed s₀ t := by
  refine (readBits_yields _ (by decide) h.streams).bind fun r t ⟨ht, hl⟩ => ?_
  cases r with
  | none => exact h.trans ht
  | some w =>
    refine (writeCode_yields w ht.streams).bind fun _ u ⟨hu, hi⟩ => ?_
    exact ⟨(h.trans ht).trans hu, hi ▸ hl rfl⟩

/-! ## The invariant while a command runs -/

/-- A state of an engine that is not faulted, with the invariant. -/
structure Sound (s : State) : Prop where
  inv : Inv s
  err : s.err = .none

/-- A state between the pieces of a command that no container is being read in. -/
structure Resting (s : State) : Prop extends Sound s where
  scan : s.scan = .idle
  cur : s.cur = none

theorem Sound.streams {s : State} (h : Sound s) : Memory.wf s = true := h.inv.streams

/-- While a magic number or a header is read no walk is going on (R29). -/
theorem Inv.cur_of_scan {s : State} (h : Inv s) (hs : s.scan ≠ .idle) : s.cur = none := by
  cases hc : s.cur with
  | none => rfl
  | some p =>
    obtain ⟨-, hidle, -⟩ := h.cur p hc
    exact absurd hidle hs

/-- The invariant speaks of the streams only as their form and as the output being open. -/
theorem Inv.accessed {s t : State} (h : Inv s) (ht : Accessed s t) : Inv t := by
  obtain ⟨⟨i, o, l, rfl⟩, hc, hw⟩ := ht
  exact {
    streams := hw
    faulted := h.faulted
    phase := h.phase
    counts := h.counts
    built := h.built
    parsed := h.parsed
    codes := h.codes
    cur := fun p hp => by
      obtain ⟨ht, hs, ho, hn⟩ := h.cur p hp
      exact ⟨ht, hs, hc.trans ho, hn⟩
    parse := h.parse }

theorem Sound.accessed {s t : State} (h : Sound s) (ht : Accessed s t) : Sound t :=
  ⟨h.inv.accessed ht, ht.err.trans h.err⟩

theorem Resting.accessed {s t : State} (h : Resting s) (ht : Accessed s t) : Resting t :=
  ⟨h.toSound.accessed ht, ht.scan.trans h.scan, ht.cur.trans h.cur⟩

/-- The invariant of a state that rests, clause by clause. -/
theorem Resting.intro {s : State} (hw : Memory.wf s = true) (he : s.err = .none) (hp : s.phase = .none)
    (hscan : s.scan = .idle) (hcur : s.cur = none)
    (hcounts : s.freqValid = true → freqAt s.freq pseudoEof = 1)
    (hbuilt : s.treeSt = .built → BuiltTree s.tree)
    (hparsed : s.treeSt = .parsed → s.tree.unweighted = s.tree)
    (hcodes : s.codeValid = true → BuiltTree s.tree ∧ CodesOf s.code s.tree) : Resting s where
  inv := {
    streams := hw
    faulted := fun h => absurd he h
    phase := fun _ => hp
    counts := hcounts
    built := hbuilt
    parsed := hparsed
    codes := hcodes
    cur := fun p h => by simp [hcur] at h
    parse := fun st h => by simp [hscan] at h }
  err := he
  scan := hscan
  cur := hcur

/-- Where nothing is held, the engine rests. -/
theorem Resting.of_empty {s : State} (hw : Memory.wf s = true) (he : s.err = .none) (hp : s.phase = .none)
    (hfreq : s.freqValid = false) (htree : s.treeSt = .none) (hcode : s.codeValid = false)
    (hcur : s.cur = none) (hscan : s.scan = .idle) : Resting s :=
  ⟨⟨.of_empty hw (fun h => absurd he h) (fun _ => hp) hfreq htree hcode hcur hscan, he⟩, hscan, hcur⟩

theorem Sound.phase {s : State} (h : Sound s) : s.phase = .none := h.inv.phase h.err

theorem Resting.discardAll {s : State} (h : Resting s) : Resting (discardAll s) :=
  .of_empty h.streams h.err h.phase rfl rfl rfl rfl rfl

/-- `DONE` is a matter of the invariant in a faulted engine alone. -/
theorem Sound.setDone {s : State} (h : Sound s) (b : Bool) : Sound (setDone s b) :=
  ⟨{ h.inv with faulted := fun he => absurd h.err he }, h.err⟩

theorem Resting.setDone {s : State} (h : Resting s) (b : Bool) : Resting (setDone s b) :=
  ⟨h.toSound.setDone b, h.scan, h.cur⟩

/-- A faulted engine holds nothing (R240). -/
theorem Inv.faultedWith {s : State} {f : ErrCode} (hw : Memory.wf s = true) (hf : f ≠ .none) (p : Phase) :
    Inv (s.faultedWith f p) :=
  .of_empty hw (fun _ => ⟨rfl, rfl⟩) (fun h => absurd h hf) rfl rfl rfl rfl rfl

/-- A refusal sets the history mark alone (R243). -/
theorem Inv.refuseCommand {s : State} (h : Inv s) : Inv (refuseCommand s) :=
  { h with
    faulted := fun he => by
      obtain ⟨hf, ht, hc, hcur, hs, hd, -⟩ := h.faulted he
      exact ⟨hf, ht, hc, hcur, hs, hd, rfl⟩ }

/-! ## The commands of one stage -/

/-- The counting of R130 has discarded every table; counts and the position change. -/
structure Counting (s : State) : Prop extends Resting s where
  freqValid : s.freqValid = false
  treeSt : s.treeSt = .none
  codeValid : s.codeValid = false

/-- The contents of a table that is not valid are nobody's matter. -/
theorem Counting.withFreq {s : State} (h : Counting s) (f : Vector Nat nsym) :
    Counting { s with freq := f } :=
  ⟨.of_empty h.streams h.err h.phase h.freqValid h.treeSt h.codeValid h.cur h.scan, h.freqValid, h.treeSt,
    h.codeValid⟩

theorem Counting.accessed {s t : State} (h : Counting s) (ht : Accessed s t) : Counting t :=
  ⟨h.toResting.accessed ht, ht.freqValid.trans h.freqValid, ht.treeSt.trans h.treeSt,
    ht.codeValid.trans h.codeValid⟩

theorem countWord_yields (w : Nat) {s : State} (h : Counting s) :
    (countWord w s).Yields fun _ t => Counting t ∧ t.inp = s.inp := by
  unfold countWord
  split
  · exact ⟨h.withFreq _, rfl⟩
  · exact ⟨by decide, h.streams⟩

theorem cntRound_yields {s : State} (h : Counting s) :
    (cntRound s).Yields fun more t =>
      if more then Counting t ∧ t.inp.remaining < s.inp.remaining else Counting t := by
  refine (readBits_yields _ (by decide) h.streams).bind fun r t ⟨ht, hl⟩ => ?_
  cases r with
  | none => exact h.accessed ht
  | some w =>
    exact (countWord_yields w (h.accessed ht)).bind fun _ u ⟨hu, hi⟩ => ⟨hu, hi ▸ hl rfl⟩

theorem cntBody_yields {s : State} (h : Resting s) :
    (cntBody s).Yields fun _ t => Resting t ∧ t.freqValid = true := by
  have hstart : Counting (startCount s) :=
    ⟨.of_empty h.streams h.err h.phase rfl rfl rfl h.cur h.scan, rfl, rfl, rfl⟩
  refine (loop_yields (fun _ => cntRound_yields) (Nat.lt_succ_self _) hstart).bind fun _ t ht => ?_
  unfold countEof
  split
  · refine ⟨.intro ht.streams ht.err ht.phase ht.scan ht.cur (fun _ => ?_) (fun h => ?_) (fun h => ?_)
      (fun h => ?_), rfl⟩
    · exact (freqAt_setFreq _ (by decide)).trans (if_pos rfl)
    · cases ht.treeSt.symm.trans h
    · cases ht.treeSt.symm.trans h
    · cases ht.codeValid.symm.trans h
  · exact ⟨by decide, ht.streams⟩

theorem bldBody_yields {s : State} (h : Resting s) (hf : s.freqValid = true) :
    (bldBody s).Yields fun _ t => Resting t ∧ t.treeSt = .built := by
  unfold bldBody
  split
  · rename_i T hT
    have hbuilt : BuiltTree T := buildTree_built hT (by rw [h.inv.counts hf]; decide)
    exact ⟨.intro h.streams h.err h.phase h.scan h.cur nofun (fun _ => hbuilt) nofun nofun, rfl⟩
  · exact ⟨by decide, h.streams⟩

theorem genBody_yields {s : State} (h : Resting s) (ht : s.treeSt = .built) :
    (genBody s).Yields fun _ t => Resting t :=
  have hbuilt := h.inv.built ht
  .intro h.streams h.err h.phase h.scan h.cur h.inv.counts h.inv.built h.inv.parsed
    fun _ => ⟨hbuilt, codeTable_codesOf hbuilt.distinct⟩

theorem wmgBody_yields {s : State} (h : Resting s) : (wmgBody s).Yields fun _ t => Resting t :=
  (writeBits_yields _ _ _ h.streams).mono fun _ _ ⟨ht, _⟩ => h.accessed ht

theorem serBody_yields {s : State} (h : Resting s) : (serBody s).Yields fun _ t => Resting t :=
  (putTree_yields _ h.streams).mono fun _ _ ht => h.accessed ht

theorem encBody_yields {s : State} (h : Resting s) : (encBody s).Yields fun _ t => Resting t := by
  refine (rewind_yields _ h.streams).bind fun _ s₁ h₁ => ?_
  refine (loop_yields (fun _ => encRound_yields) (Nat.lt_succ_self _) (.refl h₁.streams)).bind
    fun _ s₂ h₂ => ?_
  refine (writeCode_yields _ h₂.streams).bind fun _ s₃ ⟨h₃, _⟩ => ?_
  have hr : Resting s₃ := h.accessed ((h₁.trans h₂).trans h₃)
  exact .intro hr.streams hr.err hr.phase hr.scan hr.cur hr.inv.counts nofun nofun nofun

/-- `Close` where no walk is going on (R29). -/
theorem finBody_yields (p : Phase) {s : State} (h : Resting s) :
    (finBody p s).Yields fun _ t => Resting t := by
  have hw := Memory.wf_close p h.streams
  rcases finBody_cases p s with ⟨l, e⟩ | ⟨l, e⟩
  · rw [show close p s = _ from e] at hw
    rw [e]
    exact .intro hw h.err h.phase h.scan h.cur h.inv.counts h.inv.built h.inv.parsed h.inv.codes
  · rw [show close p s = _ from e] at hw
    rw [e]
    exact ⟨by decide, hw⟩

theorem magicToken_yields (m : Nat) {s : State} (h : Sound s) (hc : s.cur = none) :
    (magicToken m s).Yields fun _ t => Resting t := by
  unfold magicToken
  split
  · exact .intro h.streams h.err h.phase rfl hc h.inv.counts h.inv.built h.inv.parsed h.inv.codes
  · exact ⟨by decide, h.streams⟩

theorem rmgBody_yields {s : State} (h : Resting s) : (rmgBody s).Yields fun _ t => Resting t :=
  (fetchMagic_yields h.streams).bind fun m _ ht =>
    have hr := h.accessed ht
    (magicToken_yields m hr.toSound hr.cur).bind fun _ _ hu => hu

/-! ## `DES` -/

/-- A header is being parsed, with some nodes begun (R174). -/
structure Parsing (st : List Frame) (s : State) : Prop extends Sound s where
  scan : s.scan = .header st

theorem Parsing.cur {st : List Frame} {s : State} (h : Parsing st s) : s.cur = none :=
  h.inv.cur_of_scan (by simp [h.scan])

theorem Parsing.accessed {st : List Frame} {s t : State} (h : Parsing st s) (ht : Accessed s t) :
    Parsing st t := ⟨h.toSound.accessed ht, ht.scan.trans h.scan⟩

theorem Parsing.setDone {st : List Frame} {s : State} (h : Parsing st s) (b : Bool) :
    Parsing st (setDone s b) := ⟨h.toSound.setDone b, h.scan⟩

/-- A parse that goes on has no tree, and subtrees without weights (R174, R177). -/
theorem Parsing.of_unweighted {s : State} {st : List Frame} (hw : Memory.wf s = true) (he : s.err = .none)
    (hp : s.phase = .none) (hcounts : s.freqValid = true → freqAt s.freq pseudoEof = 1)
    (htree : s.treeSt = .none) (hcode : s.codeValid = false) (hcur : s.cur = none)
    (hscan : s.scan = .header st) (hst : Unweighted st) : Parsing st s where
  inv := {
    streams := hw
    faulted := fun h => absurd he h
    phase := fun _ => hp
    counts := hcounts
    built := fun h => by simp [htree] at h
    parsed := fun h => by simp [htree] at h
    codes := fun h => by simp [hcode] at h
    cur := fun p h => by simp [hcur] at h
    parse := fun st' h => by
      obtain rfl := Scan.header.inj (hscan.symm.trans h)
      exact ⟨htree, hcode, hst⟩ }
  err := he
  scan := hscan

theorem Parsing.unweighted {st : List Frame} {s : State} (h : Parsing st s) : Unweighted st :=
  (h.inv.parse st h.scan).2.2

/-- The nodes begun are another list of nodes whose subtrees carry no weight. -/
theorem Parsing.withScan {st : List Frame} {s : State} (h : Parsing st s) {st' : List Frame}
    (hst : Unweighted st') : Parsing st' { s with scan := .header st' } :=
  have ⟨htree, hcode, _⟩ := h.inv.parse st h.scan
  .of_unweighted h.streams h.err h.phase h.inv.counts htree hcode h.cur rfl hst

/-- A header token leaves the parse going on, or ends it with a parsed tree (R174, R177). -/
def AfterHeaderToken (s : State) (more : Bool) (t : State) : Prop :=
  t.inp = s.inp ∧ if more then ∃ st, Parsing st t else Resting t ∧ t.treeSt = .parsed

theorem Parsing.openNodes {st : List Frame} {s : State} (h : Parsing st s) : openNodes s = st := by
  unfold Machine.openNodes
  rw [h.scan]

theorem Parsing.inParse {st : List Frame} {s : State} (h : Parsing st s) : inParse s = s := by
  unfold Machine.inParse
  rw [h.scan]

theorem hdrIntToken_yields {st : List Frame} {s : State} (h : Parsing st s) :
    (hdrIntToken s).Yields (AfterHeaderToken s) := by
  unfold hdrIntToken
  rw [h.inParse, h.openNodes]
  split
  · exact ⟨rfl, _, h.withScan h.unweighted.left⟩
  · exact ⟨by decide, h.streams⟩

theorem hdrLeafToken_yields (sym : Nat) {st : List Frame} {s : State} (h : Parsing st s) :
    (hdrLeafToken sym s).Yields (AfterHeaderToken s) := by
  have hcode := (h.inv.parse st h.scan).2.1
  have hplug := plug_unweighted (t := .leaf (BitVec.ofNat symFieldW sym) none) rfl h.unweighted
  unfold hdrLeafToken
  rw [h.inParse, h.openNodes]
  split
  · split
    · rename_i T hT
      refine ⟨rfl, .intro h.streams h.err h.phase rfl h.cur h.inv.counts nofun
        (fun _ => hplug.1 T hT) (fun hc => ?_), rfl⟩
      cases hcode.symm.trans hc
    · rename_i st' hst
      exact ⟨rfl, _, h.withScan (hplug.2 st' hst)⟩
  · exact ⟨by decide, h.streams⟩

theorem desRound_yields {s : State} (h : ∃ st, Parsing st s) :
    (desRound s).Yields fun more t =>
      if more then (∃ st, Parsing st t) ∧ t.inp.remaining < s.inp.remaining
      else Resting t ∧ t.treeSt = .parsed := by
  obtain ⟨st, h⟩ := h
  refine (fetchHeader_yields h.streams).bind fun mf t ⟨ht, hl⟩ => ?_
  have hp := h.accessed ht
  have htoken : (if mf.1 = 0 then hdrIntToken t else hdrLeafToken mf.2 t).Yields (AfterHeaderToken t) := by
    split
    · exact hdrIntToken_yields hp
    · exact hdrLeafToken_yields _ hp
  refine htoken.mono fun more u ⟨hi, hu⟩ => ?_
  cases more with
  | false => exact hu
  | true => exact ⟨hu, hi ▸ hl⟩

theorem desBody_yields {s : State} (h : Resting s) :
    (desBody s).Yields fun _ t => Resting t ∧ t.treeSt = .parsed :=
  loop_yields (fun _ => desRound_yields) (Nat.lt_succ_self _)
    ⟨[], .of_unweighted h.streams h.err h.phase h.inv.counts rfl rfl h.cur rfl nofun⟩

/-! ## `DEC` -/

/-- A walk of `DEC` stands at a node of the tree (R29, R201). -/
structure Walking (path : Bits) (s : State) : Prop extends Sound s where
  cur : s.cur = some path

theorem Walking.accessed {path : Bits} {s t : State} (h : Walking path s) (ht : Accessed s t) :
    Walking path t := ⟨h.toSound.accessed ht, ht.cur.trans h.cur⟩

theorem Walking.setDone {path : Bits} {s : State} (h : Walking path s) (b : Bool) :
    Walking path (setDone s b) := ⟨h.toSound.setDone b, h.cur⟩

/-- The walk goes to the root, or to an internal node. -/
theorem Sound.walk_to {s : State} (h : Sound s) (ht : s.treeSt ≠ .none) (hs : s.scan = .idle)
    (ho : s.out.closed = false) {path : Bits} {n : Tree} (hn : s.tree.nodeAt path = some n)
    (hin : path = [] ∨ n.isNode = true) : Walking path { s with cur := some path } where
  inv := { h.inv with
    faulted := fun he => absurd h.err he
    cur := fun p hp => by
      obtain rfl := Option.some.inj hp
      exact ⟨ht, hs, ho, n, hn, hin⟩ }
  err := h.err
  cur := rfl

theorem Tree.nodeAt_nil (t : Tree) : t.nodeAt [] = some t := by cases t <;> rfl

/-- A move goes on to a node, or ends the walk (R201). -/
def AfterMove (s : State) (more : Bool) (t : State) : Prop :=
  t.inp = s.inp ∧ if more then ∃ path, Walking path t else Resting t

theorem payMove_yields (b : Bool) {path : Bits} {s : State} (h : Walking path s) :
    (payMove b path s).Yields (AfterMove s) := by
  obtain ⟨htree, hscan, hopen, -⟩ := h.inv.cur path h.cur
  unfold payMove
  split
  · rename_i l r w hnode
    split
    · rename_i l' r' w' hchild
      have hn : s.tree.nodeAt (path ++ [b]) = some (.node l' r' w') := by
        rw [Tree.nodeAt_append, hnode, ← hchild]
        cases b <;> exact Tree.nodeAt_nil _
      exact ⟨rfl, _, h.walk_to htree hscan hopen hn (.inr rfl)⟩
    · split
      · exact ⟨rfl, .intro h.streams h.err h.phase hscan rfl h.inv.counts nofun nofun h.inv.codes⟩
      · refine (writeBits_yields _ _ _ h.streams).bind fun _ t ⟨ht, hi⟩ => ⟨hi, [], ?_⟩
        have hw := h.accessed ht
        obtain ⟨htree, hscan, hopen, -⟩ := hw.inv.cur path hw.cur
        exact hw.walk_to htree hscan hopen (Tree.nodeAt_nil _) (.inl rfl)
  · exact ⟨by decide, h.streams⟩
  · exact ⟨by decide, h.streams⟩

theorem payToken_yields (b : Bool) {path : Bits} {s : State} (h : Walking path s) :
    (payToken b s).Yields (AfterMove s) := by
  unfold payToken
  rw [h.cur]
  exact payMove_yields b h

theorem decRound_yields {s : State} (h : ∃ path, Walking path s) :
    (decRound s).Yields fun more t =>
      if more then (∃ path, Walking path t) ∧ t.inp.remaining < s.inp.remaining else Resting t := by
  obtain ⟨path, h⟩ := h
  refine (fetchPayload_yields h.streams).bind fun b t ⟨ht, hl⟩ => ?_
  refine (payToken_yields _ (h.accessed ht)).mono fun more u ⟨hi, hu⟩ => ?_
  cases more with
  | false => exact hu
  | true => exact ⟨hu, hi ▸ hl⟩

theorem decBody_yields {s : State} (h : Resting s) (ht : s.treeSt ≠ .none) (ho : s.out.closed = false) :
    (decBody s).Yields fun _ t => Resting t :=
  loop_yields (fun _ => decRound_yields) (Nat.lt_succ_self _)
    ⟨[], h.walk_to ht h.scan ho (Tree.nodeAt_nil _) (.inl rfl)⟩

/-! ## The composite commands -/

theorem cmpBody_yields {s : State} (h : Resting s) : (cmpBody s).Yields fun _ t => Resting t :=
  (cntBody_yields h.discardAll).bind fun _ _ ⟨h₁, hf⟩ =>
    (bldBody_yields h₁ hf).bind fun _ _ ⟨h₂, ht⟩ =>
      (genBody_yields h₂ ht).bind fun _ _ h₃ =>
        (wmgBody_yields h₃).bind fun _ _ h₄ =>
          (serBody_yields h₄).bind fun _ _ h₅ =>
            (encBody_yields h₅).bind fun _ _ h₆ => finBody_yields _ h₆

theorem dcmpBody_yields {s : State} (h : Resting s) (ho : s.out.closed = false) :
    (dcmpBody s).Yields fun _ t => Resting t :=
  ((rmgBody_yields h.discardAll).with_keeps (rmgBody_keeps _)).bind fun _ _ ⟨h₁, k₁⟩ =>
    ((desBody_yields h₁).with_keeps (desBody_keeps _)).bind fun _ _ ⟨⟨h₂, ht⟩, k₂⟩ =>
      have hopen := (k₁.trans k₂).out.closed.trans ho
      (decBody_yields h₂ (by simp [ht]) hopen).bind fun _ _ h₃ => finBody_yields _ h₃

/-! ## Commands and tokens -/

/-- A command keeps the invariant where its body does (R215). -/
theorem dispatch_inv {pre : State → Bool} {body : State → Res Unit} {s t : State} (h : Inv s)
    (hscan : s.scan = .idle) (hcur : s.cur = none)
    (hb : pre s = true → Resting (setDone s false) → (body (setDone s false)).Yields fun _ t => Resting t)
    (ht : dispatch pre body s = .next t) : Inv t := by
  rcases dispatch_cases pre body s with ⟨-, e⟩ | ⟨-, -, e⟩ | ⟨he, hp, hrun⟩
  · obtain rfl := Host.Outcome.next.inj (e.symm.trans ht)
    exact h.refuseCommand
  · obtain rfl := Host.Outcome.next.inj (e.symm.trans ht)
    exact .faultedWith h.streams (by decide) _
  · have hbody := hb hp ⟨(Sound.mk h he).setDone false, hscan, hcur⟩
    rcases hrun with ⟨u, hu, e⟩ | ⟨f, p, u, hu, e⟩ <;> rw [hu] at hbody <;>
      obtain rfl := Host.Outcome.next.inj (e.symm.trans ht)
    · exact (Resting.setDone hbody true).inv
    · exact .faultedWith hbody.2 hbody.1 _

theorem dispatchReserved_inv {s t : State} (h : Inv s) (ht : dispatchReserved s = .next t) : Inv t := by
  unfold dispatchReserved at ht
  split at ht <;> obtain rfl := Host.Outcome.next.inj ht
  · exact h.refuseCommand
  · exact .faultedWith (s := setDone s false) h.streams (by decide) _

theorem hasTree_iff {s : State} : hasTree s = true ↔ s.treeSt ≠ .none := by simp [hasTree]

/-- A command that the host writes keeps the invariant: it finds no container being read (R277). -/
theorem exec_command_inv {i : Instr} {s t : State} (hi : i.space = .command) (h : Inv s)
    (hscan : s.scan = .idle) (hcur : s.cur = none) (ht : exec i s = .next t) : Inv t := by
  cases i with
  | cnt => exact dispatch_inv h hscan hcur (fun _ hr => (cntBody_yields hr).mono fun _ _ k => k.1) ht
  | bld => exact dispatch_inv h hscan hcur (fun hp hr => (bldBody_yields hr hp).mono fun _ _ k => k.1) ht
  | gen => exact dispatch_inv h hscan hcur (fun hp hr => genBody_yields hr (of_decide_eq_true hp)) ht
  | wmg => exact dispatch_inv h hscan hcur (fun _ hr => wmgBody_yields hr) ht
  | ser => exact dispatch_inv h hscan hcur (fun _ hr => serBody_yields hr) ht
  | enc => exact dispatch_inv h hscan hcur (fun _ hr => encBody_yields hr) ht
  | fin => exact dispatch_inv h hscan hcur (fun _ hr => finBody_yields _ hr) ht
  | rmg => exact dispatch_inv h hscan hcur (fun _ hr => rmgBody_yields hr) ht
  | des => exact dispatch_inv h hscan hcur (fun _ hr => (desBody_yields hr).mono fun _ _ k => k.1) ht
  | dec =>
    refine dispatch_inv h hscan hcur (fun hp hr => ?_) ht
    obtain ⟨htree, hopen⟩ := Bool.and_eq_true_iff.1 hp
    exact decBody_yields hr (hasTree_iff.1 htree) (outOpen_iff.1 hopen)
  | cmp => exact dispatch_inv h hscan hcur (fun _ hr => cmpBody_yields hr) ht
  | dcmp => exact dispatch_inv h hscan hcur (fun hp hr => dcmpBody_yields hr (outOpen_iff.1 hp)) ht
  | reserved0 | reserved13 | reserved14 => exact dispatchReserved_inv h ht
  | clr =>
    obtain rfl := Host.Outcome.next.inj ht
    exact .of_empty h.streams (fun he => absurd rfl he) (fun _ => rfl) rfl rfl rfl rfl rfl
  | magic | hdrInt | hdrLeaf | payL | payR => cases hi

/-- A token keeps the invariant where what it does keeps it (log 14). -/
theorem takeToken_inv {token : State → Res Bool} {s t : State} (he : s.err = .none)
    (hb : (token (setDone s false)).Yields fun _ t => Sound t) (ht : takeToken token s = .next t) : Inv t := by
  rcases takeToken_cases token s with ⟨hne, -⟩ | ⟨-, ⟨more, u, hu, e⟩ | ⟨f, p, u, hu, e⟩⟩
  · exact absurd he hne
  all_goals
    rw [hu] at hb
    obtain rfl := Host.Outcome.next.inj (e.symm.trans ht)
  · exact (Sound.setDone hb _).inv
  · exact .faultedWith hb.2 hb.1 _

theorem AfterHeaderToken.sound {s t : State} {more : Bool} (h : AfterHeaderToken s more t) : Sound t := by
  obtain ⟨-, h⟩ := h
  cases more with
  | false => exact h.1.toSound
  | true =>
    obtain ⟨st, hst⟩ := h
    exact hst.toSound

theorem AfterMove.sound {s t : State} {more : Bool} (h : AfterMove s more t) : Sound t := by
  obtain ⟨-, h⟩ := h
  cases more with
  | false => exact h.toSound
  | true =>
    obtain ⟨path, hpath⟩ := h
    exact hpath.toSound

theorem exec_magic_inv {m : Nat} {s t : State} (h : Sound s) (hscan : s.scan = .magic)
    (ht : exec (.magic m) s = .next t) : Inv t :=
  have hcur := h.inv.cur_of_scan (by simp [hscan])
  takeToken_inv h.err ((magicToken_yields m (h.setDone false) hcur).mono fun _ _ k => k.toSound) ht

theorem exec_header_inv {marker field : Nat} {st : List Frame} {s t : State} (h : Parsing st s)
    (ht : exec (decodeHeader marker field) s = .next t) : Inv t := by
  unfold decodeHeader at ht
  split at ht
  · exact takeToken_inv h.err ((hdrIntToken_yields (h.setDone false)).mono fun _ _ k => k.sound) ht
  · exact takeToken_inv h.err ((hdrLeafToken_yields _ (h.setDone false)).mono fun _ _ k => k.sound) ht

theorem exec_payload_inv {b : Nat} {path : Bits} {s t : State} (h : Walking path s)
    (ht : exec (decodePayload b) s = .next t) : Inv t := by
  unfold decodePayload at ht
  split at ht <;>
    exact takeToken_inv h.err ((payToken_yields _ (h.setDone false)).mono fun _ _ k => k.sound) ht

/-! ## The step -/

/-- Between commands no container is being read, in a faulted engine either (R240, R277). -/
theorem Inv.between {s : State} (h : Inv s) (hb : BetweenCommands s) : s.scan = .idle ∧ s.cur = none := by
  rcases hb with he | hb
  · obtain ⟨-, -, -, hcur, hscan, -⟩ := h.faulted he
    exact ⟨hscan, hcur⟩
  · exact hb

theorem decodeCommand_space (v : Nat) : (decodeCommand v).space = .command := by
  unfold decodeCommand
  split <;> rfl

/-- The host's list and what it read are no matter of the invariant. -/
theorem Inv.withHost {s : State} (h : Inv s) (hs : List HostAction) (r : HostRead) (n : Nat) :
    Inv { s with host := hs, lastRead := r, reads := n } :=
  ⟨h.streams, h.faulted, h.phase, h.counts, h.built, h.parsed, h.codes, h.cur, h.parse⟩

/-- A new output between commands: no walk is going on that would write to it (R273). -/
theorem Inv.attachOutput {s : State} (h : Inv s) (hcur : s.cur = none) : Inv (attachOutput s) :=
  { h with
    streams := Memory.wf_attachOutput h.streams
    cur := fun p hp => by cases hcur.symm.trans hp }

/-- What an action of the host runs is a command, at the state the host finds (R33). -/
theorem hostAction_run {a : HostAction} {i : Instr} {s u : State} (h : hostAction a s = .run i u) :
    i.space = .command ∧ u = s := by
  cases a with
  | writeReg reg v =>
    match reg, h with
    | 0, h =>
      cases h
      exact ⟨decodeCommand_space _, rfl⟩
    | 1, h => cases h
    | _ + 2, h => cases h
  | readReg reg =>
    rw [hostAction] at h
    split at h <;> cases h
  | attachIn | attachOut | readOut | reset => cases h

/-- An action of the host that runs no command keeps the invariant (R273). -/
theorem hostAction_inv {a : HostAction} {s t : State} (h : Inv s) (hcur : s.cur = none)
    (ht : hostAction a s = .stop (.next t)) : Inv t := by
  cases a with
  | attachIn bytes =>
    cases ht
    exact h.accessed ⟨⟨_, _, _, rfl⟩, rfl, Memory.wf_attachInput bytes h.streams⟩
  | attachOut =>
    cases ht
    exact h.attachOutput hcur
  | writeReg reg v =>
    match reg, ht with
    | 0, ht => cases ht
    | 1, ht =>
      cases ht
      exact h
    | _ + 2, ht => cases ht
  | readReg reg =>
    rw [hostAction] at ht
    split at ht <;> cases ht
    exact h.withHost _ _ _
  | readOut =>
    cases ht
    exact h.withHost _ _ _
  | reset =>
    cases ht
    exact .of_empty h.streams (fun he => absurd rfl he) (fun _ => rfl) rfl rfl rfl rfl rfl

/-- A step between commands (R273, R277). -/
theorem step_between_inv {s t : State} (h : Inv s) (hb : BetweenCommands s) (ht : step s = .next t) :
    Inv t := by
  obtain ⟨hscan, hcur⟩ := h.between hb
  cases hh : s.host with
  | nil =>
    obtain rfl := Host.Outcome.next.inj ((step_idle hb hh).symm.trans ht)
    exact h
  | cons a rest =>
    have h' : Inv { s with host := rest } := h.withHost _ _ _
    rw [step_between hb hh] at ht
    split at ht
    · rename_i i u hrun
      obtain ⟨hi, rfl⟩ := hostAction_run hrun
      exact exec_command_inv hi h' hscan hcur ht
    · rename_i o hstop
      exact hostAction_inv h' hcur (ht ▸ hstop)

/-- A step that reads a token: it runs, or reading it is a fault (R240). -/
theorem step_fetched_inv {α : Type} {toInstr : α → Instr} {r : Res α} {Q : α → State → Prop} {s t : State}
    (hf : fetch s = fetched toInstr r) (hr : r.Yields Q)
    (hrun : ∀ a u, Q a u → exec (toInstr a) u = .next t → Inv t) (ht : step s = .next t) : Inv t := by
  cases r with
  | ok a u => exact hrun a u hr (step_of_run hf ▸ ht)
  | raise f p u =>
    obtain rfl := Host.Outcome.next.inj ((step_of_stop hf).symm.trans ht)
    exact .faultedWith hr.2 hr.1 p

/-- Settles O60: between commands the host acts, and a command keeps the invariant through its stages; while a
container is read the next token is taken, which keeps what is parsed or where the walk stands. -/
theorem everyStepKeepsTheInvariant : Obligations.EveryStepKeepsTheInvariant := by
  intro s t h ht
  by_cases hb : BetweenCommands s
  · exact step_between_inv h hb ht
  · have he : s.err = .none := by_contra fun hne => hb (.inl hne)
    have hs : Sound s := ⟨h, he⟩
    cases hscan : s.scan with
    | magic =>
      exact step_fetched_inv (fetch_magic he hscan) (fetchMagic_yields h.streams)
        (fun _ _ hu => exec_magic_inv (hs.accessed hu) (hu.scan.trans hscan)) ht
    | header st =>
      have hp : Parsing st s := ⟨hs, hscan⟩
      exact step_fetched_inv (fetch_header he hscan) (fetchHeader_yields h.streams)
        (fun _ _ hu => exec_header_inv (hp.accessed hu.1)) ht
    | idle =>
      cases hcur : s.cur with
      | none => exact absurd (.inr ⟨hscan, hcur⟩) hb
      | some path =>
        have hw : Walking path s := ⟨hs, hcur⟩
        exact step_fetched_inv (fetch_payload he hscan hcur) (fetchPayload_yields h.streams)
          (fun _ _ hu => exec_payload_inv (hw.accessed hu.1)) ht

end Sys2Proof.Machine

/-! Family `20_memory.md`: what the streams give and take. -/

namespace Sys2Proof.Machine

/-! ## Reading -/

/-- `ReadBits(n)` where `n` bits are left, said of the next `n` bits (R63). -/
theorem readBits_take {p : Phase} {n : Nat} {s : State} (hio : s.ioFail = []) (hn : 0 < n)
    (h : n ≤ s.inp.rest.length) :
    readBits p n s = .ok (some (uint (s.inp.rest.take n))) (s.advance n) :=
  readBits_some hio (List.take_append_drop n _).symm (List.length_take_of_le h) hn

theorem uint_take_lt {n : Nat} {b : Bits} (h : n ≤ b.length) : uint (b.take n) < 2 ^ n := by
  simpa [List.length_take_of_le h] using uint_lt (b.take n)

/-- Settles O4: the bits that are left decide which. -/
theorem readBitsReturnsOrSignalsEnd : Obligations.ReadBitsReturnsOrSignalsEnd := by
  intro p n s hn hio
  have hl : s.inp.rest.length = 8 * s.inp.data.length - s.inp.pos := s.inp.rest_length
  refine ⟨fun h => ?_, fun h => readBits_eod hio (by omega)⟩
  have hle : n ≤ s.inp.rest.length := by omega
  exact ⟨readBits_take hio hn hle, uint_take_lt hle⟩

/-- A field is its first bit and the field of the bits after it (R61). -/
theorem uint_take_succ {n : Nat} {b : Bool} {rest : Bits} (h : n ≤ rest.length) :
    uint ((b :: rest).take (n + 1)) = b.toNat * 2 ^ n + uint (rest.take n) := by
  rw [List.take_succ_cons, uint_cons, List.length_take_of_le h]

/-- Settles O5: the nine bits are one bit and the eight after it. -/
theorem fieldsAreMostSignificantFirst : Obligations.FieldsAreMostSignificantFirst := by
  refine ⟨uint_bitsOf, fun p s hio h9 => ?_⟩
  rw [← InStream.rest_length] at h9
  cases hr : s.inp.rest with
  | nil => simp [hr] at h9
  | cons b rest =>
    have hrest : (s.advance 1).inp.rest = rest := State.advance_rest (b := [b]) hr rfl
    have h8 : 8 ≤ rest.length := by simpa [hr] using h9
    refine ⟨b.toNat, uint (rest.take 8), s.advance 1, s.advance 9, readBits_one hio hr, ?_, ?_⟩
    · rw [readBits_take (s := s.advance 1) hio (by decide) (hrest.symm ▸ h8), hrest]
      rfl
    · rw [readBits_take hio (by decide) h9, hr, uint_take_succ h8]
      rfl

/-! ## Words -/

/-- The words to the end of the input are the byte view of the bits that are left (R71, R37). -/
theorem InStream.words_eq_bytes (i : InStream) : i.words = (bytesOfBits i.rest).map BitVec.toNat := by
  unfold InStream.words bytesOfBits
  rw [List.map_map, InStream.rest_length]
  refine List.map_congr_left fun k _ => ?_
  have hlt : uint ((i.rest.drop (8 * k)).take 8) < 2 ^ 8 :=
    (uint_lt _).trans_le (Nat.pow_le_pow_right (by decide) (List.length_take_le 8 _))
  exact (Nat.mod_eq_of_lt hlt).symm

/-- The bits after some bytes are the bits of the bytes after them (R36). -/
theorem bitsOfBytes_drop (data : List Byte) (k : Nat) :
    (bitsOfBytes data).drop (8 * k) = bitsOfBytes (data.drop k) := by
  induction data generalizing k with
  | nil => simp
  | cons b bs ih =>
    cases k with
    | zero => rfl
    | succ k =>
      rw [show 8 * (k + 1) = 8 + 8 * k by omega, ← List.drop_drop, bitsOfBytes_cons,
        List.drop_left' (byteBits_length b), ih, List.drop_succ_cons]

/-- Settles O6: the bits that are left are those of the bytes from `k₀` on. -/
theorem wordsOfAnAlignedInputAreItsBytes : Obligations.WordsOfAnAlignedInputAreItsBytes := by
  intro data k₀
  rw [InStream.words_eq_bytes, InStream.rest, bitsOfBytes_drop, bytesOfBits_bitsOfBytes]

/-! ## The sink -/

/-- The sink holds a prefix of the whole bytes written, whatever the free value (R68, R241). -/
theorem sinkBytes_prefix (s : State) : sinkBytes s <+: bytesOfBits s.out.bits := by
  unfold sinkBytes OutStream.bytes
  split
  · exact List.prefix_rfl
  · exact List.take_prefix ..

theorem sinkBytes_closed {s : State} (h : s.out.closed = true) : sinkBytes s = bytesOfBits s.out.bits := by
  rw [sinkBytes, if_pos h]
  rfl

/-- Settles O55: what the sink holds, and that a look at it is one step of the host. -/
theorem sinkHoldsAPrefixOfTheOutput : Obligations.SinkHoldsAPrefixOfTheOutput := by
  intro s rest hb hh
  refine ⟨sinkBytes s, sinkBytes_prefix s, sinkBytes_closed, ?_⟩
  rw [step_between hb hh]
  rfl

end Sys2Proof.Machine

/-! Accesses that fail (20_memory.md R78): how a piece of a body ends with any plan of failures, told by how it ends
with none; then the same of an instruction. -/

namespace Sys2Proof.Machine

/-! ## Plans of failures -/

/-- The state with another plan of failures. -/
def State.withPlan (s : State) (l : List Nat) : State := { s with ioFail := l }

/-- The end of a piece with its state changed. -/
def Res.mapState {α : Type} (g : State → State) : Res α → Res α
  | .ok a s => .ok a (g s)
  | .raise f p s => .raise f p (g s)

/-- `f l` is how a piece ends with the plan `l`, begun with `o` written: it only appends to `o`, and makes a number
of accesses, each in one of the phases `ps`. A failure planned after them is left over; one planned among them raises
`IoError`, with what was written before it. -/
structure Metered {α : Type} (ps : List Phase) (o : Bits) (f : List Nat → Res α) : Prop where
  writes : o <+: (f []).state.out.bits
  plan : (f []).state.ioFail = []
  count : ∃ N, ∀ n l, f ((n + N) :: l) = (f []).mapState (State.withPlan · (n :: l)) ∧
    (n < N → ∃ p ∈ ps, ∃ t, f (n :: l) = .raise .ioError p t ∧ t.ioFail = l ∧
      t.out.bits <+: (f []).state.out.bits)

section
variable {α β : Type} {ps : List Phase} {o : Bits}

/-- A piece without an access. -/
theorem Metered.blind {x : Res α} (ho : o <+: x.state.out.bits) :
    Metered ps o fun l => x.mapState (State.withPlan · l) := by
  cases x <;> exact ⟨ho, rfl, 0, fun n l => ⟨rfl, fun h => absurd h n.not_lt_zero⟩⟩

theorem Metered.ok (a : α) (s : State) : Metered ps s.out.bits fun l => .ok a (s.withPlan l) :=
  .blind (x := .ok a s) List.prefix_rfl

theorem Metered.raise (f : ErrCode) (p : Phase) (s : State) :
    Metered ps s.out.bits fun l => (.raise f p (s.withPlan l) : Res α) :=
  .blind (x := .raise f p s) List.prefix_rfl

/-- A branch on something that no plan of failures changes. -/
theorem Metered.ite (c : Prop) [Decidable c] {f g : List Nat → Res α} (hf : c → Metered ps o f)
    (hg : ¬c → Metered ps o g) : Metered ps o fun l => if c then f l else g l := by
  by_cases h : c
  · simpa only [h, if_true] using hf h
  · simpa only [h, if_false] using hg h

theorem Metered.mono {ps' : List Phase} {f : List Nat → Res α} (h : Metered ps o f) (hs : ps ⊆ ps') :
    Metered ps' o f := by
  obtain ⟨N, hN⟩ := h.count
  refine ⟨h.writes, h.plan, N, fun n l => ⟨(hN n l).1, fun hn => ?_⟩⟩
  obtain ⟨p, hp, t, ht⟩ := (hN n l).2 hn
  exact ⟨p, hs hp, t, ht⟩

/-- Pieces in a row make the accesses of the one and then those of the other. -/
theorem Metered.bind {f : List Nat → Res α} {k : α → State → Res β} (hf : Metered ps o f)
    (hk : ∀ a (s : State), Metered ps s.out.bits fun l => k a (s.withPlan l)) :
    Metered ps o fun l => (f l).bind k := by
  obtain ⟨hw, hp, N, hN⟩ := hf
  cases hx : f [] with
  | raise e p t =>
    simp only [hx, Res.state_raise, Res.mapState] at hw hp hN
    refine ⟨by simpa [hx] using hw, by simpa [hx] using hp, N, fun n l => ?_⟩
    simp only [hx, Res.bind_raise, Res.state_raise, Res.mapState]
    refine ⟨by rw [(hN n l).1, Res.bind_raise], fun hn => ?_⟩
    obtain ⟨p', hp', t', ht', h⟩ := (hN n l).2 hn
    exact ⟨p', hp', t', by rw [ht', Res.bind_raise], h⟩
  | ok a s =>
    simp only [hx, Res.state_ok, Res.mapState] at hw hp hN
    obtain ⟨hw', hp', M, hM⟩ := hk a s
    have hs : s.withPlan [] = s := by rw [← hp]; rfl
    simp only [hs] at hw' hp' hM
    refine ⟨by simpa [hx] using hw.trans hw', by simpa [hx] using hp', M + N, fun n l => ?_⟩
    simp only [hx, Res.bind_ok]
    refine ⟨by rw [← Nat.add_assoc, (hN _ l).1, Res.bind_ok, (hM n l).1], fun hn => ?_⟩
    by_cases hlt : n < N
    · obtain ⟨p, hps, t, ht, hl, ht'⟩ := (hN n l).2 hlt
      exact ⟨p, hps, t, by rw [ht, Res.bind_raise], hl, ht'.trans hw'⟩
    · obtain ⟨m, rfl⟩ := Nat.exists_eq_add_of_le' (Nat.le_of_not_lt hlt)
      rw [(hN m l).1, Res.bind_ok]
      exact (hM m l).2 (by omega)

/-- A loop makes the accesses of its rounds. -/
theorem Metered.loop {body : State → Res Bool}
    (hb : ∀ s : State, Metered ps s.out.bits fun l => body (s.withPlan l)) (n : Nat) (s : State) :
    Metered ps s.out.bits fun l => loop body n (s.withPlan l) := by
  induction n generalizing s with
  | zero => exact .ok () s
  | succ n ih =>
    refine .bind (hb s) fun more t => ?_
    cases more
    · exact .ok () t
    · exact ih t

end

/-! ## The accesses of the bodies -/

/-- One access (log 5). -/
theorem access_metered (p : Phase) (s : State) :
    Metered [p] s.out.bits fun l => access p (s.withPlan l) := by
  refine ⟨List.prefix_rfl, rfl, 1, fun n l => ⟨rfl, fun hn => ?_⟩⟩
  obtain rfl : n = 0 := by omega
  exact ⟨p, List.mem_singleton_self p, s.withPlan l, access_fails rfl, rfl, List.prefix_rfl⟩

theorem readBits_metered (p : Phase) (n : Nat) (s : State) :
    Metered [p] s.out.bits fun l => readBits p n (s.withPlan l) := by
  refine .bind (access_metered p s) fun _ t => ?_
  exact .ite (t.inp.pos + n ≤ 8 * t.inp.data.length)
    (fun _ => .ok (some (uint (t.inp.rest.take n))) (t.advance n)) fun _ => .ok none t

theorem writeStr_metered (p : Phase) (b : Bits) (s : State) :
    Metered [p] s.out.bits fun l => writeStr p b (s.withPlan l) :=
  .bind (access_metered p s) fun _ t =>
    .blind (x := .ok () { t with out := t.out.append b }) (t.out.append_grows b).bits

theorem rewind_metered (p : Phase) (s : State) :
    Metered [p] s.out.bits fun l => rewind p (s.withPlan l) :=
  .bind (access_metered p s) fun _ t => .ok () { t with inp := { t.inp with pos := 0 } }

theorem finBody_metered (p : Phase) (s : State) :
    Metered [p] s.out.bits fun l => finBody p (s.withPlan l) :=
  .bind (access_metered p s) fun _ t =>
    .blind (x := .ok () { t with out := ⟨padToByte t.out.bits, true⟩ }) (List.prefix_append ..)

theorem countWord_metered {ps : List Phase} (w : Nat) (s : State) :
    Metered ps s.out.bits fun l => countWord w (s.withPlan l) :=
  .ite (fitsCount s.cfg (freqAt s.freq w + 1) = true)
    (fun _ => .ok () { s with freq := setFreq s.freq w (freqAt s.freq w + 1) }) fun _ => .raise _ _ s

theorem countEof_metered {ps : List Phase} (s : State) :
    Metered ps s.out.bits fun l => countEof (s.withPlan l) :=
  .ite (fitsCount s.cfg 1 = true)
    (fun _ => .ok () { s with freq := setFreq s.freq pseudoEof 1, freqValid := true }) fun _ => .raise _ _ s

theorem cntRound_metered (s : State) : Metered [.count] s.out.bits fun l => cntRound (s.withPlan l) := by
  refine .bind (readBits_metered _ _ s) fun r t => ?_
  cases r with
  | none => exact .ok false t
  | some w => exact .bind (countWord_metered w t) fun _ u => .ok true u

theorem cntBody_metered (s : State) : Metered [.count] s.out.bits fun l => cntBody (s.withPlan l) :=
  .bind (.loop cntRound_metered (s.inp.remaining + 1) (startCount s)) fun _ t => countEof_metered t

theorem bldBody_metered {ps : List Phase} (s : State) :
    Metered ps s.out.bits fun l => bldBody (s.withPlan l) := by
  unfold bldBody
  simp only [State.withPlan]
  split
  · exact .ok () { s with tree := _, treeSt := .built, freqValid := false, codeValid := false }
  · exact .raise _ _ s

theorem genBody_metered {ps : List Phase} (s : State) :
    Metered ps s.out.bits fun l => genBody (s.withPlan l) :=
  .ok () { s with code := codeTable s.tree, codeValid := true }

theorem wmgBody_metered (s : State) : Metered [.headerWrite] s.out.bits fun l => wmgBody (s.withPlan l) :=
  writeStr_metered _ (bitsOf magicW s.cfg.magic.toNat) s

theorem putTree_metered (t : Tree) (s : State) :
    Metered [.headerWrite] s.out.bits fun l => putTree t (s.withPlan l) := by
  induction t generalizing s with
  | leaf sym w => exact .bind (writeStr_metered _ _ s) fun _ u => writeStr_metered _ _ u
  | node l r w ihl ihr =>
    exact .bind (writeStr_metered _ _ s) fun _ u => .bind (ihl u) fun _ v => ihr v

theorem serBody_metered (s : State) : Metered [.headerWrite] s.out.bits fun l => serBody (s.withPlan l) :=
  putTree_metered s.tree s

theorem writeCode_metered (sym : Nat) (s : State) :
    Metered [.payloadEncode] s.out.bits fun l => writeCode sym (s.withPlan l) := by
  unfold writeCode
  simp only [State.withPlan]
  cases codeAt s.code sym with
  | none => exact .raise _ _ s
  | some b => exact writeStr_metered _ b s

theorem encRound_metered (s : State) :
    Metered [.payloadEncode] s.out.bits fun l => encRound (s.withPlan l) := by
  refine .bind (readBits_metered _ _ s) fun r t => ?_
  cases r with
  | none => exact .ok false t
  | some w => exact .bind (writeCode_metered w t) fun _ u => .ok true u

theorem encBody_metered (s : State) : Metered [.payloadEncode] s.out.bits fun l => encBody (s.withPlan l) :=
  .bind (rewind_metered _ s) fun _ t =>
    .bind (.loop encRound_metered (t.inp.remaining + 1) t) fun _ u =>
      .bind (writeCode_metered _ u) fun _ v => .ok () { v with codeValid := false, treeSt := .none }

theorem fetchMagic_metered (s : State) :
    Metered [.headerValidation] s.out.bits fun l => fetchMagic (s.withPlan l) := by
  refine .bind (readBits_metered _ _ s) fun r t => ?_
  cases r with
  | none => exact .raise _ _ t
  | some m => exact .ok m t

theorem magicToken_metered {ps : List Phase} (m : Nat) (s : State) :
    Metered ps s.out.bits fun l => magicToken m (s.withPlan l) :=
  .ite (m = s.cfg.magic.toNat) (fun _ => .ok false { s with scan := .idle }) fun _ => .raise _ _ s

theorem rmgBody_metered (s : State) :
    Metered [.headerValidation] s.out.bits fun l => rmgBody (s.withPlan l) :=
  .bind (fetchMagic_metered s) fun m t => .bind (magicToken_metered m t) fun _ u => .ok () u

theorem inParse_withPlan (s : State) (l : List Nat) : inParse (s.withPlan l) = (inParse s).withPlan l := by
  unfold inParse
  simp only [State.withPlan]
  split <;> rfl

theorem inParse_out (s : State) : (inParse s).out = s.out := by
  unfold inParse
  split <;> rfl

theorem openNodes_withPlan (s : State) (l : List Nat) : openNodes (s.withPlan l) = openNodes s := rfl

theorem hdrIntToken_metered {ps : List Phase} (s : State) :
    Metered ps s.out.bits fun l => hdrIntToken (s.withPlan l) := by
  unfold hdrIntToken
  simp only [inParse_withPlan]
  rw [← inParse_out s]
  exact .ite (fitsNodes s.cfg (stackNodes (openNodes s) + 1) = true)
    (fun _ => .ok true { inParse s with scan := .header (.left :: openNodes s) }) fun _ => .raise _ _ (inParse s)

theorem hdrLeafToken_metered {ps : List Phase} (sym : Nat) (s : State) :
    Metered ps s.out.bits fun l => hdrLeafToken sym (s.withPlan l) := by
  unfold hdrLeafToken
  simp only [inParse_withPlan, openNodes_withPlan]
  rw [← inParse_out s]
  refine .ite (fitsNodes s.cfg (stackNodes (openNodes s) + 1) = true) (fun _ => ?_) fun _ => .raise _ _ (inParse s)
  simp only [State.withPlan]
  split
  · exact .ok false { inParse s with tree := _, treeSt := .parsed, scan := .idle }
  · exact .ok true { inParse s with scan := .header _ }

theorem fetchHeader_metered (s : State) :
    Metered [.treeParse] s.out.bits fun l => fetchHeader (s.withPlan l) := by
  refine .bind (readBits_metered _ _ s) fun r t => ?_
  cases r with
  | none => exact .raise _ _ t
  | some marker =>
    refine .ite (fieldWidth marker = 0) (fun _ => .ok _ t) fun _ => .bind (readBits_metered _ _ t) fun r u => ?_
    cases r with
    | none => exact .raise _ _ u
    | some field => exact .ok _ u

theorem desRound_metered (s : State) : Metered [.treeParse] s.out.bits fun l => desRound (s.withPlan l) := by
  refine .bind (fetchHeader_metered s) fun mf t => ?_
  split
  · exact hdrIntToken_metered t
  · exact hdrLeafToken_metered _ t

theorem desBody_metered (s : State) : Metered [.treeParse] s.out.bits fun l => desBody (s.withPlan l) :=
  .loop desRound_metered (s.inp.remaining + 1) (beginParse s)

theorem payMove_metered (b : Bool) (path : Bits) (s : State) :
    Metered [.payloadDecode] s.out.bits fun l => payMove b path (s.withPlan l) := by
  unfold payMove
  simp only [State.withPlan]
  split
  · split
    · exact .ok true { s with cur := some (path ++ [b]) }
    · split
      · exact .ok false { s with cur := none, treeSt := .none }
      · exact .bind (writeStr_metered _ _ s) fun _ t => .ok true { t with cur := some [] }
  · exact .raise _ _ s
  · exact .raise _ _ s

theorem payToken_metered (b : Bool) (s : State) :
    Metered [.payloadDecode] s.out.bits fun l => payToken b (s.withPlan l) := by
  unfold payToken
  simp only [State.withPlan]
  split
  · exact payMove_metered b _ s
  · exact .ite (preDec s = true) (fun _ => payMove_metered b [] { s with cur := some [] }) fun _ => .raise _ _ s

theorem fetchPayload_metered (s : State) :
    Metered [.payloadDecode] s.out.bits fun l => fetchPayload (s.withPlan l) := by
  refine .bind (readBits_metered _ _ s) fun r t => ?_
  cases r with
  | none => exact .raise _ _ t
  | some b => exact .ok b t

theorem decBody_metered (s : State) : Metered [.payloadDecode] s.out.bits fun l => decBody (s.withPlan l) :=
  .loop (fun t => .bind (fetchPayload_metered t) fun _ u => payToken_metered _ u) (s.inp.remaining + 1)
    { s with cur := some [] }

theorem cmpBody_metered (s : State) :
    Metered (accessPhases .cmp) s.out.bits fun l => cmpBody (s.withPlan l) :=
  .bind ((cntBody_metered (discardAll s)).mono (by decide)) fun _ s₁ =>
    .bind (bldBody_metered s₁) fun _ s₂ =>
      .bind (genBody_metered s₂) fun _ s₃ =>
        .bind ((wmgBody_metered s₃).mono (by decide)) fun _ s₄ =>
          .bind ((serBody_metered s₄).mono (by decide)) fun _ s₅ =>
            .bind ((encBody_metered s₅).mono (by decide)) fun _ s₆ =>
              (finBody_metered _ s₆).mono (by decide)

theorem dcmpBody_metered (s : State) :
    Metered (accessPhases .dcmp) s.out.bits fun l => dcmpBody (s.withPlan l) :=
  .bind ((rmgBody_metered (discardAll s)).mono (by decide)) fun _ s₁ =>
    .bind ((desBody_metered s₁).mono (by decide)) fun _ s₂ =>
      .bind ((decBody_metered s₂).mono (by decide)) fun _ s₃ => (finBody_metered _ s₃).mono (by decide)

/-! ## How an instruction ends -/

/-- What R78 says of an instruction that makes some number `N` of accesses, in the phases `ps`, and ends in `u` where
none fails: `run l` is how it ends with the plan `l`. -/
def EndsAsPlanned (ps : List Phase) (run : List Nat → Host.Outcome State Fault Refusal) (u : State) : Prop :=
  ∃ N, ∀ (n : Nat) (l : List Nat),
    (N ≤ n → run (n :: l) = .next (u.withPlan ((n - N) :: l))) ∧
    (n < N → ∃ t, run (n :: l) = .next t ∧ t.err = .ioError ∧ t.phase ∈ ps ∧ t.ioFail = l ∧
      t.out.bits <+: u.out.bits)

section
variable {α : Type} {ps : List Phase} {s u : State}

/-- The end of a piece: `DONE` takes a value, or the fault is taken. -/
theorem Metered.ends {o : Bits} {f : List Nat → Res α} (hf : Metered ps o f)
    {finish : Res α → Host.Outcome State Fault Refusal} (done : α → Bool)
    (hok : ∀ a t, finish (.ok a t) = .next (setDone t (done a)))
    (hraise : ∀ e p t, finish (.raise e p t) = .next (t.faultedWith e p))
    (hu : finish (f []) = .next u) : EndsAsPlanned ps (fun l => finish (f l)) u := by
  obtain ⟨hplan, hout⟩ : (∀ l, finish ((f []).mapState (State.withPlan · l)) = .next (u.withPlan l)) ∧
      (f []).state.out = u.out := by
    cases hx : f [] <;> rw [hx] at hu <;> simp only [Res.mapState, hok, hraise] at hu ⊢ <;>
      obtain rfl := Host.Outcome.next.inj hu <;> exact ⟨fun _ => rfl, rfl⟩
  obtain ⟨-, -, N, hN⟩ := hf
  refine ⟨N, fun n l => ⟨fun hn => ?_, fun hn => ?_⟩⟩
  · obtain ⟨m, rfl⟩ := Nat.exists_eq_add_of_le' hn
    simp only [(hN m l).1, hplan, Nat.add_sub_cancel]
  · obtain ⟨p, hp, t, ht, hl, hb⟩ := (hN n l).2 hn
    exact ⟨t.faultedWith .ioError p, by simp only [ht, hraise], rfl, hp, hl, hout ▸ hb⟩

/-- An instruction without an access. -/
theorem EndsAsPlanned.of_blind {run : List Nat → Host.Outcome State Fault Refusal} (v : State)
    (h : ∀ l, run l = .next (v.withPlan l)) (hu : run [] = .next u) : EndsAsPlanned ps run u := by
  obtain rfl := Host.Outcome.next.inj ((h []).symm.trans hu)
  exact ⟨0, fun n l => ⟨fun _ => h _, fun hn => absurd hn n.not_lt_zero⟩⟩

theorem dispatch_endsAsPlanned {pre : State → Bool} {body : State → Res Unit}
    (hpre : ∀ l, pre (s.withPlan l) = pre s)
    (hb : ∀ s : State, Metered ps s.out.bits fun l => body (s.withPlan l)) (he : s.err = .none)
    (hu : dispatch pre body (s.withPlan []) = .next u) :
    EndsAsPlanned ps (fun l => dispatch pre body (s.withPlan l)) u := by
  cases hp : pre s with
  | false =>
    exact .of_blind (s.faultedWith .illegalSequence .none) (fun l => dispatch_illegal he ((hpre l).trans hp)) hu
  | true =>
    have hrun : ∀ l, dispatch pre body (s.withPlan l) = complete (body ((setDone s false).withPlan l)) :=
      fun l => dispatch_runs he ((hpre l).trans hp)
    simp only [hrun] at hu ⊢
    exact (hb (setDone s false)).ends (fun _ => true) (fun _ _ => rfl) (fun _ _ _ => rfl) hu

theorem takeToken_endsAsPlanned {token : State → Res Bool}
    (ht : ∀ s : State, Metered ps s.out.bits fun l => token (s.withPlan l)) (he : s.err = .none)
    (hu : takeToken token (s.withPlan []) = .next u) :
    EndsAsPlanned ps (fun l => takeToken token (s.withPlan l)) u := by
  have hrun : ∀ l, takeToken token (s.withPlan l) = completeToken (token ((setDone s false).withPlan l)) :=
    fun l => if_neg (by simpa [State.withPlan] using he)
  simp only [hrun] at hu ⊢
  exact (ht (setDone s false)).ends (fun more => !more) (fun _ _ => rfl) (fun _ _ _ => rfl) hu

theorem dispatchReserved_endsAsPlanned (he : s.err = .none)
    (hu : dispatchReserved (s.withPlan []) = .next u) :
    EndsAsPlanned ps (fun l => dispatchReserved (s.withPlan l)) u :=
  .of_blind (s.faultedWith .illegalCommand .none)
    (fun _ => if_neg (by simpa [State.withPlan] using he)) hu

end

/-- An instruction fails where its accesses do (R78, R249). -/
theorem exec_endsAsPlanned {i : Instr} {s u : State} (he : s.err = .none)
    (hu : exec i (s.withPlan []) = .next u) :
    EndsAsPlanned (accessPhases i) (fun l => exec i (s.withPlan l)) u := by
  cases i with
  | cnt => exact dispatch_endsAsPlanned (fun _ => rfl) cntBody_metered he hu
  | bld => exact dispatch_endsAsPlanned (fun _ => rfl) bldBody_metered he hu
  | gen => exact dispatch_endsAsPlanned (fun _ => rfl) genBody_metered he hu
  | wmg => exact dispatch_endsAsPlanned (fun _ => rfl) wmgBody_metered he hu
  | ser => exact dispatch_endsAsPlanned (fun _ => rfl) serBody_metered he hu
  | enc => exact dispatch_endsAsPlanned (fun _ => rfl) encBody_metered he hu
  | fin => exact dispatch_endsAsPlanned (fun _ => rfl) (finBody_metered _) he hu
  | rmg => exact dispatch_endsAsPlanned (fun _ => rfl) rmgBody_metered he hu
  | des => exact dispatch_endsAsPlanned (fun _ => rfl) desBody_metered he hu
  | dec => exact dispatch_endsAsPlanned (fun _ => rfl) decBody_metered he hu
  | cmp => exact dispatch_endsAsPlanned (fun _ => rfl) cmpBody_metered he hu
  | dcmp => exact dispatch_endsAsPlanned (fun _ => rfl) dcmpBody_metered he hu
  | reserved0 | reserved13 | reserved14 => exact dispatchReserved_endsAsPlanned he hu
  | clr => exact .of_blind (clearFault s) (fun _ => rfl) hu
  | magic m => exact takeToken_endsAsPlanned (magicToken_metered m) he hu
  | hdrInt => exact takeToken_endsAsPlanned hdrIntToken_metered he hu
  | hdrLeaf sym => exact takeToken_endsAsPlanned (hdrLeafToken_metered sym) he hu
  | payL => exact takeToken_endsAsPlanned (payToken_metered false) he hu
  | payR => exact takeToken_endsAsPlanned (payToken_metered true) he hu

/-! ## The first access -/

section
variable {s : State} {l : List Nat}

theorem readBits_fails {p : Phase} (n : Nat) (h : s.ioFail = 0 :: l) :
    readBits p n s = .raise .ioError p (s.withPlan l) := by
  rw [readBits, access_fails h]
  rfl

theorem writeStr_fails {p : Phase} (b : Bits) (h : s.ioFail = 0 :: l) :
    writeStr p b s = .raise .ioError p (s.withPlan l) := by
  rw [writeStr, access_fails h]
  rfl

theorem finBody_fails {p : Phase} (h : s.ioFail = 0 :: l) :
    finBody p s = .raise .ioError p (s.withPlan l) := by
  rw [finBody, close, access_fails h]
  rfl

theorem loop_raise {body : State → Res Bool} {f : ErrCode} {p : Phase} {t : State} (n : Nat)
    (h : body s = .raise f p t) : loop body (n + 1) s = .raise f p t := by
  rw [loop_succ, h]
  rfl

theorem cntBody_fails (h : s.ioFail = 0 :: l) :
    cntBody s = .raise .ioError .count ((startCount s).withPlan l) := by
  have hr : cntRound (startCount s) = .raise .ioError .count ((startCount s).withPlan l) := by
    rw [cntRound, readBits_fails (s := startCount s) _ h]
    rfl
  rw [cntBody, loop_raise _ hr]
  rfl

theorem putTree_fails (t : Tree) (h : s.ioFail = 0 :: l) :
    putTree t s = .raise .ioError .headerWrite (s.withPlan l) := by
  cases t <;> rw [putTree, writeBits, writeStr_fails _ h] <;> rfl

theorem encBody_fails (h : s.ioFail = 0 :: l) :
    encBody s = .raise .ioError .payloadEncode (s.withPlan l) := by
  rw [encBody, rewind, access_fails h]
  rfl

theorem rmgBody_fails (h : s.ioFail = 0 :: l) :
    rmgBody s = .raise .ioError .headerValidation (s.withPlan l) := by
  rw [rmgBody, fetchMagic, readBits_fails _ h]
  rfl

theorem desBody_fails (h : s.ioFail = 0 :: l) :
    desBody s = .raise .ioError .treeParse ((beginParse s).withPlan l) := by
  refine loop_raise _ ?_
  rw [desRound, fetchHeader, readBits_fails (s := beginParse s) _ h]
  rfl

theorem decBody_fails (h : s.ioFail = 0 :: l) :
    decBody s = .raise .ioError .payloadDecode (State.withPlan { s with cur := some [] } l) := by
  refine loop_raise _ ?_
  rw [decRound, fetchPayload, readBits_fails (s := { s with cur := some [] }) _ h]
  rfl

theorem cmpBody_fails (h : s.ioFail = 0 :: l) :
    cmpBody s = .raise .ioError .count ((startCount (discardAll s)).withPlan l) := by
  rw [cmpBody, cntBody_fails (s := discardAll s) h]
  rfl

theorem dcmpBody_fails (h : s.ioFail = 0 :: l) :
    dcmpBody s = .raise .ioError .headerValidation ((discardAll s).withPlan l) := by
  rw [dcmpBody, rmgBody_fails (s := discardAll s) h]
  rfl

theorem Precondition.withPlan {i : Instr} (h : Precondition i s) (l : List Nat) :
    Precondition i (s.withPlan l) := by
  cases i <;> exact h

/-- The frequency table before a command's first access: `CNT` and `CMP` have cleared it (R130). -/
def freqAtFirstAccess : Instr → State → Vector Nat nsym
  | .cnt, _ | .cmp, _ => Vector.replicate nsym 0
  | _, s => s.freq

/-- A command whose first access fails (R78, R249): the phase is that of its first stage. -/
theorem exec_firstAccessFails {i : Instr} {p : Phase} {ps : List Phase} (hi : i.space = .command)
    (hph : accessPhases i = p :: ps) (hpre : Precondition i s) (he : s.err = .none) (hio : s.ioFail = 0 :: l) :
    exec i s = .next (State.faultedWith { s with ioFail := l, freq := freqAtFirstAccess i s } .ioError p) := by
  have hio' : (setDone s false).ioFail = 0 :: l := hio
  cases i <;> cases hph <;> cases hi
  case cnt => exact (dispatch_raise he rfl (cntBody_fails hio')).trans rfl
  case wmg => exact (dispatch_raise he (outOpen_iff.2 hpre) (writeStr_fails _ hio')).trans rfl
  case ser =>
    have hp : preSer s = true := by simp [preSer, hasTree_iff.2 hpre.1, outOpen_iff.2 hpre.2]
    exact (dispatch_raise he hp (putTree_fails _ hio')).trans rfl
  case enc =>
    have hp : preEnc s = true := by simp [preEnc, hpre.1, outOpen_iff.2 hpre.2]
    exact (dispatch_raise he hp (encBody_fails hio')).trans rfl
  case fin => exact (dispatch_raise he (outOpen_iff.2 hpre) (finBody_fails hio')).trans rfl
  case rmg => exact (dispatch_raise he rfl (rmgBody_fails hio')).trans rfl
  case des => exact (dispatch_raise he rfl (desBody_fails hio')).trans rfl
  case dec =>
    have hp : preDec s = true := by simp [preDec, hasTree_iff.2 hpre.1, outOpen_iff.2 hpre.2]
    exact (dispatch_raise he hp (decBody_fails hio')).trans rfl
  case cmp => exact (dispatch_raise he (outOpen_iff.2 hpre) (cmpBody_fails hio')).trans rfl
  case dcmp => exact (dispatch_raise he (outOpen_iff.2 hpre) (dcmpBody_fails hio')).trans rfl

/-- A payload bit that moves to the leaf of a word writes it, and that write fails (R201, R203). -/
theorem payToken_fails {b : Bool} {path : Bits} {left right : Tree} {w w' : Option Nat} {x : Sym}
    (hio : s.ioFail = 0 :: l) (hcur : s.cur = some path) (hnode : s.tree.nodeAt path = some (.node left right w))
    (hchild : (if b then right else left) = .leaf x w') (hx : x.toNat ≠ pseudoEof) :
    payToken b s = .raise .ioError .payloadDecode (s.withPlan l) := by
  simp only [payToken, hcur, payMove, hnode, hchild, if_neg hx, writeBits, writeStr_fails _ hio, Res.bind_raise]

end

/-! ## `Close` inside `DCMP` -/

theorem fetchMagic_raises (s : State) : (fetchMagic s).Raises (faultsOf .rmg) := by
  refine .bind ((readBits_raises _ _ s).mono (by simp [faultsOf])) fun r t => ?_
  cases r
  · exact .raise (by simp [faultsOf])
  · exact .ok _ _ t

theorem magicToken_raises (m : Nat) (s : State) : (magicToken m s).Raises (faultsOf (.magic m)) := by
  unfold magicToken
  split
  · exact .ok _ _ _
  · exact .raise (by simp [faultsOf])

theorem rmgBody_raises (s : State) : (rmgBody s).Raises (faultsOf .rmg) :=
  .bind (fetchMagic_raises s) fun m t =>
    .bind ((magicToken_raises m t).mono (by simp [faultsOf])) fun _ u => .ok _ () u

theorem fetchHeader_raises (s : State) : (fetchHeader s).Raises (faultsOf .des) := by
  refine .bind ((readBits_raises _ _ s).mono (by simp [faultsOf])) fun r t => ?_
  cases r with
  | none => exact .raise (by simp [faultsOf])
  | some m =>
    dsimp only
    split
    · exact .ok _ _ t
    · refine .bind ((readBits_raises _ _ t).mono (by simp [faultsOf])) fun r u => ?_
      cases r
      · exact .raise (by simp [faultsOf])
      · exact .ok _ _ u

theorem hdrIntToken_raises (s : State) : (hdrIntToken s).Raises (faultsOf .hdrInt) := by
  unfold hdrIntToken
  split
  · exact .ok _ _ _
  · exact .raise (by simp [faultsOf])

theorem hdrLeafToken_raises (sym : Nat) (s : State) : (hdrLeafToken sym s).Raises (faultsOf (.hdrLeaf sym)) := by
  unfold hdrLeafToken
  split
  · split <;> exact .ok _ _ _
  · exact .raise (by simp [faultsOf])

theorem desRound_raises (s : State) : (desRound s).Raises (faultsOf .des) := by
  refine .bind (fetchHeader_raises s) fun mf t => ?_
  split
  · exact (hdrIntToken_raises t).mono (by simp [faultsOf])
  · exact (hdrLeafToken_raises _ t).mono (by simp [faultsOf])

theorem desBody_raises (s : State) : (desBody s).Raises (faultsOf .des) := .loop desRound_raises _ _

theorem payMove_raises (b : Bool) (path : Bits) (s : State) : (payMove b path s).Raises (faultsOf .payL) := by
  unfold payMove
  split
  · split
    · exact .ok _ _ _
    · split
      · exact .ok _ _ _
      · exact .bind ((writeStr_raises _ _ s).mono (by simp [faultsOf])) fun _ t => .ok _ _ _
  · exact .raise (by simp [faultsOf])
  · exact .raise (by simp [faultsOf])

theorem payToken_raises (b : Bool) (s : State) : (payToken b s).Raises (faultsOf .payL) := by
  unfold payToken
  split
  · exact payMove_raises b _ s
  · split
    · exact payMove_raises b [] _
    · exact .raise (by simp [faultsOf])

theorem decRound_raises (s : State) : (decRound s).Raises (faultsOf .dec) := by
  refine .bind (.bind ((readBits_raises _ _ s).mono (by simp [faultsOf])) fun r t => ?_) fun _ t =>
    (payToken_raises _ t).mono (by simp [faultsOf])
  cases r
  · exact .raise (by simp [faultsOf])
  · exact .ok _ _ t

theorem decBody_raises (s : State) : (decBody s).Raises (faultsOf .dec) := .loop decRound_raises _ _

theorem faultsOf_ne_none {i : Instr} {f : ErrCode} {p : Phase} (h : (f, p) ∈ faultsOf i) : f ≠ .none := by
  rintro rfl
  cases i <;> simp [faultsOf] at h

/-- A command that ends without a fault reached the end of its body (R215). -/
theorem dispatch_completed {pre : State → Bool} {body : State → Res Unit} {i : Instr} {s t : State}
    (hb : ∀ s, (body s).Raises (faultsOf i)) (h : dispatch pre body s = .next t) (ht : t.err = .none) :
    s.err = .none ∧ ∃ u, body (setDone s false) = .ok () u ∧ t = setDone u true := by
  rcases dispatch_cases pre body s with ⟨he, e⟩ | ⟨he, -, e⟩ | ⟨he, -, ⟨u, hu, e⟩ | ⟨f, p, u, hu, e⟩⟩ <;>
    obtain rfl := Host.Outcome.next.inj (e.symm.trans h)
  · exact absurd ht he
  · cases ht
  · exact ⟨he, u, hu, rfl⟩
  · exact absurd ht (faultsOf_ne_none (hb _ _ _ _ hu))

/-- Commands in a row that end: the first of them, and the rest. -/
theorem execAll_cons_eq_next {i : Instr} {is : List Instr} {s t : State} (h : execAll (i :: is) s = .next t) :
    ∃ u, exec i s = .next u ∧ execAll is u = .next t := by
  unfold execAll at h
  split at h
  · exact ⟨_, ‹_›, h⟩
  · cases h
  · cases h

theorem execAll_singleton {i : Instr} {s : State} : execAll [i] s = exec i s := by
  unfold execAll
  split <;> simp_all [execAll]

theorem setDone_of_done {s : State} {b : Bool} (h : s.done = b) : setDone s b = s := by
  subst h
  rfl

/-- The stages `RMG`, `DES`, `DEC` one after another where none raises a fault: their bodies, each begun in the state
the one before it left. -/
theorem execAll_reading_stages {s t : State} (h : execAll [.rmg, .des, .dec] s = .next t) (ht : t.err = .none) :
    ∃ s₁ s₂ s₃, rmgBody (setDone s false) = .ok () s₁ ∧ desBody s₁ = .ok () s₂ ∧ decBody s₂ = .ok () s₃ ∧
      t = setDone s₃ true := by
  obtain ⟨u₁, h₁, h⟩ := execAll_cons_eq_next h
  obtain ⟨u₂, h₂, h₃⟩ := execAll_cons_eq_next h
  rw [execAll_singleton] at h₃
  obtain ⟨e₂, s₃, hdec, rfl⟩ := dispatch_completed decBody_raises h₃ ht
  obtain ⟨e₁, s₂, hdes, rfl⟩ := dispatch_completed desBody_raises h₂ e₂
  obtain ⟨-, s₁, hrmg, rfl⟩ := dispatch_completed rmgBody_raises h₁ e₁
  have hd₁ : s₁.done = false := by simpa [hrmg] using (rmgBody_keeps (setDone s false)).done
  have hdes' : desBody s₁ = .ok () s₂ := by rwa [← setDone_of_done hd₁]
  have hd₂ : s₂.done = false := by simpa [hdes', hd₁] using (desBody_keeps s₁).done
  exact ⟨s₁, s₂, s₃, hrmg, hdes', by rwa [← setDone_of_done hd₂], rfl⟩

/-- The state without a tree and a code table: what `DCMP` and `DES` discard. -/
def State.withoutTree (s : State) : State := { s with treeSt := .none, codeValid := false }

theorem access_withoutTree (p : Phase) (s : State) :
    access p s.withoutTree = (access p s).mapState State.withoutTree := by
  unfold access State.withoutTree
  dsimp only
  split <;> rfl

theorem readBits_withoutTree (p : Phase) (n : Nat) (s : State) :
    readBits p n s.withoutTree = (readBits p n s).mapState State.withoutTree := by
  rw [readBits, readBits, access_withoutTree]
  cases access p s with
  | raise f p t => rfl
  | ok u t =>
    by_cases h : t.inp.pos + n ≤ 8 * t.inp.data.length <;> simp [Res.mapState, State.withoutTree, h]

theorem magicToken_withoutTree (m : Nat) (s : State) :
    magicToken m s.withoutTree = (magicToken m s).mapState State.withoutTree := by
  by_cases h : m = s.cfg.magic.toNat <;> simp [magicToken, Res.mapState, State.withoutTree, h]

theorem rmgBody_withoutTree (s : State) : rmgBody s.withoutTree = (rmgBody s).mapState State.withoutTree := by
  unfold rmgBody fetchMagic
  rw [readBits_withoutTree]
  rcases readBits .headerValidation magicW s with ⟨_ | m, t⟩ | ⟨f, p, t⟩
  · rfl
  · simp only [Res.mapState, Res.bind_ok, magicToken_withoutTree]
    cases magicToken m t <;> rfl
  · rfl

theorem discardAll_eq_withoutTree {s : State} (hcur : s.cur = none) (hscan : s.scan = .idle)
    (hfreq : s.freqValid = false) : discardAll s = s.withoutTree := by
  unfold discardAll State.withoutTree
  rw [← hcur, ← hscan, ← hfreq]

/-- `DCMP` up to its `FIN` is the three stages before it (R221). -/
theorem dcmpBody_eq_finBody {s s₁ s₂ s₃ : State} (hcur : s.cur = none) (hscan : s.scan = .idle)
    (hfreq : s.freqValid = false) (hrmg : rmgBody s = .ok () s₁) (hdes : desBody s₁ = .ok () s₂)
    (hdec : decBody s₂ = .ok () s₃) : dcmpBody s = finBody .payloadDecode s₃ := by
  have hdes' : desBody s₁.withoutTree = .ok () s₂ := hdes
  rw [dcmpBody, discardAll_eq_withoutTree hcur hscan hfreq, rmgBody_withoutTree, hrmg]
  simp only [Res.mapState, Res.bind_ok, hdes', hdec]

/-- Settles O16: the accesses of the bodies counted; the first of them; the write of a word; the `Close` that follows
the three stages of `DCMP`. -/
theorem failingAccessRaisesIoError : Obligations.FailingAccessRaisesIoError := by
  refine ⟨fun i s u he hio hu => ?_, fun s l he hio => ?_,
    fun s l path left right w he hio hcur hnode i child hi x w' hc hx => ?_,
    fun s t l he ho hcur hscan hfreq hall ht hio => ?_⟩
  · have hs : s.withPlan [] = s := by rw [← hio]; rfl
    obtain ⟨N, hN⟩ := exec_endsAsPlanned he (hs.symm ▸ hu)
    refine ⟨N, fun hi hne hpre => Nat.pos_of_ne_zero fun h0 => ?_, hN⟩
    subst h0
    obtain ⟨p, ps, hph⟩ := List.exists_cons_of_ne_nil hne
    have hfail := exec_firstAccessFails (s := s.withPlan [0]) (l := []) hi hph (hpre.withPlan [0]) he rfl
    have hl := Host.Outcome.next.inj (((hN 0 []).1 le_rfl).symm.trans hfail)
    cases congrArg State.ioFail hl
  · have hfail {i : Instr} {p : Phase} {ps : List Phase} (hi : i.space = .command) (hph : accessPhases i = p :: ps)
        (hpre : Precondition i s) := exec_firstAccessFails hi hph hpre he hio
    exact ⟨fun ho => ⟨hfail (i := .wmg) rfl rfl ho, hfail (i := .fin) rfl rfl ho, hfail (i := .dcmp) rfl rfl ho, _,
        hfail (i := .cmp) rfl rfl ho⟩,
      fun ho ht => ⟨hfail (i := .ser) rfl rfl ⟨ht, ho⟩, hfail (i := .dec) rfl rfl ⟨ht, ho⟩⟩,
      fun ho hc => hfail (i := .enc) rfl rfl ⟨hc, ho⟩, hfail (i := .rmg) rfl rfl trivial,
      hfail (i := .des) rfl rfl trivial, _, hfail (i := .cnt) rfl rfl trivial⟩
  · subst hc
    rcases List.mem_pair.1 hi with h | h <;> cases h
    · exact (takeToken_raise he (payToken_fails (b := false) (s := setDone s false) hio hcur hnode rfl hx)).trans rfl
    · exact (takeToken_raise he (payToken_fails (b := true) (s := setDone s false) hio hcur hnode rfl hx)).trans rfl
  · obtain ⟨s₁, s₂, s₃, hrmg, hdes, hdec, rfl⟩ := execAll_reading_stages hall ht
    have hbody := dcmpBody_eq_finBody (s := setDone s false) hcur hscan hfreq hrmg hdes hdec
    exact (dispatch_raise he (outOpen_iff.2 ho) (hbody.trans (finBody_fails (s := s₃) hio))).trans rfl

end Sys2Proof.Machine

/-! Family `30_encoding.md`: the codes, the header and payload tokens, the composite commands. -/

namespace Sys2Proof

/-! ## Decoding and encoding -/

/-- A well-formed instruction is read back from its encoding. -/
theorem decode_encode (i : Instr) : Laws.ReadBack.Statement i := by
  cases i with
  | reserved0 => exact Laws.ReadBack.reserved0
  | cnt => exact Laws.ReadBack.cnt
  | bld => exact Laws.ReadBack.bld
  | gen => exact Laws.ReadBack.gen
  | wmg => exact Laws.ReadBack.wmg
  | ser => exact Laws.ReadBack.ser
  | enc => exact Laws.ReadBack.enc
  | fin => exact Laws.ReadBack.fin
  | rmg => exact Laws.ReadBack.rmg
  | des => exact Laws.ReadBack.des
  | dec => exact Laws.ReadBack.dec
  | cmp => exact Laws.ReadBack.cmp
  | dcmp => exact Laws.ReadBack.dcmp
  | reserved13 => exact Laws.ReadBack.reserved13
  | reserved14 => exact Laws.ReadBack.reserved14
  | clr => exact Laws.ReadBack.clr
  | magic m => exact Laws.ReadBack.magic m
  | hdrInt => exact Laws.ReadBack.hdrInt
  | hdrLeaf sym => exact Laws.ReadBack.hdrLeaf sym
  | payL => exact Laws.ReadBack.payL
  | payR => exact Laws.ReadBack.payR

/-- The sixteen codes are those of their commands (R110, R111). -/
theorem decodeCommand_wf_encode :
    ∀ v < 16, (decodeCommand v).wf = true ∧ encode (decodeCommand v) = bitsOf 4 v := by decide

/-- What is decoded as a command begins with its four bits (R110). -/
theorem decode_command_inv {s rest : Bits} {i : Instr} (h : decode .command s = .ok (i, rest)) :
    ∃ b : Bits, b.length = 4 ∧ s = b ++ rest ∧ i = decodeCommand (uint b) := by
  by_cases hl : s.length < 4
  · simp [decode, hl] at h
  · have hb : (s.take 4).length = 4 := by rw [List.length_take]; omega
    rw [← List.take_append_drop 4 s, decode_command hb] at h
    cases h
    exact ⟨_, hb, (List.take_append_drop 4 s).symm, rfl⟩

/-- What is decoded as a payload bit is the first bit (R99). -/
theorem decode_payload_inv {s rest : Bits} {i : Instr} (h : decode .payload s = .ok (i, rest)) :
    ∃ b, s = b :: rest ∧ i = if b then .payR else .payL := by
  rcases s with _ | ⟨b, r⟩
  · cases h
  · rw [decode_payload] at h
    cases h
    exact ⟨b, rfl, rfl⟩

/-- What decodes is well formed, of the space asked for, and was spelled by the bits read. -/
theorem encode_of_decode {sp : Space} {s rest : Bits} {i : Instr} (h : decode sp s = .ok (i, rest)) :
    i.wf = true ∧ i.space = sp ∧ s = encode i ++ rest := by
  cases sp with
  | command =>
    obtain ⟨b, hb, rfl, rfl⟩ := decode_command_inv h
    have hlt : uint b < 16 := by simpa [hb] using uint_lt b
    obtain ⟨hwf, henc⟩ := decodeCommand_wf_encode _ hlt
    exact ⟨hwf, Machine.decodeCommand_space _, by rw [henc, bitsOf_uint_of_length hb]⟩
  | magic =>
    obtain ⟨b, hb, rfl, rfl⟩ := Machine.decode_magic_inv h
    refine ⟨decide_eq_true (hb ▸ uint_lt b), rfl, ?_⟩
    rw [show encode (.magic (uint b)) = bitsOf magicW (uint b) from rfl, bitsOf_uint_of_length hb]
  | header =>
    rcases Machine.decode_header_inv h with ⟨rfl, rfl⟩ | ⟨b, hb, rfl, rfl⟩
    · exact ⟨rfl, rfl, rfl⟩
    · have hlt : uint b < 2 ^ symFieldW := hb ▸ uint_lt b
      exact ⟨decide_eq_true hlt, rfl, by rw [encode_hdrLeaf hlt, bitsOf_uint_of_length hb]; rfl⟩
  | payload =>
    obtain ⟨b, rfl, rfl⟩ := decode_payload_inv h
    cases b <;> exact ⟨rfl, rfl, rfl⟩

/-- Settles O1: the instructions are read back one by one; what the decoder reads is told space by space. -/
theorem decodeAndEncodeAgree : Obligations.DecodeAndEncodeAgree :=
  ⟨fun i rest h => decode_encode i h rest, fun _ _ _ _ => encode_of_decode⟩

/-- Settles O2, by evaluating the decoder. -/
theorem wordsOfTheTableDecode : Obligations.WordsOfTheTableDecode := by
  unfold Obligations.WordsOfTheTableDecode
  exact ⟨rfl, rfl, rfl, rfl, rfl, rfl, rfl, rfl, rfl⟩

end Sys2Proof

namespace Sys2Proof.Machine

/-! ## Reserved codes and tokens -/

/-- A reserved code on an engine that is not faulted (R111). -/
theorem dispatchReserved_illegal {s : State} (he : s.err = .none) :
    dispatchReserved s = .next (s.faultedWith .illegalCommand .none) :=
  if_neg (by simp [he])

/-- Settles O10: the three codes are dispatched alike. -/
theorem reservedCodesAreIllegalCommands : Obligations.ReservedCodesAreIllegalCommands :=
  ⟨rfl, rfl, rfl, fun _ he =>
    ⟨dispatchReserved_illegal he, dispatchReserved_illegal he, dispatchReserved_illegal he⟩⟩

/-- The magic number of the parameters ends the reading of one (R171). -/
theorem magicToken_match {m : Nat} {s : State} (h : m = s.cfg.magic.toNat) :
    magicToken m s = .ok false { s with scan := .idle } := if_pos h

/-- Another number than the parameter's (R171, R237). -/
theorem magicToken_mismatch {m : Nat} {s : State} (h : m ≠ s.cfg.magic.toNat) :
    magicToken m s = .raise .headerError .headerValidation s := if_neg h

/-- Settles O42: the token's two outcomes. -/
theorem magicTokenIsCompared : Obligations.MagicTokenIsCompared := fun s _ he =>
  ⟨fun h => (takeToken_ok he (magicToken_match (s := setDone s false) h)).trans rfl,
    fun h => (takeToken_raise he (magicToken_mismatch (s := setDone s false) h)).trans rfl⟩

section
variable {s : State} {st : List Frame}

theorem openNodes_header (hs : s.scan = .header st) : openNodes s = st := by
  rw [openNodes, hs]

theorem inParse_header (hs : s.scan = .header st) : inParse s = s := by
  rw [inParse, hs]

theorem not_fitsNodes {c : Config} {k n : Nat} (hk : c.nodeCap = some k) (h : k < n) : ¬ fitsNodes c n = true :=
  fun hf => absurd ((fitsNodes_iff c n).1 hf k hk) (by omega)

/-- The token `0` where the store has room (R175). -/
theorem hdrIntToken_fits (hs : s.scan = .header st) (hf : fitsNodes s.cfg (stackNodes st + 1) = true) :
    hdrIntToken s = .ok true { s with scan := .header (.left :: st) } := by
  rw [hdrIntToken, openNodes_header hs, inParse_header hs, if_pos hf]

/-- The token `0` where the store is full (R180). -/
theorem hdrIntToken_past (hs : s.scan = .header st) (hf : ¬ fitsNodes s.cfg (stackNodes st + 1) = true) :
    hdrIntToken s = .raise .capacityError .treeParse s := by
  rw [hdrIntToken, openNodes_header hs, inParse_header hs, if_neg hf, noRoom]

/-- The token `1` that completes the tree (R177). -/
theorem hdrLeafToken_tree {sym : Nat} {t : Tree} (hs : s.scan = .header st)
    (hf : fitsNodes s.cfg (stackNodes st + 1) = true)
    (hp : plug (.leaf (BitVec.ofNat symFieldW sym) none) st = .inl t) :
    hdrLeafToken sym s = .ok false { s with tree := t, treeSt := .parsed, scan := .idle } := by
  rw [hdrLeafToken, openNodes_header hs, inParse_header hs, if_pos hf, hp]

/-- The token `1` after which the parse goes on (R176). -/
theorem hdrLeafToken_subtree {sym : Nat} {st' : List Frame} (hs : s.scan = .header st)
    (hf : fitsNodes s.cfg (stackNodes st + 1) = true)
    (hp : plug (.leaf (BitVec.ofNat symFieldW sym) none) st = .inr st') :
    hdrLeafToken sym s = .ok true { s with scan := .header st' } := by
  rw [hdrLeafToken, openNodes_header hs, inParse_header hs, if_pos hf, hp]

/-- The token `1` where the store is full (R180). -/
theorem hdrLeafToken_past (sym : Nat) (hs : s.scan = .header st)
    (hf : ¬ fitsNodes s.cfg (stackNodes st + 1) = true) :
    hdrLeafToken sym s = .raise .capacityError .treeParse s := by
  rw [hdrLeafToken, openNodes_header hs, inParse_header hs, if_neg hf, noRoom]

end

/-- Settles O43: the token with room for its node, and without. -/
theorem internalTokenBeginsANode : Obligations.InternalTokenBeginsANode := fun s _ he hs =>
  ⟨fun hcap => (takeToken_ok he (hdrIntToken_fits (s := setDone s false) hs ((fitsNodes_iff _ _).2 hcap))).trans rfl,
    fun _ hk hn => (takeToken_raise he (hdrIntToken_past (s := setDone s false) hs (not_fitsNodes hk hn))).trans rfl⟩

/-- Settles O44: the leaf is plugged into the nodes that wait for it (`plug_rights`). -/
theorem leafTokenCompletesSubtrees : Obligations.LeafTokenCompletesSubtrees := by
  intro s st sym he hs _
  have hs' : (setDone s false).scan = .header st := hs
  refine ⟨fun hcap ls t ht => ?_, fun _ hk hn =>
    (takeToken_raise he (hdrLeafToken_past sym hs' (not_fitsNodes hk hn))).trans rfl⟩
  have hf : fitsNodes (setDone s false).cfg (stackNodes st + 1) = true := (fitsNodes_iff _ _).2 hcap
  have hplug (below : List Frame) :
      plug (.leaf (BitVec.ofNat symFieldW sym) none) (ls.map .right ++ below) = plug t below := by
    rw [plug_rights, ht]
  refine ⟨fun hst => ?_, fun st' hst => ?_⟩
  · have hp : plug (.leaf (BitVec.ofNat symFieldW sym) none) st = .inl t := by
      rw [hst, ← List.append_nil (ls.map _), hplug, plug]
    exact (takeToken_ok he (hdrLeafToken_tree hs' hf hp)).trans rfl
  · have hp : plug (.leaf (BitVec.ofNat symFieldW sym) none) st = .inr (.right t :: st') := by
      rw [hst, hplug, plug]
    exact (takeToken_ok he (hdrLeafToken_subtree hs' hf hp)).trans rfl

/-! ## Payload bits -/

section
variable {s : State} {b : Bool} {path : Bits} {l r : Tree} {w : Option Nat}

/-- A payload bit where a walk is going on. -/
theorem payToken_walking (hc : s.cur = some path) : payToken b s = payMove b path s := by
  rw [payToken, hc]

/-- The child is an internal node (R201). -/
theorem payMove_node {l' r' : Tree} {w' : Option Nat} (hn : s.tree.nodeAt path = some (.node l r w))
    (hchild : (if b then r else l) = .node l' r' w') :
    payMove b path s = .ok true { s with cur := some (path ++ [b]) } := by
  simp only [payMove, hn, hchild]

/-- The child is the leaf of a word (R201, R203). -/
theorem payMove_word {x : Sym} {w' : Option Nat} (hio : s.ioFail = []) (ho : s.out.closed = false)
    (hn : s.tree.nodeAt path = some (.node l r w)) (hchild : (if b then r else l) = .leaf x w')
    (hx : x.toNat ≠ pseudoEof) :
    payMove b path s = .ok true { s.emit (bitsOf wordW x.toNat) with cur := some [] } := by
  simp only [payMove, hn, hchild, if_neg hx, writeBits_ok hio ho, Res.bind_ok]

/-- The child is the leaf of pseudo-EOF (R205). -/
theorem payMove_eof {x : Sym} {w' : Option Nat} (hn : s.tree.nodeAt path = some (.node l r w))
    (hchild : (if b then r else l) = .leaf x w') (hx : x.toNat = pseudoEof) :
    payMove b path s = .ok false { s with cur := none, treeSt := .none } := by
  simp only [payMove, hn, hchild, if_pos hx]

/-- A leaf has no child to move to (R202). -/
theorem payMove_leaf {x : Sym} (hn : s.tree.nodeAt path = some (.leaf x w)) :
    payMove b path s = .raise .malformedStructureError .payloadDecode s := by
  simp only [payMove, hn]

/-- A payload bit taken on a walk: it goes on, ends the walk, or raises, as the move does. -/
theorem takeToken_payMove_ok {more : Bool} {t : State} (he : s.err = .none) (hc : s.cur = some path)
    (hm : payMove b path (setDone s false) = .ok more t) :
    takeToken (payToken b) s = .next (setDone t !more) :=
  takeToken_ok he ((payToken_walking (s := setDone s false) hc).trans hm)

theorem takeToken_payMove_leaf {x : Sym} (he : s.err = .none) (hc : s.cur = some path)
    (hn : s.tree.nodeAt path = some (.leaf x w)) :
    takeToken (payToken b) s = .next (s.faultedWith .malformedStructureError .payloadDecode) :=
  (takeToken_raise he ((payToken_walking (s := setDone s false) hc).trans
    (payMove_leaf (s := setDone s false) hn))).trans rfl

end

/-- Settles O41: the two instructions are one token with its bit; the child decides what it does. -/
theorem payloadBitsMoveToTheChild : Obligations.PayloadBitsMoveToTheChild := by
  intro s path ⟨he, hio⟩ hc ho
  refine ⟨fun l r w hn i b child hi => ?_, fun x w hn =>
    ⟨takeToken_payMove_leaf he hc hn, takeToken_payMove_leaf he hc hn⟩⟩
  obtain ⟨hexec, hchild⟩ : (∀ u, exec i u = takeToken (payToken b) u) ∧ (if b then r else l) = child := by
    rcases List.mem_pair.1 hi with h | h <;> cases h <;> exact ⟨fun _ => rfl, rfl⟩
  rw [hexec]
  refine ⟨fun l' r' w' h => ?_, fun x w' h hx => ?_, fun x w' h hx => ?_⟩ <;> rw [h] at hchild
  · exact (takeToken_payMove_ok he hc (payMove_node (s := setDone s false) hn hchild)).trans rfl
  · exact (takeToken_payMove_ok he hc (payMove_word (s := setDone s false) hio ho hn hchild hx)).trans rfl
  · exact (takeToken_payMove_ok he hc (payMove_eof (s := setDone s false) hn hchild hx)).trans rfl

/-! ## The length of a header -/

/-- A header has a bit for every node and nine more for every leaf (R93 to R95). -/
theorem Tree.serBits_length (t : Tree) : t.serBits.length + 1 = 11 * t.leaves.length := by
  induction t with
  | leaf s w => simp [Tree.serBits, Tree.leaves]
  | node l r w ihl ihr =>
    simp only [Tree.serBits, Tree.leaves, List.length_cons, List.length_append]
    omega

theorem State.emit_emit (s : State) (a b : Bits) : (s.emit a).emit b = s.emit (a ++ b) := by
  simp [State.emit]

/-- `Put` appends the header of the tree (R173). -/
theorem putTree_ok (t : Tree) {s : State} (hio : s.ioFail = []) (ho : s.out.closed = false) :
    putTree t s = .ok () (s.emit t.serBits) := by
  induction t generalizing s with
  | leaf x w =>
    rw [putTree, writeBits_ok hio ho, Res.bind_ok, writeBits_ok (s := s.emit _) hio ho, State.emit_emit]
    rfl
  | node l r w ihl ihr =>
    rw [putTree, writeBits_ok hio ho, Res.bind_ok, ihl (s := s.emit _) hio ho, Res.bind_ok,
      ihr (s := (s.emit _).emit _) hio ho, State.emit_emit, State.emit_emit]
    rfl

/-- `SER` appends the header of the tree (R173). -/
theorem execSer_ok {s : State} (h : Ready s) (ht : s.treeSt ≠ .none) (ho : s.out.closed = false) :
    exec .ser s = .next (setDone (s.emit s.tree.serBits) true) := by
  have hp : preSer s = true := by simp [preSer, hasTree_iff.2 ht, outOpen_iff.2 ho]
  exact (dispatch_ok h.1 hp (putTree_ok s.tree (s := setDone s false) h.2 ho)).trans rfl

/-- Settles O29: the output grows by the header. -/
theorem headerLengthIsElevenPerLeafLessOne : Obligations.HeaderLengthIsElevenPerLeafLessOne := by
  intro s t h hr ht ho
  obtain rfl := Host.Outcome.next.inj ((execSer_ok hr ht ho).symm.trans h)
  have hlen := s.tree.serBits_length
  simp only [setDone_out, State.emit_out, List.length_append]
  omega

end Sys2Proof.Machine

/-! The composite commands (30_encoding.md R113, 46_composite_and_control.md R220, R221): a stage run as a command of
its own is that stage inside the composite one. -/

namespace Sys2Proof.Machine

/-! ## The faults of the compressing bodies -/

theorem cntRound_raises (s : State) : (cntRound s).Raises (faultsOf .cnt) := by
  refine .bind ((readBits_raises _ _ s).mono (by simp [faultsOf])) fun r t => ?_
  cases r with
  | none => exact .ok _ _ t
  | some w =>
    refine .bind ?_ fun _ u => .ok _ _ u
    unfold countWord
    split
    · exact .ok _ _ _
    · exact .raise (by simp [faultsOf])

theorem cntBody_raises (s : State) : (cntBody s).Raises (faultsOf .cnt) := by
  refine .bind (.loop cntRound_raises _ _) fun _ t => ?_
  unfold countEof
  split
  · exact .ok _ _ _
  · exact .raise (by simp [faultsOf])

theorem bldBody_raises (s : State) : (bldBody s).Raises (faultsOf .bld) := by
  unfold bldBody
  split
  · exact .ok _ _ _
  · exact .raise (by simp [faultsOf])

theorem genBody_raises (s : State) : (genBody s).Raises (faultsOf .gen) := .ok _ _ _

theorem wmgBody_raises (s : State) : (wmgBody s).Raises (faultsOf .wmg) :=
  (writeStr_raises _ _ s).mono (by simp [faultsOf])

theorem putTree_raises (t : Tree) (s : State) : (putTree t s).Raises [(.ioError, .headerWrite)] := by
  induction t generalizing s with
  | leaf x w => exact .bind (writeStr_raises _ _ s) fun _ u => writeStr_raises _ _ u
  | node l r w ihl ihr => exact .bind (writeStr_raises _ _ s) fun _ u => .bind (ihl u) fun _ v => ihr v

theorem serBody_raises (s : State) : (serBody s).Raises (faultsOf .ser) :=
  (putTree_raises _ s).mono (by simp [faultsOf])

theorem writeCode_raises (sym : Nat) (s : State) : (writeCode sym s).Raises (faultsOf .enc) := by
  unfold writeCode
  split
  · exact .raise (by simp [faultsOf])
  · exact (writeStr_raises _ _ s).mono (by simp [faultsOf])

theorem encRound_raises (s : State) : (encRound s).Raises (faultsOf .enc) := by
  refine .bind ((readBits_raises _ _ s).mono (by simp [faultsOf])) fun r t => ?_
  cases r with
  | none => exact .ok _ _ t
  | some w => exact .bind (writeCode_raises w t) fun _ u => .ok _ _ u

theorem encBody_raises (s : State) : (encBody s).Raises (faultsOf .enc) :=
  .bind ((rewind_raises _ s).mono (by simp [faultsOf])) fun _ t =>
    .bind (.loop encRound_raises _ t) fun _ u => .bind (writeCode_raises _ u) fun _ _ => .ok _ _ _

/-! ## What a body that reaches its end leaves -/

/-- `CNT` ends with a valid frequency table (R130). -/
theorem cntBody_freqValid {s t : State} (h : cntBody s = .ok () t) : t.freqValid = true := by
  obtain ⟨_, u, -, hu⟩ := Res.bind_eq_ok h
  unfold countEof at hu
  split at hu <;> cases hu
  rfl

/-- `BLD` ends with a built tree (R140). -/
theorem bldBody_treeSt {s t : State} (h : bldBody s = .ok () t) : t.treeSt = .built := by
  unfold bldBody at h
  split at h <;> cases h
  rfl

/-- `GEN` ends with a valid code table and keeps the tree (R160). -/
theorem genBody_flags {s t : State} (h : genBody s = .ok () t) : t.treeSt = s.treeSt ∧ t.codeValid = true := by
  cases h
  exact ⟨rfl, rfl⟩

/-- The tree and the code table are as valid as before. -/
def SameFlags (s t : State) : Prop := t.treeSt = s.treeSt ∧ t.codeValid = s.codeValid

theorem SameFlags.trans {a b c : State} (h : SameFlags a b) (k : SameFlags b c) : SameFlags a c :=
  ⟨k.1.trans h.1, k.2.trans h.2⟩

theorem writeStr_sameFlags (p : Phase) (b : Bits) (s : State) : SameFlags s (writeStr p b s).state := by
  rcases writeStr_cases p b s with ⟨l, h⟩ | ⟨l, h⟩ <;> rw [h] <;> exact ⟨rfl, rfl⟩

theorem putTree_sameFlags (t : Tree) (s : State) : SameFlags s (putTree t s).state := by
  induction t generalizing s with
  | leaf x w =>
    exact Res.bind_keeps (R := SameFlags) .trans (writeStr_sameFlags _ _ s) fun _ u => writeStr_sameFlags _ _ u
  | node l r w ihl ihr =>
    exact Res.bind_keeps (R := SameFlags) .trans (writeStr_sameFlags _ _ s) fun _ u =>
      Res.bind_keeps (R := SameFlags) .trans (ihl u) fun _ v => ihr v

theorem Res.state_eq {α : Type} {x : Res α} {a : α} {t : State} (h : x = .ok a t) : x.state = t := by
  rw [h, Res.state_ok]

/-- `WMG` keeps the tree and the code table (R217). -/
theorem wmgBody_sameFlags {s t : State} (h : wmgBody s = .ok () t) : SameFlags s t :=
  Res.state_eq h ▸ writeStr_sameFlags _ _ s

/-- `SER` keeps the tree and the code table (R217). -/
theorem serBody_sameFlags {s t : State} (h : serBody s = .ok () t) : SameFlags s t :=
  Res.state_eq h ▸ putTree_sameFlags _ s

/-! ## A stage as a command of its own -/

/-- A command that the engine does not take (R243, R244; log 15). -/
theorem exec_faulted {i : Instr} {s : State} (hi : i ≠ .clr) (h : s.err ≠ .none) :
    exec i s = .next (refuseCommand s) := by
  cases i with
  | clr => exact absurd rfl hi
  | reserved0 | reserved13 | reserved14 => exact if_pos h
  | magic | hdrInt | hdrLeaf | payL | payR => exact if_pos h
  | cnt | bld | gen | wmg | ser | enc | fin | rmg | des | dec | cmp | dcmp => exact dispatch_faulted h

theorem execAll_cons {i : Instr} {is : List Instr} {s t : State} (h : exec i s = .next t) :
    execAll (i :: is) s = execAll is t := by
  rw [execAll, h]

/-- Commands refused one after another leave what one of them leaves. -/
theorem execAll_marked {is : List Instr} {s : State} (his : .clr ∉ is) (h : s.err ≠ .none) (hm : s.mark = true) :
    execAll is s = .next s := by
  induction is with
  | nil => rfl
  | cons i is ih =>
    obtain ⟨hi, his⟩ := not_or.1 (List.mem_cons.not.1 his)
    have hs : refuseCommand s = s := by rw [refuseCommand, ← hm]
    rw [execAll_cons (exec_faulted (Ne.symm hi) h), hs, ih his]

theorem execAll_faulted {i : Instr} {is : List Instr} {s : State} (his : .clr ∉ i :: is) (h : s.err ≠ .none) :
    execAll (i :: is) s = .next (refuseCommand s) := by
  obtain ⟨hi, his⟩ := not_or.1 (List.mem_cons.not.1 his)
  rw [execAll_cons (exec_faulted (Ne.symm hi) h)]
  exact execAll_marked his h rfl

/-- A command is running, with its output open. -/
structure Running (s : State) : Prop where
  err : s.err = .none
  done : s.done = false
  opened : s.out.closed = false

theorem Running.keeps {s t : State} (h : Running s) (k : Keeps s t) : Running t :=
  ⟨k.err.trans h.err, k.done.trans h.done, k.out.closed.trans h.opened⟩

/-- A command and those after it are its body and what they do with the state it leaves: a fault ends both, since a
faulted engine refuses the rest (R240, R244). -/
theorem execAll_stage {i : Instr} {is : List Instr} {pre : State → Bool} {body : State → Res Unit}
    {k : State → Res Unit} {s : State} {b : Bool} (hexec : ∀ t, exec i t = dispatch pre body t)
    (hraises : ∀ s, (body s).Raises (faultsOf i)) (hkeeps : ∀ s, Keeps s (body s).state) (his : .clr ∉ is)
    (h : Running s) (hp : pre (setDone s b) = true)
    (hk : ∀ t, body s = .ok () t → Running t → execAll is (setDone t true) = complete (k t)) :
    execAll (i :: is) (setDone s b) = complete ((body s).bind fun _ => k) := by
  have hs : setDone (setDone s b) false = s := setDone_of_done h.done
  cases hb : body s with
  | ok u t =>
    have hrun : Running t := h.keeps (by simpa [hb] using hkeeps s)
    rw [execAll_cons ((hexec _).trans (dispatch_ok (s := setDone s b) h.err hp (hs.symm ▸ hb)))]
    exact hk t hb hrun
  | raise f p t =>
    rw [execAll_cons ((hexec _).trans (dispatch_raise (s := setDone s b) h.err hp (hs.symm ▸ hb)))]
    exact execAll_marked his (faultsOf_ne_none (hraises s f p t hb)) rfl

/-- `FIN` as the last stage. -/
theorem execAll_fin {s : State} (h : Running s) (b : Bool) :
    execAll [.fin] (setDone s b) = complete (finBody .payloadEncode s) := by
  have hs : setDone (setDone s b) false = s := setDone_of_done h.done
  rw [execAll_singleton]
  exact (dispatch_runs (s := setDone s b) h.err (outOpen_iff.2 h.opened)).trans (by rw [hs])

/-! ## `CMP` -/

/-- `CNT` begins with what `CMP` discards discarded (R130, R220). -/
theorem cntBody_discardAll {s : State} (hcur : s.cur = none) (hscan : s.scan = .idle) :
    cntBody (discardAll s) = cntBody s := by
  have h : startCount (discardAll s) = startCount s := by
    unfold startCount discardAll
    rw [← hcur, ← hscan]
  rw [cntBody, cntBody, h]
  rfl

/-- The stages of `CMP` one after another are its body (R220): each leaves what the next one's precondition asks. -/
theorem execAll_compressing {s : State} (h : Running s) (hcur : s.cur = none) (hscan : s.scan = .idle) (b : Bool) :
    execAll [.cnt, .bld, .gen, .wmg, .ser, .enc, .fin] (setDone s b) = complete (cmpBody s) := by
  rw [cmpBody, cntBody_discardAll hcur hscan]
  refine execAll_stage (fun _ => rfl) cntBody_raises cntBody_keeps (by decide) h rfl fun s₁ e₁ h₁ => ?_
  have hfreq : s₁.freqValid = true := cntBody_freqValid e₁
  refine execAll_stage (fun _ => rfl) bldBody_raises bldBody_keeps (by decide) h₁ hfreq fun s₂ e₂ h₂ => ?_
  have hbuilt : s₂.treeSt = .built := bldBody_treeSt e₂
  refine execAll_stage (fun _ => rfl) genBody_raises genBody_keeps (by decide) h₂ (decide_eq_true hbuilt)
    fun s₃ e₃ h₃ => ?_
  obtain ⟨ht₃, hc₃⟩ := genBody_flags e₃
  refine execAll_stage (fun _ => rfl) wmgBody_raises wmgBody_keeps (by decide) h₃ (outOpen_iff.2 h₃.opened)
    fun s₄ e₄ h₄ => ?_
  obtain ⟨ht₄, hc₄⟩ := wmgBody_sameFlags e₄
  have htree : s₄.treeSt ≠ .none := by simp [ht₄, ht₃, hbuilt]
  refine execAll_stage (fun _ => rfl) serBody_raises serBody_keeps (by decide) h₄
    (Bool.and_eq_true_iff.2 ⟨hasTree_iff.2 htree, outOpen_iff.2 h₄.opened⟩) fun s₅ e₅ h₅ => ?_
  obtain ⟨-, hc₅⟩ := serBody_sameFlags e₅
  have hcode : s₅.codeValid = true := hc₅.trans (hc₄.trans hc₃)
  refine execAll_stage (fun _ => rfl) encBody_raises encBody_keeps (by decide) h₅
    (Bool.and_eq_true_iff.2 ⟨hcode, outOpen_iff.2 h₅.opened⟩) fun s₆ _ h₆ => ?_
  exact execAll_fin h₆ true

/-- A command and its stages one after another: on a faulted engine all are refused; otherwise the stages are to be
the body. -/
theorem exec_eq_execAll {i j : Instr} {is : List Instr} {pre : State → Bool} {body : State → Res Unit} {s : State}
    (hexec : exec i s = dispatch pre body s) (hi : .clr ∉ i :: j :: is) (hp : pre s = true)
    (hrun : s.err = .none → execAll (j :: is) s = complete (body (setDone s false))) :
    exec i s = execAll (j :: is) s := by
  obtain ⟨hne, his⟩ := not_or.1 (List.mem_cons.not.1 hi)
  by_cases he : s.err = .none
  · rw [hexec, dispatch_runs he hp, hrun he]
  · rw [exec_faulted (Ne.symm hne) he, execAll_faulted his he]

/-- Settles O46: stage by stage, each in the state the one before it leaves. -/
theorem compressIsItsStages : Obligations.CompressIsItsStages := by
  refine ⟨rfl, fun s ho hcur hscan => ?_⟩
  refine exec_eq_execAll (pre := preCmp) (body := cmpBody) rfl (by decide) (outOpen_iff.2 ho) fun he => ?_
  exact execAll_compressing (s := setDone s false) ⟨he, rfl, ho⟩ hcur hscan s.done

/-! ## `DCMP` -/

/-- A read leaves no more than it finds, and less where it answers some bits (R63, R64). -/
theorem readBits_remaining {p : Phase} {n : Nat} {s t : State} {r : Option Nat} (h : readBits p n s = .ok r t) :
    t.inp.remaining ≤ s.inp.remaining ∧ (r.isSome = true → 0 < n → t.inp.remaining < s.inp.remaining) := by
  rcases readBits_cases p n s with ⟨l, e⟩ | ⟨l, e⟩ | ⟨l, hle, e⟩ <;> cases h.symm.trans e
  · exact ⟨le_rfl, nofun⟩
  · simp only [InStream.remaining, State.advance]
    exact ⟨by omega, fun _ _ => by omega⟩

/-- A header token that is read leaves less to read. -/
theorem fetchHeader_remaining {s t : State} {mf : Nat × Nat} (h : fetchHeader s = .ok mf t) :
    t.inp.remaining < s.inp.remaining := by
  obtain ⟨r, u, hr, h⟩ := Res.bind_eq_ok h
  cases r with
  | none => cases h
  | some m =>
    have hu := (readBits_remaining hr).2 rfl (by decide)
    dsimp only at h
    split at h
    · cases h
      exact hu
    · obtain ⟨r, v, hr', h⟩ := Res.bind_eq_ok h
      have hv := (readBits_remaining hr').1
      cases r <;> cases h
      exact lt_of_le_of_lt hv hu

theorem inParse_inp (s : State) : (inParse s).inp = s.inp := by
  unfold inParse
  split <;> rfl

/-- The token `0` takes nothing more from the input, and the parse goes on (R175). -/
theorem hdrIntToken_eq_ok {s t : State} {more : Bool} (h : hdrIntToken s = .ok more t) :
    more = true ∧ t.inp = s.inp := by
  unfold hdrIntToken noRoom at h
  split at h <;> cases h
  exact ⟨rfl, inParse_inp s⟩

/-- The token `1` takes nothing more from the input; where it ends the parse there is a parsed tree (R177). -/
theorem hdrLeafToken_eq_ok {sym : Nat} {s t : State} {more : Bool} (h : hdrLeafToken sym s = .ok more t) :
    t.inp = s.inp ∧ (more = false → t.treeSt = .parsed) := by
  unfold hdrLeafToken noRoom at h
  split at h
  · split at h <;> cases h
    · exact ⟨inParse_inp s, fun _ => rfl⟩
    · exact ⟨inParse_inp s, nofun⟩
  · cases h

/-- A round of `DES` leaves less to read, and ends the parse with a parsed tree (R174, R177). -/
theorem desRound_eq_ok {s t : State} {more : Bool} (h : desRound s = .ok more t) :
    t.inp.remaining < s.inp.remaining ∧ (more = false → t.treeSt = .parsed) := by
  obtain ⟨mf, u, hu, h⟩ := Res.bind_eq_ok h
  have hlt := fetchHeader_remaining hu
  split at h
  · obtain ⟨hm, hi⟩ := hdrIntToken_eq_ok h
    exact ⟨hi ▸ hlt, fun hf => by simp [hm] at hf⟩
  · obtain ⟨hi, hp⟩ := hdrLeafToken_eq_ok h
    exact ⟨hi ▸ hlt, hp⟩

/-- A loop that reaches its end does so in a round that does not go on (R283). -/
theorem loop_eq_ok {body : State → Res Bool}
    (hb : ∀ s t, body s = .ok true t → t.inp.remaining < s.inp.remaining) {n : Nat} {s t : State}
    (hn : s.inp.remaining < n) (h : loop body n s = .ok () t) : ∃ u, body u = .ok false t := by
  induction n generalizing s with
  | zero => omega
  | succ n ih =>
    rw [loop_succ] at h
    obtain ⟨more, u, hu, h⟩ := Res.bind_eq_ok h
    cases more with
    | false =>
      cases h
      exact ⟨s, hu⟩
    | true => exact ih (by have := hb s u hu; omega) h

/-- `DES` ends with a parsed tree (R177). -/
theorem desBody_treeSt {s t : State} (h : desBody s = .ok () t) : t.treeSt = .parsed := by
  obtain ⟨u, hu⟩ := loop_eq_ok (fun _ _ h => (desRound_eq_ok h).1) (Nat.lt_succ_self _) h
  exact (desRound_eq_ok hu).2 rfl

/-- The stages `RMG`, `DES`, `DEC` and what follows them are their bodies and what follows. -/
theorem execAll_reading {is : List Instr} {k : State → Res Unit} {s : State} (h : Running s) (his : .clr ∉ is)
    (b : Bool)
    (hk : ∀ s₁ s₂ s₃, rmgBody s = .ok () s₁ → desBody s₁ = .ok () s₂ → decBody s₂ = .ok () s₃ → Running s₃ →
      execAll is (setDone s₃ true) = complete (k s₃)) :
    execAll (.rmg :: .des :: .dec :: is) (setDone s b) =
      complete ((rmgBody s).bind fun _ s₁ => (desBody s₁).bind fun _ s₂ => (decBody s₂).bind fun _ => k) := by
  refine execAll_stage (fun _ => rfl) rmgBody_raises rmgBody_keeps (by simp [his]) h rfl fun s₁ e₁ h₁ => ?_
  refine execAll_stage (fun _ => rfl) desBody_raises desBody_keeps (by simp [his]) h₁ rfl fun s₂ e₂ h₂ => ?_
  have htree : s₂.treeSt ≠ .none := by simp [desBody_treeSt e₂]
  exact execAll_stage (fun _ => rfl) decBody_raises decBody_keeps his h₂
    (Bool.and_eq_true_iff.2 ⟨hasTree_iff.2 htree, outOpen_iff.2 h₂.opened⟩) fun s₃ e₃ h₃ => hk s₁ s₂ s₃ e₁ e₂ e₃ h₃

/-- What `DCMP` discards before `RMG`, `DES` would discard after it (R174, R221). -/
theorem complete_dcmpBody {s : State} (hcur : s.cur = none) (hscan : s.scan = .idle) (hfreq : s.freqValid = false) :
    complete (dcmpBody s) = complete ((rmgBody s).bind fun _ s₁ => (desBody s₁).bind fun _ s₂ =>
      (decBody s₂).bind fun _ => finBody .payloadDecode) := by
  rw [dcmpBody, discardAll_eq_withoutTree hcur hscan hfreq, rmgBody_withoutTree]
  cases rmgBody s <;> rfl

/-- The phase of an access shows only where it fails (R249). -/
theorem access_phase {s : State} (h : ∀ l, s.ioFail ≠ 0 :: l) (p q : Phase) : access p s = access q s := by
  unfold access
  split
  · rfl
  · rename_i l hl
    exact absurd hl (h l)
  · rfl

theorem finBody_phase {s : State} (h : ∀ l, s.ioFail ≠ 0 :: l) (p q : Phase) : finBody p s = finBody q s := by
  rw [finBody, finBody, close, close, access_phase h p q]

/-- A collaborator that does not fail still does not after a piece of a body (R78). -/
theorem Metered.ioFail_eq_nil {α : Type} {f : State → Res α} {ps : List Phase} {o : Bits} {s t : State} {a : α}
    (hf : Metered ps o fun l => f (s.withPlan l)) (hio : s.ioFail = []) (h : f s = .ok a t) : t.ioFail = [] := by
  have hs : s.withPlan [] = s := by rw [← hio]; rfl
  have hplan := hf.plan
  rwa [hs, h] at hplan

/-- Settles O47: as `CMP`; the last stage's phase would show only if `Close` failed, which is left out. -/
theorem decompressIsItsStages : Obligations.DecompressIsItsStages := by
  refine ⟨rfl, fun s ho hcur hscan hfreq hio => ?_⟩
  refine exec_eq_execAll (pre := preDcmp) (body := dcmpBody) rfl (by decide) (outOpen_iff.2 ho) fun he => ?_
  have hrun : Running (setDone s false) := ⟨he, rfl, ho⟩
  rw [complete_dcmpBody (s := setDone s false) hcur hscan hfreq]
  refine execAll_reading hrun (by decide) s.done fun s₁ s₂ s₃ e₁ e₂ e₃ h₃ => ?_
  have hclose : ∀ l, s₃.ioFail ≠ 0 :: l := by
    rcases hio with hio | hio
    · have i₁ : s₁.ioFail = [] := (rmgBody_metered (setDone s false)).ioFail_eq_nil hio e₁
      have i₂ : s₂.ioFail = [] := (desBody_metered s₁).ioFail_eq_nil i₁ e₂
      have i₃ : s₃.ioFail = [] := (decBody_metered s₂).ioFail_eq_nil i₂ e₃
      simp [i₃]
    · have hall := execAll_reading (is := []) (k := .ok ()) hrun (by decide) s.done fun _ _ _ _ _ _ _ => rfl
      rw [e₁, Res.bind_ok, e₂, Res.bind_ok, e₃, Res.bind_ok] at hall
      exact fun l => hio (setDone s₃ true) l (hall.trans rfl) h₃.err
  rw [execAll_fin h₃, finBody_phase hclose .payloadEncode .payloadDecode]

end Sys2Proof.Machine

/-! Bytes after the end of what a command reads (30_encoding.md R98, 45_stream_decoder.md R205). -/

namespace Sys2Proof.Machine

/-! ## What a round of `DEC` leaves to read -/

theorem writeStr_inp (p : Phase) (b : Bits) (s : State) : (writeStr p b s).state.inp = s.inp := by
  rcases writeStr_cases p b s with ⟨l, h⟩ | ⟨l, h⟩ <;> rw [h] <;> rfl

/-- A move of the walk takes nothing from the input (R201). -/
theorem payMove_inp (b : Bool) (path : Bits) (s : State) : (payMove b path s).state.inp = s.inp := by
  unfold payMove
  split
  · split
    · rfl
    · split
      · rfl
      · exact Res.bind_keeps (R := fun a b => b.inp = a.inp) (fun h k => k.trans h) (writeStr_inp _ _ s)
          fun _ _ => rfl
  · rfl
  · rfl

theorem payToken_inp (b : Bool) (s : State) : (payToken b s).state.inp = s.inp := by
  unfold payToken
  split
  · exact payMove_inp b _ s
  · split
    · exact payMove_inp b [] _
    · rfl

/-- A round of `DEC` leaves less to read (R200). -/
theorem decRound_remaining {s t : State} {more : Bool} (h : decRound s = .ok more t) :
    t.inp.remaining < s.inp.remaining := by
  obtain ⟨b, u, hu, ht⟩ := Res.bind_eq_ok h
  obtain ⟨r, v, hv, hr⟩ := Res.bind_eq_ok hu
  cases r <;> cases hr
  have hi : t.inp = u.inp := Res.state_eq ht ▸ payToken_inp _ u
  exact hi ▸ (readBits_remaining hv).2 rfl (by decide)

/-! ## More bytes at the end of the input -/

/-- The state with some more bytes at the end of its input. -/
def State.withMore (more : List Byte) (s : State) : State :=
  { s with inp := ⟨s.inp.data ++ more, s.inp.pos⟩ }

section
variable {more : List Byte} (s : State)

@[simp] theorem State.withMore_cfg : (s.withMore more).cfg = s.cfg := rfl

@[simp] theorem State.withMore_tree : (s.withMore more).tree = s.tree := rfl

@[simp] theorem State.withMore_cur : (s.withMore more).cur = s.cur := rfl

@[simp] theorem openNodes_withMore : openNodes (s.withMore more) = openNodes s := rfl

@[simp] theorem preDec_withMore : preDec (s.withMore more) = preDec s := rfl

end

/-- A piece of a body that goes on does the same with more bytes at the end of the input. -/
def IgnoresMore {α : Type} (more : List Byte) (f : State → Res α) : Prop :=
  ∀ s a t, f s = .ok a t → f (s.withMore more) = .ok a (t.withMore more)

section
variable {α β : Type} {more : List Byte}

/-- A piece that does not look at the input. -/
theorem IgnoresMore.of_blind {f : State → Res α}
    (h : ∀ s, f (s.withMore more) = (f s).mapState (State.withMore more)) : IgnoresMore more f := by
  intro s a t e
  rw [h, e]
  rfl

theorem IgnoresMore.ok (a : α) : IgnoresMore more (.ok a) := .of_blind fun _ => rfl

/-- Pieces in a row. -/
theorem IgnoresMore.bind {f : State → Res α} {k : α → State → Res β} (hf : IgnoresMore more f)
    (hk : ∀ a, IgnoresMore more (k a)) : IgnoresMore more fun s => (f s).bind k := by
  intro s b t h
  obtain ⟨a, u, hu, h⟩ := Res.bind_eq_ok h
  simp only [hf s a u hu, Res.bind_ok, hk a u b t h]

/-- A loop that reaches its end, with any fuel past what it had (R283). -/
theorem IgnoresMore.loop {body : State → Res Bool} (hb : IgnoresMore more body)
    (hless : ∀ s t, body s = .ok true t → t.inp.remaining < s.inp.remaining) {n m : Nat} {s t : State}
    (hn : s.inp.remaining < n) (hm : n ≤ m) (h : loop body n s = .ok () t) :
    loop body m (s.withMore more) = .ok () (t.withMore more) := by
  induction n generalizing m s with
  | zero => omega
  | succ n ih =>
    obtain ⟨m, rfl⟩ := Nat.exists_eq_add_of_le' (Nat.one_le_of_lt hm)
    rw [loop_succ] at h
    obtain ⟨goes, u, hu, h⟩ := Res.bind_eq_ok h
    rw [loop_succ, hb s goes u hu, Res.bind_ok]
    cases goes with
    | false =>
      cases h
      rfl
    | true =>
      have hlt := hless s u hu
      exact ih (by omega) (by omega) h

/-! ## Accesses -/

theorem access_withMore (p : Phase) (s : State) :
    access p (s.withMore more) = (access p s).mapState (State.withMore more) := by
  unfold access State.withMore
  dsimp only
  split <;> rfl

/-- Pieces in a row that each do the same in a changed state. -/
theorem Res.bind_mapState {g : State → State} {x : Res α} {k : α → State → Res β}
    (hk : ∀ a s, k a (g s) = (k a s).mapState g) : (x.mapState g).bind k = (x.bind k).mapState g := by
  cases x with
  | ok a s => exact hk a s
  | raise f p s => rfl

theorem writeStr_withMore (p : Phase) (b : Bits) (s : State) :
    writeStr p b (s.withMore more) = (writeStr p b s).mapState (State.withMore more) := by
  rw [writeStr, access_withMore]
  exact Res.bind_mapState fun _ _ => rfl

theorem finBody_ignoresMore (p : Phase) : IgnoresMore more (finBody p) :=
  .bind (.of_blind (access_withMore p)) fun _ => .of_blind fun _ => rfl

/-- The next bits where they are all there. -/
theorem InStream.rest_take_append {i : InStream} {n : Nat} (h : i.pos + n ≤ 8 * i.data.length) :
    (InStream.rest ⟨i.data ++ more, i.pos⟩).take n = i.rest.take n := by
  have hlen := bitsOfBytes_length i.data
  rw [InStream.rest, InStream.rest, bitsOfBytes_append, List.drop_append_of_le_length (by dsimp only; omega),
    List.take_append_of_le_length (by rw [List.length_drop]; dsimp only; omega)]

/-- `ReadBits(n)` where it answers some bits (R63). -/
theorem readBits_withMore {p : Phase} {n v : Nat} {s t : State} (h : readBits p n s = .ok (some v) t) :
    readBits p n (s.withMore more) = .ok (some v) (t.withMore more) := by
  obtain ⟨_, u, hu, h⟩ := Res.bind_eq_ok h
  split at h
  · rename_i hle
    cases h
    rw [readBits, access_withMore, hu]
    have hle' : u.inp.pos + n ≤ 8 * (u.inp.data ++ more).length := by rw [List.length_append]; omega
    simp only [Res.mapState, Res.bind_ok, State.withMore, if_pos hle', InStream.rest_take_append hle]
  · cases h

/-- A read whose end of the input is a fault, and what follows it. -/
theorem IgnoresMore.read {p : Phase} {n : Nat} {k : Option Nat → State → Res α}
    (heod : ∀ s a t, k none s ≠ .ok a t) (hk : ∀ v, IgnoresMore more (k (some v))) :
    IgnoresMore more fun s => (readBits p n s).bind k := by
  intro s a t h
  obtain ⟨r, u, hu, h⟩ := Res.bind_eq_ok h
  cases r with
  | none => exact absurd h (heod _ _ _)
  | some v => simp only [readBits_withMore hu, Res.bind_ok, hk v u a t h]

/-! ## `RMG` -/

theorem magicToken_ignoresMore (m : Nat) : IgnoresMore more (magicToken m) := .of_blind fun s => by
  by_cases h : m = s.cfg.magic.toNat <;> simp [magicToken, Res.mapState, State.withMore, h]

theorem fetchMagic_ignoresMore : IgnoresMore more fetchMagic :=
  .read (fun _ _ _ h => by cases h) fun m => .ok m

theorem rmgBody_ignoresMore : IgnoresMore more rmgBody :=
  .bind fetchMagic_ignoresMore fun m => .bind (magicToken_ignoresMore m) fun _ => .ok ()

/-! ## `DES` -/

theorem fetchHeader_ignoresMore : IgnoresMore more fetchHeader := by
  refine .read (fun _ _ _ h => by cases h) fun marker => ?_
  by_cases hm : fieldWidth marker = 0
  · simpa only [hm, if_true] using .ok _
  · simp only [hm, if_false]
    exact .read (fun _ _ _ h => by cases h) fun field => .ok _

theorem inParse_withMore (s : State) : inParse (s.withMore more) = (inParse s).withMore more := by
  unfold inParse State.withMore
  dsimp only
  split <;> rfl

theorem hdrIntToken_ignoresMore : IgnoresMore more hdrIntToken := .of_blind fun s => by
  unfold hdrIntToken noRoom
  rw [inParse_withMore, openNodes_withMore, State.withMore_cfg]
  split <;> rfl

theorem hdrLeafToken_ignoresMore (sym : Nat) : IgnoresMore more (hdrLeafToken sym) := .of_blind fun s => by
  unfold hdrLeafToken noRoom
  rw [inParse_withMore, openNodes_withMore, State.withMore_cfg]
  split
  · split <;> rfl
  · rfl

theorem desRound_ignoresMore : IgnoresMore more desRound := by
  refine .bind fetchHeader_ignoresMore fun mf => ?_
  by_cases hm : mf.1 = 0
  · simpa only [hm, if_true] using hdrIntToken_ignoresMore
  · simpa only [hm, if_false] using hdrLeafToken_ignoresMore mf.2

theorem remaining_le_withMore (s : State) : s.inp.remaining ≤ (s.withMore more).inp.remaining := by
  simp only [State.withMore, InStream.remaining, List.length_append]
  omega

theorem desBody_ignoresMore : IgnoresMore more desBody := fun s _ _ h =>
  desRound_ignoresMore.loop (s := beginParse s) (fun _ _ e => (desRound_eq_ok e).1) (Nat.lt_succ_self _)
    (Nat.succ_le_succ (remaining_le_withMore s)) h

/-! ## `DEC` -/

theorem fetchPayload_ignoresMore : IgnoresMore more fetchPayload :=
  .read (fun _ _ _ h => by cases h) fun b => .ok b

theorem payMove_withMore (b : Bool) (path : Bits) (s : State) :
    payMove b path (s.withMore more) = (payMove b path s).mapState (State.withMore more) := by
  unfold payMove
  rw [State.withMore_tree]
  split
  · split
    · rfl
    · split
      · rfl
      · rw [writeBits, writeBits, writeStr_withMore]
        exact Res.bind_mapState fun _ _ => rfl
  · rfl
  · rfl

theorem payToken_ignoresMore (b : Bool) : IgnoresMore more (payToken b) := .of_blind fun s => by
  unfold payToken
  rw [State.withMore_cur, preDec_withMore]
  split
  · exact payMove_withMore b _ s
  · split
    · exact payMove_withMore b [] { s with cur := some [] }
    · rfl

theorem decRound_ignoresMore : IgnoresMore more decRound :=
  .bind fetchPayload_ignoresMore fun _ => payToken_ignoresMore _

theorem decBody_ignoresMore : IgnoresMore more decBody := fun s _ _ h =>
  decRound_ignoresMore.loop (s := { s with cur := some [] }) (fun _ _ => decRound_remaining) (Nat.lt_succ_self _)
    (Nat.succ_le_succ (remaining_le_withMore s)) h

/-! ## `DCMP` -/

theorem dcmpBody_ignoresMore : IgnoresMore more dcmpBody :=
  have hrmg : IgnoresMore more fun s => rmgBody (discardAll s) := fun s => rmgBody_ignoresMore (discardAll s)
  hrmg.bind fun _ => desBody_ignoresMore.bind fun _ => decBody_ignoresMore.bind fun _ => finBody_ignoresMore _

end

theorem dcmpBody_raises (s : State) : (dcmpBody s).Raises (faultsOf .dcmp) :=
  .bind ((rmgBody_raises _).mono (by simp [faultsOf])) fun _ s₁ =>
    .bind ((desBody_raises s₁).mono (by simp [faultsOf])) fun _ s₂ =>
      .bind ((decBody_raises s₂).mono (by simp [faultsOf])) fun _ s₃ =>
        (close_raises _ s₃).mono (by simp [faultsOf])

/-- Settles O52: `DCMP` reads only bits that are there, and ends in a round of its own. -/
theorem bytesAfterTheTerminatorDoNotMatter : Obligations.BytesAfterTheTerminatorDoNotMatter := by
  intro s t more ⟨he, _⟩ h ht
  have hp : preDcmp s = true := by
    by_contra hp
    obtain rfl := Host.Outcome.next.inj ((dispatch_illegal he (by simpa using hp)).symm.trans h)
    cases ht
  have hdata : t.inp.data = s.inp.data := (exec_grows h).data
  obtain ⟨-, u, hu, rfl⟩ := dispatch_completed dcmpBody_raises h ht
  have hrun : exec .dcmp (s.withMore more) = .next (setDone (u.withMore more) true) :=
    dispatch_ok (s := s.withMore more) he hp (dcmpBody_ignoresMore (setDone s false) () u hu)
  refine hrun.trans ?_
  rw [← hdata]
  rfl

end Sys2Proof.Machine

/-! Family `40_frequency_counter.md`: what the loop of `CNT` counts, and where a finite `CNT_W` stops it. -/

namespace Sys2Proof.Machine

/-! ## Words one by one -/

/-- The word that `ReadBits(8)` returns where a word is left (R63). -/
def InStream.nextWord (i : InStream) : Nat := uint (i.rest.take 8)

theorem InStream.nextWord_lt {i : InStream} (h : 8 ≤ i.rest.length) : i.nextWord < 256 := uint_take_lt h

/-- The words of an input with a word left are that word and the words after it (R71). -/
theorem InStream.words_cons {i : InStream} (h : 8 ≤ i.rest.length) :
    i.words = i.nextWord :: InStream.words { i with pos := i.pos + 8 } := by
  have hbytes : bytesOfBits i.rest = BitVec.ofNat 8 i.nextWord :: bytesOfBits (i.rest.drop 8) := by
    conv_lhs => rw [← List.take_append_drop 8 i.rest]
    exact bytesOfBits_append_byte (List.length_take_of_le h)
  have hw : (BitVec.ofNat 8 i.nextWord).toNat = i.nextWord := Nat.mod_eq_of_lt (InStream.nextWord_lt h)
  rw [InStream.words_eq_bytes, InStream.words_eq_bytes, InStream.rest_advance, hbytes, List.map_cons, hw]

/-! ## Counts -/

/-- `FREQ[w] <- FREQ[w] + 1` (R130). -/
def bumpFreq (f : Vector Nat nsym) (w : Nat) : Vector Nat nsym := setFreq f w (freqAt f w + 1)

/-- No count passes a finite `CNT_W` when the words `ws` are counted on top of `f` (R133). -/
def WordsFit (c : Config) (f : Vector Nat nsym) (ws : List Nat) : Prop :=
  ∀ i ∈ ws, fitsCount c (freqAt f i + ws.count i) = true

/-- Counting a word before or after the others gives the same sum. -/
theorem freqAt_bumpFreq_add {f : Vector Nat nsym} {w : Nat} (hw : w < 256) (ws : List Nat) (i : Nat) :
    freqAt (bumpFreq f w) i + ws.count i = freqAt f i + (w :: ws).count i := by
  rw [bumpFreq, freqAt_setFreq i (show w < 257 by omega), List.count_cons]
  by_cases h : w = i
  · simp only [h, if_true, beq_self_eq_true]
    omega
  · simp [h]

theorem fitsCount_mono {c : Config} {m n : Nat} (hmn : m ≤ n) (h : fitsCount c n = true) :
    fitsCount c m = true := by
  rw [fitsCount_iff] at h ⊢
  exact fun w hw => hmn.trans (h w hw)

/-- The words fit when the first does and the others do after it. -/
theorem wordsFit_cons {c : Config} {f : Vector Nat nsym} {w : Nat} (hw : w < 256) (ws : List Nat) :
    WordsFit c f (w :: ws) ↔ fitsCount c (freqAt f w + 1) = true ∧ WordsFit c (bumpFreq f w) ws := by
  simp only [WordsFit, freqAt_bumpFreq_add hw]
  constructor
  · intro h
    have hcount : 1 ≤ (w :: ws).count w := List.count_pos_iff.2 List.mem_cons_self
    exact ⟨fitsCount_mono (by omega) (h w List.mem_cons_self), fun i hi => h i (List.mem_cons_of_mem w hi)⟩
  · rintro ⟨hfirst, hlater⟩ i hi
    by_cases his : i ∈ ws
    · exact hlater i his
    · obtain rfl : i = w := (List.mem_cons.1 hi).resolve_right his
      simpa [List.count_eq_zero.2 his] using hfirst

/-- The premises of `CNT` on a cleared table are that its words fit. -/
theorem wordsFit_replicate {c : Config} {i : InStream} :
    WordsFit c (Vector.replicate nsym 0) i.words ↔
      ∀ w, c.cntW = some w → ∀ j < 256, i.words.count j ≤ 2 ^ w - 1 := by
  simp only [WordsFit, freqAt_replicate, Nat.zero_add, fitsCount_iff]
  constructor
  · intro h w hw j _
    by_cases hj : j ∈ i.words
    · exact h j hj w hw
    · simp [List.count_eq_zero.2 hj]
  · exact fun h j hj w hw => h w hw j (InStream.words_lt j hj)

/-! ## The loop -/

/-- The state with another table, the input at another position. -/
def State.countedTo (s : State) (f : Vector Nat nsym) (p : Nat) : State :=
  { s with freq := f, inp := ⟨s.inp.data, p⟩ }

/-- A round that finds no whole word ends the loop. -/
theorem cntRound_eod {s : State} (hio : s.ioFail = []) (h : s.inp.rest.length < 8) :
    cntRound s = .ok false s := by
  rw [cntRound, readBits_eod hio h, Res.bind_ok]

/-- A round that finds a word counts it, from the position after it. -/
theorem cntRound_word {s : State} (hio : s.ioFail = []) (h : 8 ≤ s.inp.rest.length) :
    cntRound s = (countWord s.inp.nextWord (s.advance 8)).bind fun _ t => .ok true t := by
  rw [cntRound, readBits_take hio (by decide) h]
  rfl

/-- A round whose word's count fits counts it and goes on. -/
theorem cntRound_fits {s : State} (hio : s.ioFail = []) (h : 8 ≤ s.inp.rest.length)
    (hf : fitsCount s.cfg (freqAt s.freq s.inp.nextWord + 1) = true) :
    cntRound s = .ok true (s.countedTo (bumpFreq s.freq s.inp.nextWord) (s.inp.pos + 8)) := by
  rw [cntRound_word hio h, countWord, State.advance_cfg, State.advance_freq, if_pos hf]
  rfl

/-- A round whose word's count is past the limit raises the fault after it has read the word (R133). -/
theorem cntRound_past {s : State} (hio : s.ioFail = []) (h : 8 ≤ s.inp.rest.length)
    (hf : ¬ fitsCount s.cfg (freqAt s.freq s.inp.nextWord + 1) = true) :
    cntRound s = .raise .capacityError .count (s.countedTo s.freq (s.inp.pos + 8)) := by
  rw [cntRound_word hio h, countWord, State.advance_cfg, State.advance_freq, if_neg hf]
  rfl

/-- Everything the loop of `CNT` can do on streams that do not fail: it counts every word, or a word does not
fit and it raises the fault between the position and the end (R130, R133). -/
theorem loop_cntRound_cases {n : Nat} {s : State} (hio : s.ioFail = []) (hn : s.inp.remaining < n) :
    (WordsFit s.cfg s.freq s.inp.words ∧ ∃ f, (∀ i, freqAt f i = freqAt s.freq i + s.inp.words.count i) ∧
      loop cntRound n s = .ok () (s.countedTo f (s.inp.pos + 8 * s.inp.words.length))) ∨
    (¬ WordsFit s.cfg s.freq s.inp.words ∧ ∃ f p, s.inp.pos ≤ p ∧ p ≤ 8 * s.inp.data.length ∧
      loop cntRound n s = .raise .capacityError .count (s.countedTo f p)) := by
  induction n generalizing s with
  | zero => omega
  | succ n ih =>
    have hl : s.inp.rest.length = 8 * s.inp.data.length - s.inp.pos := s.inp.rest_length
    rw [loop_succ]
    by_cases h8 : s.inp.rest.length < 8
    · have hnil : s.inp.words = [] := InStream.words_nil (s.inp.rest_length ▸ h8)
      rw [hnil, cntRound_eod hio h8]
      exact .inl ⟨fun i hi => absurd hi List.not_mem_nil, s.freq, fun _ => rfl, rfl⟩
    · rw [not_lt] at h8
      have hw := InStream.nextWord_lt h8
      rw [InStream.words_cons h8, wordsFit_cons hw]
      by_cases hf : fitsCount s.cfg (freqAt s.freq s.inp.nextWord + 1) = true
      · rw [cntRound_fits hio h8 hf]
        have hless : InStream.remaining { s.inp with pos := s.inp.pos + 8 } < n := by
          have hrest := s.inp.rest_length
          exact (s.inp.remaining_advance 8).trans_lt (by omega)
        rcases ih (s := s.countedTo (bumpFreq s.freq s.inp.nextWord) (s.inp.pos + 8)) hio hless with
          ⟨hfit, f, hcount, hloop⟩ | ⟨hfit, f, p, hle, hend, hloop⟩
        · refine .inl ⟨⟨hf, hfit⟩, f, fun i => (hcount i).trans (freqAt_bumpFreq_add hw _ i), hloop.trans ?_⟩
          rw [List.length_cons, Nat.mul_succ, Nat.add_comm (8 * _) 8, ← Nat.add_assoc]
          rfl
        · exact .inr ⟨fun h => hfit h.2, f, p, (Nat.le_add_right _ 8).trans hle, hend, hloop⟩
      · rw [cntRound_past hio h8 hf]
        exact .inr ⟨fun h => hf h.1, s.freq, s.inp.pos + 8, by omega, by omega, rfl⟩

/-! ## `CNT` -/

/-- The count 1 of pseudo-EOF (R130). -/
theorem countEof_ok {s : State} (h : fitsCount s.cfg 1 = true) :
    countEof s = .ok () { s with freq := setFreq s.freq pseudoEof 1, freqValid := true } := by
  rw [countEof, if_pos h]

/-- `CNT` is its loop and the count of pseudo-EOF (R130). -/
theorem cntBody_of_loop {s : State} {r : Res Unit}
    (h : loop cntRound (s.inp.remaining + 1) (startCount s) = r) :
    cntBody s = r.bind fun _ t => countEof t := by
  rw [cntBody, h]

/-- Settles O19: the loop counts every word, and the end of `CNT` counts the one pseudo-EOF. -/
theorem countGivesTheOccurrences : Obligations.CountGivesTheOccurrences := by
  refine ⟨rfl, fun s ⟨he, hio⟩ hfit => ?_⟩
  have hone : fitsCount s.cfg 1 = true := (fitsCount_iff _ _).2 fun w hw => (hfit w hw).1
  have hwords : WordsFit s.cfg (Vector.replicate nsym 0) s.inp.words :=
    wordsFit_replicate.2 fun w hw => (hfit w hw).2
  rcases loop_cntRound_cases (s := startCount (setDone s false)) hio (Nat.lt_succ_self _) with
    ⟨-, f, hcount, hloop⟩ | ⟨hpast, -⟩
  · have hbody := (cntBody_of_loop hloop).trans (countEof_ok hone)
    refine ⟨setFreq f pseudoEof 1, ⟨fun i hi => ?_, freqAt_setFreq pseudoEof (by decide)⟩,
      (dispatch_ok he rfl hbody).trans rfl⟩
    rw [freqAt_setFreq i (by decide), if_neg (show pseudoEof ≠ i from hi.ne'), hcount]
    simp
  · exact absurd hwords hpast

/-- Settles O20: the words do not fit, so the loop raises the fault. -/
theorem countPastItsWidthIsACapacityError : Obligations.CountPastItsWidthIsACapacityError := by
  intro s w i ⟨he, hio⟩ hcnt hi hpast
  have hwords : ¬ WordsFit s.cfg (Vector.replicate nsym 0) s.inp.words := fun h =>
    absurd (wordsFit_replicate.1 h w hcnt i hi) (by omega)
  rcases loop_cntRound_cases (s := startCount (setDone s false)) hio (Nat.lt_succ_self _) with
    ⟨hfit, -⟩ | ⟨-, f, p, hle, hend, hloop⟩
  · exact absurd hfit hwords
  · have hbody : cntBody (setDone s false) =
        .raise .capacityError .count ((startCount (setDone s false)).countedTo f p) := cntBody_of_loop hloop
    exact ⟨f, p, hle, hend, (dispatch_raise he rfl hbody).trans rfl⟩

end Sys2Proof.Machine

/-! The tree builder (41_tree_builder.md): the merge that `BLD` runs is the one of R144, and the weights and leaves of
the tree it stores are those of the frequency table. -/

namespace Sys2Proof.Machine

/-! ## A round of the merge -/

/-- A round of R144 takes the entry `a` out of `es`, then `b`, and leaves `rest`. -/
def TakesOut (es : List Entry) (a b : Entry) (rest : List Entry) : Prop :=
  ∃ es', IsLeast a es ∧ es.Perm (a :: es') ∧ IsLeast b es' ∧ es'.Perm (b :: rest)

theorem IsLeast.perm {a : Entry} {es es' : List Entry} (h : Machine.IsLeast a es) (hp : es.Perm es') :
    Machine.IsLeast a es' :=
  ⟨hp.mem_iff.1 h.1, fun x hx => h.2 x (hp.mem_iff.2 hx)⟩

/-- Among entries with distinct numbers the one that `ExtractMin` takes is the least (R141). -/
theorem extractMin_isLeast {x : Entry} {xs : List Entry} (hd : ((x :: xs).map Entry.seq).Nodup) :
    IsLeast (extractMin x xs).1 (x :: xs) := by
  have hmem := (extractMin_perm x xs).mem_iff.2 (List.mem_cons_self ..)
  refine ⟨hmem, fun y hy => ?_⟩
  rcases extractMin_least x xs y hy with hlt | ⟨hw, hle⟩
  · exact .inr (.inl hlt)
  · rcases hle.eq_or_lt with hs | hs
    · exact .inl (List.inj_on_of_nodup_map hd hy hmem hs.symm)
    · exact .inr (.inr ⟨hw, hs⟩)

theorem TakesOut.perm {es rest : List Entry} {a b : Entry} (h : TakesOut es a b rest) :
    es.Perm (a :: b :: rest) := by
  obtain ⟨es', -, hp, -, hp'⟩ := h
  exact hp.trans (hp'.cons a)

/-- What a round takes out does not depend on how the entries are listed (R141, R146). -/
theorem TakesOut.unique {es es' rest rest' : List Entry} {a a' b b' : Entry} (h : TakesOut es a b rest)
    (h' : TakesOut es' a' b' rest') (hes : es.Perm es') : a = a' ∧ b = b' ∧ rest.Perm rest' := by
  obtain ⟨l, ha, hl, hb, hr⟩ := h
  obtain ⟨l', ha', hl', hb', hr'⟩ := h'
  obtain rfl := ha.unique (ha'.perm hes.symm)
  have hll : l.Perm l' := (hl.symm.trans (hes.trans hl')).cons_inv
  obtain rfl := hb.unique (hb'.perm hll.symm)
  exact ⟨rfl, rfl, (hr.symm.trans (hll.trans hr')).cons_inv⟩

/-- The rounds of the relation in terms of what they take out (R144). -/
theorem mergesTo_round_iff {k : Nat} {es : List Entry} {t : Tree} (hlen : 2 ≤ es.length) :
    MergesTo k es t ↔ ∃ a b rest, TakesOut es a b rest ∧ MergesTo (k + 1) (mergeEntry k a b :: rest) t := by
  constructor
  · intro h
    cases h with
    | root => simp at hlen
    | round _ _ es' rest a b _ least removed least' removed' merged =>
      exact ⟨a, b, rest, ⟨es', least, removed, least', removed'⟩, merged⟩
  · rintro ⟨a, b, rest, ⟨es', least, removed, least', removed'⟩, merged⟩
    exact .round k es es' rest a b t least removed least' removed' merged

/-- The merge rule gives one tree at most, however the entries are listed (R146). -/
theorem MergesTo.unique {k : Nat} {es es' : List Entry} {t t' : Tree} (h : MergesTo k es t)
    (h' : MergesTo k es' t') (hes : es.Perm es') : t = t' := by
  induction h generalizing es' t' with
  | root k e =>
    obtain rfl := List.singleton_perm.1 hes
    cases h' with
    | root => rfl
    | round _ _ _ _ _ _ _ _ removed _ removed' =>
      have := (removed.trans (removed'.cons _)).length_eq
      simp at this
  | round k es l rest a b t least removed least' removed' _ ih =>
    have hout : TakesOut es a b rest := ⟨l, least, removed, least', removed'⟩
    have hlen : 2 ≤ es'.length := by
      rw [← hes.length_eq, hout.perm.length_eq]
      simp
    obtain ⟨a', b', rest', hout', merged'⟩ := (mergesTo_round_iff hlen).1 h'
    obtain ⟨rfl, rfl, hrest⟩ := hout.unique hout' hes
    exact ih merged' (hrest.cons _)

/-! ## The merge that is run -/

/-- The entries of `PQ` after `k` rounds have distinct numbers, below that of the next internal node (R141). -/
structure Numbered (k : Nat) (es : List Entry) : Prop where
  distinct : (es.map Entry.seq).Nodup
  below : ∀ e ∈ es, e.seq < firstInternalSeq + k

theorem Numbered.round {k : Nat} {es rest : List Entry} {a b : Entry} (h : Numbered k es)
    (ht : TakesOut es a b rest) : Numbered (k + 1) (mergeEntry k a b :: rest) := by
  have hbelow : ∀ e ∈ rest, e.seq < firstInternalSeq + k := fun e he =>
    h.below e (ht.perm.mem_iff.2 (by simp [he]))
  have hrest : (rest.map Entry.seq).Nodup :=
    ((ht.perm.map Entry.seq).nodup_iff.1 h.distinct).of_cons.of_cons
  refine ⟨List.nodup_cons.2 ⟨fun hm => ?_, hrest⟩, List.forall_mem_cons.2 ⟨?_, fun e he => ?_⟩⟩
  · obtain ⟨e, he, hs⟩ := List.mem_map.1 hm
    exact absurd hs (hbelow e he).ne
  · exact Nat.lt_succ_self _
  · exact (hbelow e he).trans (Nat.lt_succ_self _)

/-- The sum of the weights of some entries. -/
def totalWeight (es : List Entry) : Nat := (es.map Entry.weight).sum

theorem TakesOut.totalWeight {es rest : List Entry} {a b : Entry} (h : TakesOut es a b rest) :
    totalWeight es = a.weight + b.weight + totalWeight rest := by
  simp [Machine.totalWeight, (h.perm.map Entry.weight).sum_eq, Nat.add_assoc]

/-- A round as it is run (R144): what it takes out, and that it ends the merge when the weight does not fit. -/
theorem mergeAll_round {x y : Entry} {ys : List Entry} (hd : ((x :: y :: ys).map Entry.seq).Nodup) :
    ∃ a b rest, TakesOut (x :: y :: ys) a b rest ∧ ∀ c fuel k,
      mergeAll c (fuel + 1) k x (y :: ys) =
        if fitsCount c (a.weight + b.weight) then mergeAll c fuel (k + 1) (mergeEntry k a b) rest else none := by
  have hperm := extractMin_perm x (y :: ys)
  rcases hout : (extractMin x (y :: ys)).2 with _ | ⟨z, zs⟩ <;> rw [hout] at hperm
  · exact absurd hperm.length_eq (by simp)
  · have hz : ((z :: zs).map Entry.seq).Nodup := ((hperm.map Entry.seq).nodup_iff.1 hd).of_cons
    exact ⟨_, _, _, ⟨z :: zs, extractMin_isLeast hd, hperm, extractMin_isLeast hz, extractMin_perm z zs⟩,
      fun c fuel k => by rw [mergeAll, hout]⟩

/-- The merge as it is run gives the tree of the merge rule, unless the sum of the weights, which is the weight of
the root, does not fit: every other weight is less (R144, R149). -/
theorem mergeAll_eq {c : Config} {fuel k : Nat} {x : Entry} {xs : List Entry} (hn : Numbered k (x :: xs))
    (hlen : xs.length ≤ fuel) :
    ∃ t, MergesTo k (x :: xs) t ∧
      mergeAll c fuel k x xs = if xs = [] ∨ fitsCount c (totalWeight (x :: xs)) then some t else none := by
  induction fuel generalizing k x xs with
  | zero =>
    obtain rfl := List.length_eq_zero_iff.1 (Nat.le_zero.1 hlen)
    exact ⟨x.tree, .root k x, rfl⟩
  | succ fuel ih =>
    rcases xs with _ | ⟨y, ys⟩
    · exact ⟨x.tree, .root k x, rfl⟩
    obtain ⟨a, b, rest, hout, hround⟩ := mergeAll_round hn.distinct
    have hrest : rest.length ≤ fuel := by
      have := hout.perm.length_eq
      simp only [List.length_cons] at this hlen
      omega
    obtain ⟨t, hmerge, hrun⟩ := ih (hn.round hout) hrest
    have htotal : totalWeight (mergeEntry k a b :: rest) = totalWeight (x :: y :: ys) := hout.totalWeight.symm
    have hfits : fitsCount c (a.weight + b.weight) = true ∧
        (rest = [] ∨ fitsCount c (totalWeight (x :: y :: ys)) = true) ↔
          fitsCount c (totalWeight (x :: y :: ys)) = true := by
      rw [hout.totalWeight]
      constructor
      · rintro ⟨hab, rfl | hall⟩
        · exact hab
        · exact hall
      · exact fun hall => ⟨fitsCount_mono (Nat.le_add_right _ _) hall, .inr hall⟩
    refine ⟨t, (mergesTo_round_iff (by simp)).2 ⟨a, b, rest, hout, hmerge⟩, ?_⟩
    rw [hround, hrun, htotal, ← ite_and]
    simp [hfits]

/-! ## The entries of a frequency table -/

/-- The leaves are those of the symbols that occur (R142). -/
theorem mem_leafEntries {f : Vector Nat nsym} {e : Entry} :
    e ∈ leafEntries f ↔ ∃ i ≤ 256, freqAt f i > 0 ∧
      e = ⟨freqAt f i, i, .leaf (BitVec.ofNat 9 i) (some (freqAt f i))⟩ := by
  simp only [leafEntries, List.mem_filterMap, List.mem_range, leafEntry, Option.ite_none_right_eq_some,
    Option.some.injEq, eq_comm (b := e), Nat.lt_succ_iff]

theorem mem_startEntries {f : Vector Nat nsym} {e : Entry} :
    e ∈ startEntries f ↔ e ∈ leafEntries f ∨ ((leafEntries f).length < 2 ∧ e = placeholderEntry) := by
  unfold startEntries
  split <;> simp [*]

/-- A leaf's number is its symbol, up to 257 (R141). -/
theorem startEntries_seq {f : Vector Nat nsym} {e : Entry} (h : e ∈ startEntries f) : e.seq ≤ 257 := by
  rcases mem_startEntries.1 h with h | ⟨-, rfl⟩
  · obtain ⟨i, hi, -, rfl⟩ := mem_leafEntries.1 h
    exact Nat.le_succ_of_le hi
  · exact le_refl _

/-- The entry of a symbol up to 256 (R142). -/
theorem startEntries_symbol {f : Vector Nat nsym} {i n : Nat} (hi : i ≤ 256) :
    (∃ e ∈ startEntries f, e.seq = i ∧ e.weight = n) ↔ freqAt f i > 0 ∧ n = freqAt f i := by
  constructor
  · rintro ⟨e, he, rfl, rfl⟩
    rcases mem_startEntries.1 he with he | ⟨-, rfl⟩
    · obtain ⟨j, -, hpos, rfl⟩ := mem_leafEntries.1 he
      exact ⟨hpos, rfl⟩
    · exact absurd hi (by decide)
  · rintro ⟨hpos, rfl⟩
    exact ⟨_, mem_startEntries.2 (.inl (mem_leafEntries.2 ⟨i, hi, hpos, rfl⟩)), rfl, rfl⟩

/-- The entry of the placeholder (R143). -/
theorem startEntries_placeholder {f : Vector Nat nsym} {n : Nat} :
    (∃ e ∈ startEntries f, e.seq = 257 ∧ e.weight = n) ↔ (leafEntries f).length < 2 ∧ n = 0 := by
  constructor
  · rintro ⟨e, he, hseq, rfl⟩
    rcases mem_startEntries.1 he with he | ⟨hlen, rfl⟩
    · obtain ⟨j, hj, -, rfl⟩ := mem_leafEntries.1 he
      exact absurd hj (by simp [show j = 257 from hseq])
    · exact ⟨hlen, rfl⟩
  · rintro ⟨hlen, rfl⟩
    exact ⟨_, mem_startEntries.2 (.inr ⟨hlen, rfl⟩), rfl, rfl⟩

/-- With the one pseudo-EOF counted, fewer than two symbols occur exactly if no word does (R143). -/
theorem leafEntries_length_lt_two {f : Vector Nat nsym} (heof : 0 < freqAt f pseudoEof) :
    (leafEntries f).length < 2 ↔ ∀ i < 256, freqAt f i = 0 := by
  rw [← List.length_map (f := Entry.seq)]
  constructor
  · intro hlen i hi
    by_contra hpos
    have hsub : [i, 256] ⊆ (leafEntries f).map Entry.seq := by
      simp only [List.cons_subset, List.nil_subset, and_true]
      exact ⟨mem_leafEntries_seq.2 ⟨by omega, by omega⟩, mem_leafEntries_seq.2 ⟨by decide, heof⟩⟩
    have hpair : [i, 256].Nodup := by simp; omega
    exact absurd (hpair.subperm hsub).length_le (by simpa using hlen)
  · intro hzero
    have hsub : (leafEntries f).map Entry.seq ⊆ [256] := fun i hi => by
      obtain ⟨hlt, hpos⟩ := mem_leafEntries_seq.1 hi
      by_contra hne
      have hne : i ≠ 256 := by simpa using hne
      exact absurd (hzero i (by omega)) (by omega)
    exact Nat.lt_succ_of_le ((leafEntries_nodup f).subperm hsub).length_le

/-- The weights of the entries are the counts; the placeholder adds nothing (R142, R143). -/
theorem totalWeight_startEntries (f : Vector Nat nsym) : totalWeight (startEntries f) = totalCount f := by
  have hleaves : totalWeight (leafEntries f) = totalCount f := by
    unfold totalWeight leafEntries totalCount
    induction List.range nsym with
    | nil => rfl
    | cons i is ih =>
      by_cases h : freqAt f i > 0
      · simp [leafEntry, h, ih]
      · simp [leafEntry, ih, Nat.eq_zero_of_not_pos h]
  unfold startEntries
  split
  · simpa [totalWeight, placeholderEntry, placeholderWeight] using hleaves
  · exact hleaves

theorem startEntries_numbered (f : Vector Nat nsym) : Numbered 0 (startEntries f) :=
  ⟨(startEntries_startsMerge f).distinct, fun _ he => Nat.lt_succ_of_le (startEntries_seq he)⟩

theorem startEntries_ne_nil (f : Vector Nat nsym) : startEntries f ≠ [] := by
  unfold startEntries
  split
  · simp
  · exact List.ne_nil_of_length_pos (by omega)

/-- The entries the merge starts from are those of R142 and R143. -/
theorem startEntries_leafEntries (f : Vector Nat nsym) : LeafEntries f (startEntries f) :=
  ⟨leafEntries f, (leafEntries_nodup f).of_map, fun _ => mem_leafEntries, rfl⟩

/-- The entries of R142 and R143 are determined up to their order. -/
theorem LeafEntries.perm {f : Vector Nat nsym} {es es' : List Entry} (h : LeafEntries f es)
    (h' : LeafEntries f es') : es.Perm es' := by
  obtain ⟨ls, hd, hm, rfl⟩ := h
  obtain ⟨ls', hd', hm', rfl⟩ := h'
  have hls : ls.Perm ls' := (List.perm_ext_iff_of_nodup hd hd').2 fun e => (hm e).trans (hm' e).symm
  rw [hls.length_eq]
  split
  · exact hls.append_right _
  · exact hls

/-- A frequency table has one tree at most (R146). -/
theorem BuildsTo.unique {f : Vector Nat nsym} {t t' : Tree} (h : BuildsTo f t) (h' : BuildsTo f t') : t = t' := by
  obtain ⟨es, hes, hm⟩ := h
  obtain ⟨es', hes', hm'⟩ := h'
  exact hm.unique hm' (hes.perm hes')

/-! ## The tree that is stored -/

theorem buildTree_eq_some {c : Config} {f : Vector Nat nsym} {t : Tree} :
    buildTree c f = some t ↔ ∃ x xs, startEntries f = x :: xs ∧ mergeAll c xs.length 0 x xs = some t ∧
      fitsNodes c t.nodes = true := by
  unfold buildTree
  rcases startEntries f with _ | ⟨x, xs⟩
  · simp
  · cases hmerge : mergeAll c xs.length 0 x xs with
    | none => simp [hmerge]
    | some t' =>
      simp only [hmerge, Option.ite_none_right_eq_some, List.cons.injEq, Option.some.injEq]
      constructor
      · rintro ⟨hfit, rfl⟩
        exact ⟨x, xs, ⟨rfl, rfl⟩, hmerge, hfit⟩
      · rintro ⟨_, _, ⟨rfl, rfl⟩, hmerge', hfit⟩
        obtain rfl := Option.some.inj (hmerge.symm.trans hmerge')
        exact ⟨hfit, rfl⟩

/-- The leaves of the tree that the merge makes are the entries it starts from, and its weights add up (R142,
R144). -/
theorem mergeAll_leaves {c : Config} {f : Vector Nat nsym} {fuel : Nat} {x : Entry} {xs : List Entry} {t : Tree}
    (hes : startEntries f = x :: xs) (h : mergeAll c fuel 0 x xs = some t) :
    t.WeightsAdd ∧ t.leaves.Perm ((startEntries f).map fun e => (BitVec.ofNat symFieldW e.seq, some e.weight)) := by
  have hleaf := (startEntries_startsMerge f).leaf
  rw [hes] at hleaf ⊢
  exact mergeAll_weighed h ⟨fun e he => (hleaf e he).weighed, .of_eq (leaves_of_isLeafOf hleaf)⟩

/-- Within the limits of the parameters the tree that is stored is one that the merge rule gives: 257 leaves are
513 nodes (R6, R148). -/
theorem buildTree_fits {c : Config} {f : Vector Nat nsym} (h : BuildFits c f) :
    ∃ t, BuildsTo f t ∧ buildTree c f = some t := by
  obtain ⟨hcount, hcap⟩ := h
  obtain ⟨x, xs, hes⟩ := List.exists_cons_of_ne_nil (startEntries_ne_nil f)
  obtain ⟨t, hmerge, hrun⟩ := mergeAll_eq (c := c) (hes ▸ startEntries_numbered f) (le_refl xs.length)
  have hweight : fitsCount c (totalWeight (x :: xs)) = true := by
    rw [← hes, totalWeight_startEntries]
    exact (fitsCount_iff _ _).2 hcount
  rw [if_pos (.inr hweight)] at hrun
  have hnodes : t.nodes ≤ 514 := by
    have hlen := (mergeAll_leaves hes hrun).2.length_eq
    rw [List.length_map] at hlen
    have := (startEntries_startsMerge f).few
    have := t.nodes_leaves
    omega
  exact ⟨t, ⟨_, startEntries_leafEntries f, hes ▸ hmerge⟩,
    buildTree_eq_some.2 ⟨x, xs, hes, hrun, (fitsNodes_iff _ _).2 fun n hn => hnodes.trans (hcap n hn)⟩⟩

/-- A root whose weight passes a finite `CNT_W` is not built: the table has a symbol, so there is a round
(R149, R236). -/
theorem buildTree_past {c : Config} {f : Vector Nat nsym} {w : Nat} (hw : c.cntW = some w)
    (hpast : 2 ^ w - 1 < totalCount f) : buildTree c f = none := by
  have hweight : ¬ fitsCount c (totalWeight (startEntries f)) = true := fun hfit => by
    rw [totalWeight_startEntries] at hfit
    exact absurd ((fitsCount_iff _ _).1 hfit w hw) (by omega)
  have hoccurs : ∃ i < nsym, 0 < freqAt f i := by
    by_contra hnone
    have hzero : totalCount f = 0 := List.sum_eq_zero fun n hn => by
      obtain ⟨i, hi, rfl⟩ := List.mem_map.1 hn
      exact Nat.eq_zero_of_not_pos fun hpos => hnone ⟨i, List.mem_range.1 hi, hpos⟩
    omega
  have hmany := (startEntries_startsMerge f).many hoccurs
  refine Option.eq_none_iff_forall_ne_some.2 fun t ht => ?_
  obtain ⟨x, xs, hes, hrun, -⟩ := buildTree_eq_some.1 ht
  obtain ⟨t', -, hrun'⟩ := mergeAll_eq (c := c) (hes ▸ startEntries_numbered f) (le_refl xs.length)
  rw [hes] at hweight hmany
  have hxs : xs ≠ [] := fun h => by simp [h] at hmany
  rw [hrun, if_neg (not_or.2 ⟨hxs, hweight⟩)] at hrun'
  cases hrun'

/-! ## The command -/

/-- `TREE <- t` as `BLD` does it (R150). -/
def State.storeTree (s : State) (t : Tree) : State :=
  { s with tree := t, treeSt := .built, freqValid := false, codeValid := false }

theorem bldBody_ok {s : State} {t : Tree} (h : buildTree s.cfg s.freq = some t) :
    bldBody s = .ok () (s.storeTree t) := by
  unfold bldBody
  rw [h]
  rfl

theorem bldBody_raise {s : State} (h : buildTree s.cfg s.freq = none) :
    bldBody s = .raise .capacityError .build s := by
  unfold bldBody
  rw [h]

theorem bldBody_eq_ok {s u : State} (h : bldBody s = .ok () u) :
    ∃ t, buildTree s.cfg s.freq = some t ∧ u = s.storeTree t := by
  cases ht : buildTree s.cfg s.freq with
  | none => cases (bldBody_raise ht).symm.trans h
  | some t =>
    cases (bldBody_ok ht).symm.trans h
    exact ⟨t, rfl, rfl⟩

/-- Settles O21: the tree that is built is one that the merge rule gives, and that rule gives one only. -/
theorem buildFollowsTheMergeRule : Obligations.BuildFollowsTheMergeRule := by
  refine ⟨rfl, fun s he hf hfits => ?_⟩
  obtain ⟨t, ht, hbuild⟩ := buildTree_fits hfits
  refine ⟨⟨t, ht⟩, fun T hT => ?_⟩
  obtain rfl := ht.unique hT
  exact (dispatch_ok he hf (bldBody_ok (s := setDone s false) hbuild)).trans rfl

/-- Settles O23: no tree is built, so the body raises the fault. -/
theorem weightPastItsWidthIsACapacityError : Obligations.WeightPastItsWidthIsACapacityError :=
  fun s _ he hf hw hpast =>
    (dispatch_raise he hf (bldBody_raise (s := setDone s false) (buildTree_past hw hpast))).trans rfl

/-! ## The weights and leaves of the tree -/

/-- The weight of a tree whose weights add up is the sum of those of its leaves (10_state.md R25). -/
theorem Tree.weight_eq_sum {t : Tree} (h : t.WeightsAdd) :
    t.weight = some (t.leaves.map fun x => x.2.getD 0).sum := by
  induction t with
  | leaf x w =>
    obtain ⟨n, rfl⟩ := Option.isSome_iff_exists.1 h
    simp [Tree.weight, Tree.leaves]
  | node l r w ihl ihr =>
    obtain ⟨hl, hr, a, b, ha, hb, rfl⟩ := h
    obtain rfl := Option.some.inj (ha.symm.trans (ihl hl))
    obtain rfl := Option.some.inj (hb.symm.trans (ihr hr))
    simp [Tree.weight, Tree.leaves]

section
variable {c : Config} {f : Vector Nat nsym} {t : Tree}

theorem buildTree_leaves (h : buildTree c f = some t) :
    t.WeightsAdd ∧ t.leaves.Perm ((startEntries f).map fun e => (BitVec.ofNat symFieldW e.seq, some e.weight)) := by
  obtain ⟨x, xs, hes, hrun, -⟩ := buildTree_eq_some.1 h
  exact mergeAll_leaves hes hrun

/-- The weight of the root is the sum of all counts (R149). -/
theorem buildTree_weight (h : buildTree c f = some t) : t.weight = some (totalCount f) := by
  obtain ⟨hadd, hperm⟩ := buildTree_leaves h
  rw [Tree.weight_eq_sum hadd, (hperm.map _).sum_eq, List.map_map, ← totalWeight_startEntries]
  rfl

/-- A leaf of the built tree is an entry that the merge started from. -/
theorem mem_buildTree_leaves (h : buildTree c f = some t) {x : Sym × Option Nat} :
    x ∈ t.leaves ↔ ∃ e ∈ startEntries f, (BitVec.ofNat symFieldW e.seq, some e.weight) = x := by
  rw [(buildTree_leaves h).2.mem_iff, List.mem_map]

/-- Numbers up to 257 and symbols are the same thing (R141). -/
theorem mem_buildTree_leaves_ofNat (h : buildTree c f = some t) {i : Nat} (hi : i ≤ 257) {w : Option Nat} :
    (BitVec.ofNat 9 i, w) ∈ t.leaves ↔ ∃ n, (∃ e ∈ startEntries f, e.seq = i ∧ e.weight = n) ∧ w = some n := by
  rw [mem_buildTree_leaves h]
  constructor
  · rintro ⟨e, he, hx⟩
    obtain ⟨hsym, rfl⟩ := Prod.mk.inj hx
    have hlt : ∀ {n}, n ≤ 257 → n < 2 ^ symFieldW := fun hn => lt_of_le_of_lt hn (by decide)
    have hsym := congrArg BitVec.toNat hsym
    rw [BitVec.toNat_ofNat, BitVec.toNat_ofNat, Nat.mod_eq_of_lt (hlt (startEntries_seq he)),
      Nat.mod_eq_of_lt (hlt hi)] at hsym
    exact ⟨_, ⟨e, he, hsym, rfl⟩, rfl⟩
  · rintro ⟨n, ⟨e, he, rfl, rfl⟩, rfl⟩
    exact ⟨e, he, rfl⟩

/-- A symbol up to 256 is a leaf exactly if it occurs, with its count as weight (R142). -/
theorem buildTree_symbol (h : buildTree c f = some t) {i : Nat} (hi : i ≤ 256) (w : Option Nat) :
    (BitVec.ofNat 9 i, w) ∈ t.leaves ↔ freqAt f i > 0 ∧ w = some (freqAt f i) := by
  rw [mem_buildTree_leaves_ofNat h (Nat.le_succ_of_le hi)]
  simp only [startEntries_symbol hi, and_assoc, exists_and_left, exists_eq_left]

/-- The placeholder is a leaf exactly if no word occurs, with weight 0 (R143). -/
theorem buildTree_placeholder (h : buildTree c f = some t) (heof : 0 < freqAt f pseudoEof) (w : Option Nat) :
    (257#9, w) ∈ t.leaves ↔ (∀ i < 256, freqAt f i = 0) ∧ w = some 0 := by
  rw [mem_buildTree_leaves_ofNat h (le_refl 257)]
  simp only [startEntries_placeholder, leafEntries_length_lt_two heof, and_assoc, exists_and_left, exists_eq_left]

theorem buildTree_symbol_le (h : buildTree c f = some t) {x : Sym × Option Nat} (hx : x ∈ t.leaves) :
    x.1.toNat ≤ 257 := by
  obtain ⟨e, he, rfl⟩ := (mem_buildTree_leaves h).1 hx
  rw [BitVec.toNat_ofNat]
  exact (Nat.mod_le _ _).trans (startEntries_seq he)

theorem buildTree_many (h : buildTree c f = some t) (heof : 0 < freqAt f pseudoEof) : 2 ≤ t.leaves.length := by
  rw [(buildTree_leaves h).2.length_eq, List.length_map]
  exact (startEntries_startsMerge f).many ⟨pseudoEof, by decide, heof⟩

end

/-- Settles O22: a `BLD` that completes has stored the tree of the table, whose leaves are the entries that the merge
started from. -/
theorem builtTreesAreWeighedPrefixTrees : Obligations.BuiltTreesAreWeighedPrefixTrees := by
  intro s t hexec _ ht hone
  have heof : 0 < freqAt s.freq pseudoEof := by omega
  obtain ⟨-, u, hbody, rfl⟩ := dispatch_completed bldBody_raises hexec ht
  obtain ⟨T, hT, rfl⟩ := bldBody_eq_ok hbody
  exact ⟨buildTree_built hT heof, buildTree_many hT heof, buildTree_weight hT,
    fun i hi w => buildTree_symbol hT hi w, buildTree_placeholder hT heof, fun _ hx => buildTree_symbol_le hT hx⟩

end Sys2Proof.Machine

/-! The code table generator (42_code_table_generator.md): the table that `GEN` stores holds the paths of the leaves,
and no such path begins with another. -/

namespace Sys2Proof.Machine

/-! ## Paths of leaves -/

/-- Where the root is an internal node, the path of a leaf is not empty (R164 (c)). -/
theorem Tree.HasLeaf.length_pos {t : Tree} {p : Bits} {x : Sym} (hroot : t.isNode = true) (h : t.HasLeaf p x) :
    1 ≤ p.length := by
  cases t with
  | leaf => cases hroot
  | node l r w =>
    cases p with
    | nil => exact absurd h Tree.not_hasLeaf_nil
    | cons b p => exact Nat.succ_le_succ (Nat.zero_le _)

/-- No path goes on past a leaf: where the path of one leaf begins that of another, they have the same symbol. -/
theorem Tree.HasLeaf.eq_of_prefix {t : Tree} {p q : Bits} {x y : Sym} (hp : t.HasLeaf p x) (hq : t.HasLeaf q y)
    (hpq : p <+: q) : x = y := by
  obtain ⟨w, hp⟩ := hp
  obtain ⟨v, hq⟩ := hq
  obtain ⟨r, rfl⟩ := hpq
  rw [Tree.nodeAt_append, hp] at hq
  exact (Tree.hasLeaf_leaf.1 ⟨v, hq⟩).2

/-! ## The codes -/

/-- An entry that is present is that of a symbol up to 256 (R162). -/
theorem le_of_codeAt_eq_some {c : Vector (Option Bits) nsym} {i : Nat} {p : Bits} (h : codeAt c i = some p) :
    i ≤ pseudoEof := by
  by_contra hi
  cases (codeAt_past c (Nat.lt_of_not_le hi)).symm.trans h

section
variable {c : Vector (Option Bits) nsym} {t : Tree}

/-- A code is the path of the leaf of its symbol (R160). -/
theorem CodesOf.hasLeaf (hc : CodesOf c t) {i : Nat} {p : Bits} (h : codeAt c i = some p) :
    t.HasLeaf p (BitVec.ofNat symFieldW i) :=
  (hc i (le_of_codeAt_eq_some h) p).1 h

/-- A symbol of the tree has a code (R164 (a)). -/
theorem CodesOf.exists_code (hc : CodesOf c t) {i : Nat} (hi : i ≤ pseudoEof)
    (hmem : BitVec.ofNat symFieldW i ∈ t.symbols) : ∃ p, codeAt c i = some p := by
  obtain ⟨p, hp⟩ := Tree.mem_symbols.1 hmem
  exact ⟨p, (hc i hi p).2 hp⟩

/-- A code that another one begins with is of the same symbol (R164 (d)). -/
theorem CodesOf.eq_of_prefix (hc : CodesOf c t) {i j : Nat} {p q : Bits} (hp : codeAt c i = some p)
    (hq : codeAt c j = some q) (hpq : p <+: q) : i = j := by
  have hsym := congrArg BitVec.toNat ((hc.hasLeaf hp).eq_of_prefix (hc.hasLeaf hq) hpq)
  have hlt : ∀ {k r}, codeAt c k = some r → k < 2 ^ symFieldW := fun h =>
    lt_of_le_of_lt (le_of_codeAt_eq_some h) (by decide)
  rwa [BitVec.toNat_ofNat, BitVec.toNat_ofNat, Nat.mod_eq_of_lt (hlt hp), Nat.mod_eq_of_lt (hlt hq)] at hsym

end

/-! ## The command -/

/-- `GEN` on a built tree stores the tree's code table and completes (R160). -/
theorem exec_gen_of_built {s : State} (he : s.err = .none) (ht : s.treeSt = .built) :
    exec .gen s = .next { s with code := codeTable s.tree, codeValid := true, done := true } :=
  (dispatch_ok (body := genBody) he (decide_eq_true ht) rfl).trans rfl

/-- Settles O24: the table that `GEN` stores is that of the tree. -/
theorem genRecordsThePathOfEveryLeaf : Obligations.GenRecordsThePathOfEveryLeaf :=
  ⟨rfl, fun s he ht hd => ⟨codeTable s.tree, codeTable_codesOf hd, exec_gen_of_built he ht⟩⟩

/-- Settles O25: the codes are the paths of a built tree's leaves, which begin below its root, are short, and end at
the leaves. -/
theorem codesAreAPrefixCode : Obligations.CodesAreAPrefixCode := by
  intro s t hexec he ht hb
  obtain rfl := Host.Outcome.next.inj ((exec_gen_of_built he ht).symm.trans hexec)
  have hc : CodesOf (codeTable s.tree) s.tree := codeTable_codesOf hb.distinct
  refine ⟨hc.exists_code (le_refl _) hb.eof, fun i p hp => ?_, fun i j p q hij hp hq hpq => ?_⟩
  · exact ⟨(hc.hasLeaf hp).length_pos hb.root, hb.short p _ (hc.hasLeaf hp)⟩
  · exact hij (hc.eq_of_prefix hp hq hpq)

end Sys2Proof.Machine

/-! The header codec (43_header_codec.md): the magic number, what `SER` writes, and how `DES` parses: a header that is
there, one that the input cuts off, and one that the store has no room for. -/

namespace Sys2Proof.Machine

/-! ## The magic number -/

/-- Settles O26: the body is one write. -/
theorem writeMagicAppendsTheConstant : Obligations.WriteMagicAppendsTheConstant := by
  refine ⟨rfl, fun s ⟨he, hio⟩ ho => ?_⟩
  have hbody : wmgBody (setDone s false) = .ok () ((setDone s false).emit (bitsOf 32 s.cfg.magic.toNat)) :=
    writeBits_ok (s := setDone s false) hio ho
  refine (dispatch_ok he (outOpen_iff.2 ho) hbody).trans ?_
  simp only [setDone, State.emit, ho]

/-- The next 32 bits are those of `MAGIC` (R171). -/
theorem rmgBody_match {s : State} {rest : Bits} (hio : s.ioFail = [])
    (hr : s.inp.rest = bitsOf 32 s.cfg.magic.toNat ++ rest) :
    rmgBody s = .ok () { s.advance 32 with scan := .idle } := by
  have hm : uint (bitsOf 32 s.cfg.magic.toNat) = (s.advance 32).cfg.magic.toNat := uint_bitsOf_of_lt s.cfg.magic.isLt
  rw [rmgBody, fetchMagic_ok hio hr (bitsOf_length 32 _), Res.bind_ok, magicToken_match hm, Res.bind_ok]

/-- The next 32 bits are other ones (R171, R237). -/
theorem rmgBody_mismatch {s : State} (hio : s.ioFail = []) (hl : 32 ≤ s.inp.rest.length)
    (hne : s.inp.rest.take 32 ≠ bitsOf 32 s.cfg.magic.toNat) :
    rmgBody s = .raise .headerError .headerValidation (s.advance 32) := by
  have h32 : (s.inp.rest.take 32).length = 32 := List.length_take_of_le hl
  have hm : uint (s.inp.rest.take 32) ≠ (s.advance 32).cfg.magic.toNat := fun h => by
    rw [State.advance_cfg] at h
    exact hne (by rw [← h, bitsOf_uint_of_length h32])
  rw [rmgBody, fetchMagic_ok hio (List.take_append_drop 32 _).symm h32, Res.bind_ok, magicToken_mismatch hm,
    Res.bind_raise]

/-- Fewer than 32 bits are left (R172). -/
theorem rmgBody_short {s : State} (hio : s.ioFail = []) (hl : s.inp.rest.length < 32) :
    rmgBody s = .raise .headerError .headerValidation s := by
  rw [rmgBody, fetchMagic_eod hio hl, Res.bind_raise]

/-- `DCMP` ends with the fault that the reading of the magic number raises (R172, R237). -/
theorem dcmpBody_of_rmgBody {s t : State} {f : ErrCode} {p : Phase} (h : rmgBody (discardAll s) = .raise f p t) :
    dcmpBody s = .raise f p t := by
  rw [dcmpBody, h, Res.bind_raise]

/-- Settles O27: the three ways in which the reading of the magic number ends, which is the first stage of `DCMP`. -/
theorem readMagicComparesThirtyTwoBits : Obligations.ReadMagicComparesThirtyTwoBits := by
  refine ⟨rfl, fun s ⟨he, hio⟩ => ⟨fun rest hr => ?_, fun hl hne => ?_, fun hl => ?_, fun ho hl hne => ?_,
    fun ho hl => ?_⟩⟩
  · exact (dispatch_ok he rfl (rmgBody_match (s := setDone s false) hio hr)).trans rfl
  · exact (dispatch_raise he rfl (rmgBody_mismatch (s := setDone s false) hio hl hne)).trans rfl
  · exact (dispatch_raise he rfl (rmgBody_short (s := setDone s false) hio hl)).trans rfl
  · have hrmg := rmgBody_mismatch (s := discardAll (setDone s false)) hio hl hne
    exact (dispatch_raise he (outOpen_iff.2 ho) (dcmpBody_of_rmgBody hrmg)).trans rfl
  · have hrmg := rmgBody_short (s := discardAll (setDone s false)) hio hl
    exact (dispatch_raise he (outOpen_iff.2 ho) (dcmpBody_of_rmgBody hrmg)).trans rfl

/-! ## Serialising -/

/-- Settles O28: what `SER` appends is the header, to an output that stays open. -/
theorem serialiseWritesThePreorder : Obligations.SerialiseWritesThePreorder := by
  refine ⟨rfl, fun s hready ht ho => (execSer_ok hready ht ho).trans ?_⟩
  simp only [setDone, State.emit, ho]

/-! ## Tokens that the input ends in -/

/-- Settles O57: what a step fetches there is no token but the fault of its reading. -/
theorem stepAtTheEndOfTheInputFaults : Obligations.StepAtTheEndOfTheInputFaults := by
  refine fun s ⟨he, hio⟩ => ⟨fun hs hl => ?_, fun st hs hr => ?_, fun st rest hs hr hl => ?_, fun p hs hc hr => ?_⟩
  · exact step_of_stop ((fetch_magic he hs).trans (congrArg _ (fetchMagic_eod hio hl)))
  · exact step_of_stop ((fetch_header he hs).trans (congrArg _ (fetchHeader_eod hio hr)))
  · exact step_of_stop ((fetch_header he hs).trans (congrArg _ (fetchHeader_short hio hr hl)))
  · exact step_of_stop ((fetch_payload he hs hc).trans (congrArg _ (fetchPayload_eod hio hr)))

/-! ## The tokens of a header -/

theorem fitsNodes_mono {c : Config} {m n : Nat} (hmn : m ≤ n) (h : fitsNodes c n = true) : fitsNodes c m = true := by
  rw [fitsNodes_iff] at h ⊢
  exact fun k hk => hmn.trans (h k hk)

theorem stackNodes_left (st : List Frame) : stackNodes (.left :: st) = 1 + stackNodes st := rfl

theorem stackNodes_right_unweighted (l : Tree) (st : List Frame) :
    stackNodes (.right l.unweighted :: st) = l.nodes + 1 + stackNodes st := by
  rw [stackNodes, Tree.unweighted_nodes]

/-- The rest of a symbol field is the end of one whole token (R94). -/
theorem headerTokens_field {k : Nat} {b : Bits} (hb : b.length = k + 1) (rest : Bits) :
    headerTokens (k + 1) (b ++ rest) = 1 + headerTokens 0 rest := by
  induction k generalizing b with
  | zero =>
    obtain ⟨x, rfl⟩ := List.length_eq_one_iff.1 hb
    rw [List.singleton_append, headerTokens]
  | succ k ih =>
    obtain ⟨x, b, rfl⟩ := List.exists_cons_of_length_eq_add_one hb
    rw [List.cons_append, headerTokens, ih (by simpa using hb)]

/-- The header of a tree has a whole token for every node (R92 to R94). -/
theorem headerTokens_serBits (t : Tree) (rest : Bits) :
    headerTokens 0 (t.serBits ++ rest) = t.nodes + headerTokens 0 rest := by
  induction t generalizing rest with
  | leaf x w => exact headerTokens_field (bitsOf_length 9 _) rest
  | node l r w ihl ihr =>
    simp only [Tree.serBits, List.cons_append, List.append_assoc, headerTokens, Tree.nodes, ihl, ihr]
    omega

/-! ## Headers that are cut off -/

/-- The bits end within a header (R175, R176): at a marker, in a symbol field, in the left subtree of a node, or
after a left subtree in the right one. -/
inductive CutOff : Bits → Prop where
  | marker : CutOff []
  | field (r : Bits) (short : r.length < symFieldW) : CutOff (true :: r)
  | left (r : Bits) (cut : CutOff r) : CutOff (false :: r)
  | right (l : Tree) (r : Bits) (cut : CutOff r) : CutOff (false :: (l.serBits ++ r))

/-- A marker `1` and nine bits are the header of a leaf (R94). -/
theorem serBits_leaf_uint {b : Bits} (hb : b.length = symFieldW) :
    (Tree.leaf (BitVec.ofNat symFieldW (uint b)) none).serBits = true :: b := by
  have hlt : uint b < 2 ^ symFieldW := lt_of_lt_of_eq (uint_lt b) (by rw [hb])
  rw [Tree.serBits, BitVec.toNat_ofNat, Nat.mod_eq_of_lt hlt, bitsOf_uint_of_length hb]

/-- Bits start with the header of a tree, or are cut off. -/
theorem serBits_or_cutOff (b : Bits) : (∃ (T : Tree) (rest : Bits), b = T.serBits ++ rest) ∨ CutOff b := by
  induction hk : b.length using Nat.strong_induction_on generalizing b with
  | _ k ih =>
    subst hk
    rcases b with _ | ⟨_ | _, r⟩
    · exact .inr .marker
    · rcases ih r.length (Nat.lt_succ_self _) r rfl with ⟨L, r, rfl⟩ | hcut
      · have hlt : r.length < (false :: (L.serBits ++ r)).length := by
          rw [List.length_cons, List.length_append]
          omega
        rcases ih r.length hlt r rfl with ⟨R, rest, rfl⟩ | hcut
        · refine .inl ⟨.node L R none, rest, ?_⟩
          rw [Tree.serBits, List.cons_append, List.append_assoc]
        · exact .inr (.right L r hcut)
      · exact .inr (.left r hcut)
    · by_cases hl : r.length < symFieldW
      · exact .inr (.field r hl)
      · refine .inl ⟨.leaf (BitVec.ofNat symFieldW (uint (r.take symFieldW))) none, r.drop symFieldW, ?_⟩
        rw [serBits_leaf_uint (List.length_take_of_le (Nat.le_of_not_lt hl)), List.cons_append,
          List.take_append_drop]

/-! ## The parse -/

/-- The parse of a header from where it is, to its end. -/
def parseHeader (s : State) : Res Unit := loop desRound (s.inp.remaining + 1) s

/-- A parse is one round and the parse from there (R174): every round leaves less to read. -/
theorem parseHeader_eq (s : State) :
    parseHeader s = (desRound s).bind fun more t => if more then parseHeader t else .ok () t := by
  rw [parseHeader, loop_succ]
  cases h : desRound s with
  | raise f p t => rfl
  | ok more t =>
    cases more with
    | false => rfl
    | true =>
      have hlt := (desRound_eq_ok h).1
      exact loop_fuel (fun _ _ e => (desRound_eq_ok e).1) _ _ t hlt (Nat.lt_succ_self _)

/-- `s` in the middle of a parse, with `n` bits read and the nodes `st` begun. -/
def State.parsing (s : State) (n : Nat) (st : List Frame) : State := { s.advance n with scan := .header st }

/-- `s` after a parse that read `n` bits and stored the tree `t` (R177). -/
def State.parsed (s : State) (n : Nat) (t : Tree) : State :=
  { s.advance n with tree := t, treeSt := .parsed, scan := .idle }

/-- What follows a complete subtree that ends after `n` bits: the end of the parse, or its rest. -/
def State.afterSubtree (s : State) (n : Nat) : Tree ⊕ List Frame → Res Unit
  | .inl t => .ok () (s.parsed n t)
  | .inr st => parseHeader (s.parsing n st)

section
variable {s : State} {n : Nat} {st : List Frame} {rest : Bits}

theorem State.parsing_rest (s : State) (n : Nat) (st : List Frame) :
    (s.parsing n st).inp.rest = s.inp.rest.drop n := s.inp.rest_advance n

/-- What is left some bits later. -/
theorem drop_add_of_drop_eq {a b c : Bits} (h : a.drop n = b ++ c) : a.drop (n + b.length) = c := by
  rw [← List.drop_drop, h, List.drop_left]

/-- What is left one bit later. -/
theorem drop_succ_of_drop_eq {a c : Bits} {x : Bool} (h : a.drop n = x :: c) : a.drop (n + 1) = c :=
  drop_add_of_drop_eq (b := [x]) h

variable (hio : s.ioFail = [])
include hio

/-- The next token is `0` and the store has room for its node (R175). -/
theorem parseHeader_int (hr : s.inp.rest.drop n = false :: rest) (hf : fitsNodes s.cfg (stackNodes st + 1) = true) :
    parseHeader (s.parsing n st) = parseHeader (s.parsing (n + 1) (.left :: st)) := by
  have hfetch := fetchHeader_int (s := s.parsing n st) hio ((s.parsing_rest n st).trans hr)
  have htoken := hdrIntToken_fits (s := (s.parsing n st).advance 1) rfl hf
  rw [parseHeader_eq, desRound, hfetch, Res.bind_ok, if_pos rfl, htoken]
  rfl

/-- The next token is `0` and the store is full (R180). -/
theorem parseHeader_int_past (hr : s.inp.rest.drop n = false :: rest)
    (hf : ¬ fitsNodes s.cfg (stackNodes st + 1) = true) :
    parseHeader (s.parsing n st) = .raise .capacityError .treeParse (s.parsing (n + 1) st) := by
  have hfetch := fetchHeader_int (s := s.parsing n st) hio ((s.parsing_rest n st).trans hr)
  have htoken := hdrIntToken_past (s := (s.parsing n st).advance 1) rfl hf
  rw [parseHeader_eq, desRound, hfetch, Res.bind_ok, if_pos rfl, htoken]
  rfl

/-- The next token is a leaf and the store has room for it (R176). -/
theorem parseHeader_leaf {x : Sym} {w : Option Nat} (hr : s.inp.rest.drop n = (Tree.leaf x w).serBits ++ rest)
    (hf : fitsNodes s.cfg (stackNodes st + 1) = true) :
    parseHeader (s.parsing n st) = s.afterSubtree (n + 10) (plug (.leaf x none) st) := by
  have hfetch := fetchHeader_leaf (s := s.parsing n st) hio ((s.parsing_rest n st).trans hr) (bitsOf_length 9 _)
  have hx : BitVec.ofNat symFieldW (uint (bitsOf 9 x.toNat)) = x := by
    rw [uint_bitsOf_of_lt x.isLt, BitVec.ofNat_toNat, BitVec.setWidth_eq]
  rw [parseHeader_eq, desRound, hfetch, Res.bind_ok, if_neg one_ne_zero]
  cases hp : plug (.leaf x none) st with
  | inl t =>
    rw [hdrLeafToken_tree (s := (s.parsing n st).advance 10) rfl hf (hx.symm ▸ hp)]
    rfl
  | inr st' =>
    rw [hdrLeafToken_subtree (s := (s.parsing n st).advance 10) rfl hf (hx.symm ▸ hp)]
    rfl

/-- The next token is a leaf and the store is full (R180). -/
theorem parseHeader_leaf_past {x : Sym} {w : Option Nat}
    (hr : s.inp.rest.drop n = (Tree.leaf x w).serBits ++ rest)
    (hf : ¬ fitsNodes s.cfg (stackNodes st + 1) = true) :
    parseHeader (s.parsing n st) = .raise .capacityError .treeParse (s.parsing (n + 10) st) := by
  have hfetch := fetchHeader_leaf (s := s.parsing n st) hio ((s.parsing_rest n st).trans hr) (bitsOf_length 9 _)
  have htoken := hdrLeafToken_past (s := (s.parsing n st).advance 10) (uint (bitsOf 9 x.toNat)) rfl hf
  rw [parseHeader_eq, desRound, hfetch, Res.bind_ok, if_neg one_ne_zero, htoken]
  rfl

/-- No marker bit is left (R175). -/
theorem parseHeader_eod (hr : s.inp.rest.drop n = []) :
    parseHeader (s.parsing n st) = .raise .truncatedStreamError .treeParse (s.parsing n st) := by
  have hfetch := fetchHeader_eod (s := s.parsing n st) hio ((s.parsing_rest n st).trans hr)
  rw [parseHeader_eq, desRound, hfetch, Res.bind_raise, Res.bind_raise]

/-- The symbol field is cut off (R176). -/
theorem parseHeader_short (hr : s.inp.rest.drop n = true :: rest) (hl : rest.length < 9) :
    parseHeader (s.parsing n st) = .raise .truncatedStreamError .treeParse (s.parsing (n + 1) st) := by
  have hfetch := fetchHeader_short (s := s.parsing n st) hio ((s.parsing_rest n st).trans hr) hl
  rw [parseHeader_eq, desRound, hfetch, Res.bind_raise, Res.bind_raise]
  rfl

/-- A parse that finds the header of a tree: with room for its nodes it goes on after that tree, and without it
ends within its header (R175 to R177, R180). -/
theorem parseHeader_serBits (T : Tree) (hr : s.inp.rest.drop n = T.serBits ++ rest) :
    (fitsNodes s.cfg (stackNodes st + T.nodes) = true ∧
      parseHeader (s.parsing n st) = s.afterSubtree (n + T.serBits.length) (plug T.unweighted st)) ∨
    (¬ fitsNodes s.cfg (stackNodes st + T.nodes) = true ∧ ∃ m st', m ≤ n + T.serBits.length ∧
      parseHeader (s.parsing n st) = .raise .capacityError .treeParse (s.parsing m st')) := by
  induction T generalizing n st rest with
  | leaf x w =>
    by_cases hf : fitsNodes s.cfg (stackNodes st + 1) = true
    · exact .inl ⟨hf, parseHeader_leaf hio hr hf⟩
    · exact .inr ⟨hf, n + 10, st, le_refl _, parseHeader_leaf_past hio hr hf⟩
  | node l r w ihl ihr =>
    have hlen : (Tree.node l r w).serBits.length = 1 + l.serBits.length + r.serBits.length := by
      simp only [Tree.serBits, List.length_cons, List.length_append]
      omega
    have hnodes : (Tree.node l r w).nodes = l.nodes + r.nodes + 1 := rfl
    have hrl : s.inp.rest.drop (n + 1) = l.serBits ++ (r.serBits ++ rest) := by
      rw [← List.append_assoc]
      exact drop_succ_of_drop_eq hr
    have hrr := drop_add_of_drop_eq hrl
    by_cases hf : fitsNodes s.cfg (stackNodes st + 1) = true
    · rw [parseHeader_int hio hr hf]
      have hleft := stackNodes_left st
      have hright := stackNodes_right_unweighted l st
      rcases ihl (st := .left :: st) hrl with ⟨-, hl⟩ | ⟨hpast, m, st', hm, hl⟩
      · rw [hl, show plug l.unweighted (.left :: st) = .inr (.right l.unweighted :: st) from rfl, State.afterSubtree]
        have hsum : stackNodes (.right l.unweighted :: st) + r.nodes = stackNodes st + (Tree.node l r w).nodes := by
          omega
        have hend : n + 1 + l.serBits.length + r.serBits.length = n + (Tree.node l r w).serBits.length := by omega
        have h := ihr (st := .right l.unweighted :: st) hrr
        rwa [hsum, hend] at h
      · exact .inr ⟨fun h => hpast (fitsNodes_mono (by omega) h), m, st', by omega, hl⟩
    · exact .inr ⟨fun h => hf (fitsNodes_mono (by omega) h), n + 1, st, by omega, parseHeader_int_past hio hr hf⟩

/-- A parse that finds a header cut off raises a fault: that of the end of the input, if the store has room for the
nodes of the whole tokens (R175, R176, R180). -/
theorem parseHeader_cutOff {b : Bits} (hcut : CutOff b) (hb : s.inp.rest.drop n = b) :
    ∃ f m st', m ≤ n + b.length ∧ f ≠ .none ∧
      (fitsNodes s.cfg (stackNodes st + headerTokens 0 b) = true → f = .truncatedStreamError) ∧
      parseHeader (s.parsing n st) = .raise f .treeParse (s.parsing m st') := by
  induction hcut generalizing n st with
  | marker => exact ⟨_, n, st, le_refl _, by decide, fun _ => rfl, parseHeader_eod hio hb⟩
  | field r short =>
    exact ⟨_, n + 1, st, by simp, by decide, fun _ => rfl, parseHeader_short hio hb short⟩
  | left r cut ih =>
    have htokens : headerTokens 0 (false :: r) = 1 + headerTokens 0 r := by rw [headerTokens]
    have hlen := r.length_cons (a := false)
    by_cases hf : fitsNodes s.cfg (stackNodes st + 1) = true
    · rw [parseHeader_int hio hb hf]
      have hleft := stackNodes_left st
      obtain ⟨f, m, st', hm, hne, htrunc, h⟩ := ih (st := .left :: st) (drop_succ_of_drop_eq hb)
      exact ⟨f, m, st', by omega, hne, fun hfit => htrunc (fitsNodes_mono (by omega) hfit), h⟩
    · exact ⟨_, n + 1, st, by omega, by decide, fun hfit => absurd (fitsNodes_mono (by omega) hfit) hf,
        parseHeader_int_past hio hb hf⟩
  | right l r cut ih =>
    have htokens : headerTokens 0 (false :: (l.serBits ++ r)) = 1 + (l.nodes + headerTokens 0 r) := by
      rw [headerTokens, headerTokens_serBits]
    have hlen : (false :: (l.serBits ++ r)).length = 1 + l.serBits.length + r.length := by
      rw [List.length_cons, List.length_append]
      omega
    by_cases hf : fitsNodes s.cfg (stackNodes st + 1) = true
    · rw [parseHeader_int hio hb hf]
      have hleft := stackNodes_left st
      have hright := stackNodes_right_unweighted l st
      have hl := drop_succ_of_drop_eq hb
      rcases parseHeader_serBits hio (st := .left :: st) l hl with ⟨-, h⟩ | ⟨hpast, m, st', hm, h⟩
      · obtain ⟨f, m, st', hm, hne, htrunc, hcut⟩ := ih (st := .right l.unweighted :: st) (drop_add_of_drop_eq hl)
        exact ⟨f, m, st', by omega, hne, fun hfit => htrunc (fitsNodes_mono (by omega) hfit), h.trans hcut⟩
      · exact ⟨_, m, st', by omega, by decide, fun hfit => absurd (fitsNodes_mono (by omega) hfit) hpast, h⟩
    · exact ⟨_, n + 1, st, by omega, by decide, fun hfit => absurd (fitsNodes_mono (by omega) hfit) hf,
        parseHeader_int_past hio hb hf⟩

end

/-! ## `DES` -/

/-- `s` where `DES` has begun: the tables discarded (R174). -/
def State.begun (s : State) : State := { s with codeValid := false, treeSt := .none }

/-- `DES` is a parse with no bit read and no node begun (R174). -/
theorem desBody_eq (s : State) : desBody s = parseHeader (s.begun.parsing 0 []) := rfl

/-- The body of `DES` on the header of a tree: it stores the tree, or the store has no room (R177, R180). -/
theorem desBody_serBits {s : State} {T : Tree} {rest : Bits} (hio : s.ioFail = [])
    (hr : s.inp.rest = T.serBits ++ rest) :
    (fitsNodes s.cfg T.nodes = true ∧ desBody s = .ok () (s.begun.parsed T.serBits.length T.unweighted)) ∨
    (¬ fitsNodes s.cfg T.nodes = true ∧ ∃ n st, n ≤ T.serBits.length ∧
      desBody s = .raise .capacityError .treeParse (s.begun.parsing n st)) := by
  have h := parseHeader_serBits (s := s.begun) (n := 0) (st := []) hio T hr
  have hnodes : stackNodes [] + T.nodes = T.nodes := Nat.zero_add _
  rw [hnodes, Nat.zero_add] at h
  exact h

/-- The body of `DES` on a header that is cut off (R175, R176, R180). -/
theorem desBody_cutOff {s : State} (hio : s.ioFail = []) (hcut : CutOff s.inp.rest) :
    ∃ f n st, n ≤ s.inp.rest.length ∧ f ≠ .none ∧
      (fitsNodes s.cfg (headerTokens 0 s.inp.rest) = true → f = .truncatedStreamError) ∧
      desBody s = .raise f .treeParse (s.begun.parsing n st) := by
  have h := parseHeader_cutOff (s := s.begun) (n := 0) (st := []) hio hcut rfl
  have htokens : stackNodes [] + headerTokens 0 s.inp.rest = headerTokens 0 s.inp.rest := Nat.zero_add _
  rw [htokens, Nat.zero_add] at h
  exact h

section
variable {s : State} (hready : Ready s)
include hready

/-- `DES` on the header of a tree that the store has room for (R177). -/
theorem execDes_header {T : Tree} {rest : Bits} (hr : s.inp.rest = T.serBits ++ rest)
    (hf : fitsNodes s.cfg T.nodes = true) :
    exec .des s = .next (setDone (s.begun.parsed T.serBits.length T.unweighted) true) := by
  rcases desBody_serBits (s := setDone s false) hready.2 hr with ⟨-, hbody⟩ | ⟨hpast, -⟩
  · exact (dispatch_ok hready.1 rfl hbody).trans rfl
  · exact absurd hf hpast

/-- `DES` on the header of a tree that the store has no room for (R180). -/
theorem execDes_past {T : Tree} {rest : Bits} (hr : s.inp.rest = T.serBits ++ rest)
    (hpast : ¬ fitsNodes s.cfg T.nodes = true) :
    ∃ n, n ≤ T.serBits.length ∧ exec .des s = .next ((s.advance n).faultedWith .capacityError .treeParse) := by
  rcases desBody_serBits (s := setDone s false) hready.2 hr with ⟨hf, -⟩ | ⟨-, n, st, hn, hbody⟩
  · exact absurd hf hpast
  · exact ⟨n, hn, (dispatch_raise hready.1 rfl hbody).trans rfl⟩

/-- `DES` on a header that is cut off (R175, R176, R238). -/
theorem execDes_cutOff (hcut : CutOff s.inp.rest) :
    ∃ f n, n ≤ s.inp.rest.length ∧ f ≠ .none ∧
      (fitsNodes s.cfg (headerTokens 0 s.inp.rest) = true → f = .truncatedStreamError) ∧
      exec .des s = .next ((s.advance n).faultedWith f .treeParse) := by
  obtain ⟨f, n, st, hn, hne, htrunc, hbody⟩ := desBody_cutOff (s := setDone s false) hready.2 hcut
  exact ⟨f, n, hn, hne, htrunc, (dispatch_raise hready.1 rfl hbody).trans rfl⟩

end

/-- Settles O30: the parse that finds a header. -/
theorem deserialiseRebuildsTheTree : Obligations.DeserialiseRebuildsTheTree :=
  ⟨rfl, fun _ _ _ hready hr hcap => (execDes_header hready hr ((fitsNodes_iff _ _).2 hcap)).trans rfl⟩

/-- Settles O31: bits that start with no header are cut off. -/
theorem headerCutOffIsTruncated : Obligations.HeaderCutOffIsTruncated := by
  intro s hready hcap hnone
  rcases serBits_or_cutOff s.inp.rest with ⟨T, rest, hr⟩ | hcut
  · exact absurd hr (hnone T rest)
  · obtain ⟨f, n, hn, -, htrunc, h⟩ := execDes_cutOff hready hcut
    obtain rfl := htrunc ((fitsNodes_iff _ _).2 hcap)
    exact ⟨n, hn, h⟩

/-- Settles O32: the parse that finds a header without room for its nodes. -/
theorem headerPastTheStoreIsACapacityError : Obligations.HeaderPastTheStoreIsACapacityError :=
  fun _ _ _ _ hready hk hpast hr => execDes_past hready hr (not_fitsNodes hk hpast)

/-- Where `DES` completes, it has read the header of a tree that the store has room for (R177). -/
theorem serBits_of_execDes {s t : State} (hready : Ready s) (h : exec .des s = .next t) (ht : t.err = .none) :
    ∃ (T : Tree) (rest : Bits), s.inp.rest = T.serBits ++ rest ∧ fitsNodes s.cfg T.nodes = true := by
  rcases serBits_or_cutOff s.inp.rest with ⟨T, rest, hr⟩ | hcut
  · refine ⟨T, rest, hr, ?_⟩
    by_contra hf
    obtain ⟨n, -, hfault⟩ := execDes_past hready hr hf
    obtain rfl := Host.Outcome.next.inj (h.symm.trans hfault)
    cases ht
  · obtain ⟨f, n, -, hne, -, hfault⟩ := execDes_cutOff hready hcut
    obtain rfl := Host.Outcome.next.inj (h.symm.trans hfault)
    exact absurd ht hne

/-- Settles O33: `SER` writes the header of its tree and `DES` reads that of one; setting no weights does not change
the header. -/
theorem headerFidelity : Obligations.HeaderFidelity := by
  refine ⟨fun s t u rest hs hts ho hser hu hcap hr => ?_, fun s t hs hdes ht ho => ?_⟩
  · obtain rfl := Host.Outcome.next.inj ((execSer_ok hs hts ho).symm.trans hser)
    have hr : u.inp.rest = s.tree.serBits ++ rest := by
      rw [hr, setDone_out, State.emit_out, List.drop_left]
    exact ⟨_, execDes_header hu hr ((fitsNodes_iff _ _).2 hcap), rfl, rfl, State.advance_rest hr rfl⟩
  · obtain ⟨T, rest, hr, hf⟩ := serBits_of_execDes hs hdes ht
    obtain rfl := Host.Outcome.next.inj ((execDes_header hs hr hf).symm.trans hdes)
    refine ⟨_, execSer_ok ⟨hs.1, hs.2⟩ nofun ho, ?_⟩
    have hread : s.inp.rest.take (s.inp.pos + T.serBits.length - s.inp.pos) = T.serBits := by
      rw [Nat.add_sub_cancel_left, hr, List.take_left]
    exact congrArg (s.out.bits ++ ·) (T.unweighted_serBits.trans hread.symm)

end Sys2Proof.Machine

/-! The stream encoder (44_stream_encoder.md): what `ENC` writes and where a word without a code stops it, `FIN`, and
the container that `CMP` makes with them, with its size. -/

namespace Sys2Proof.Machine

/-! ## One word -/

/-- The code of a symbol that has one is appended (R190). -/
theorem writeCode_ok {sym : Nat} {e : Bits} {s : State} (hio : s.ioFail = []) (ho : s.out.closed = false)
    (h : codeAt s.code sym = some e) : writeCode sym s = .ok () (s.emit e) := by
  rw [writeCode, h]
  exact writeStr_ok hio ho

/-- A symbol without a code is an `AbsentCode` (R192). -/
theorem writeCode_absent {sym : Nat} {s : State} (h : codeAt s.code sym = none) :
    writeCode sym s = .raise .absentCode .payloadEncode s := by
  rw [writeCode, h]

/-- A round with a word left reads it and writes its code (R190). -/
theorem encRound_word {b : Byte} {rest : Bits} {s : State} (hio : s.ioFail = [])
    (hr : s.inp.rest = byteBits b ++ rest) :
    encRound s = (writeCode b.toNat (s.advance 8)).bind fun _ t => .ok true t := by
  rw [encRound, readBits_some hio hr (byteBits_length b) (by decide), Res.bind_ok, uint_byteBits]

/-- A round with nothing left ends the loop (R190). -/
theorem encRound_eod {s : State} (hio : s.ioFail = []) (hr : s.inp.rest = []) : encRound s = .ok false s := by
  rw [encRound, readBits_eod hio (by simp [hr]), Res.bind_ok]

/-! ## The loop -/

theorem payloadOf_cons {c : Vector (Option Bits) nsym} {b : Byte} {e : Bits} (h : codeAt c b.toNat = some e)
    (ws : List Byte) : payloadOf c (b :: ws) = e ++ payloadOf c ws := by
  rw [payloadOf, List.flatMap_cons, h]
  rfl

/-- The loop of `ENC` on words that all have a code: their codes are written, and it goes on after them (R190). -/
theorem loop_encRound_words {ws : List Byte} {rest : Bits} {s : State} (m : Nat) (hio : s.ioFail = [])
    (ho : s.out.closed = false) (hr : s.inp.rest = bitsOfBytes ws ++ rest)
    (hcodes : ∀ b ∈ ws, codeAt s.code b.toNat ≠ none) :
    loop encRound (ws.length + m) s =
      loop encRound m ((s.emit (payloadOf s.code ws)).advance (8 * ws.length)) := by
  induction ws generalizing s with
  | nil =>
    rw [List.length_nil, Nat.zero_add]
    simp [payloadOf, State.emit, State.advance]
  | cons b ws ih =>
    obtain ⟨hb, hws⟩ := List.forall_mem_cons.1 hcodes
    obtain ⟨e, he⟩ := Option.ne_none_iff_exists'.1 hb
    rw [bitsOfBytes_cons, List.append_assoc] at hr
    have hround : encRound s = .ok true ((s.advance 8).emit e) := by
      rw [encRound_word hio hr, writeCode_ok (s := s.advance 8) hio ho he, Res.bind_ok]
    have hrest : ((s.advance 8).emit e).inp.rest = bitsOfBytes ws ++ rest :=
      State.advance_rest hr (byteBits_length b)
    rw [List.length_cons, Nat.add_right_comm, loop_succ, hround, Res.bind_ok, if_pos rfl,
      ih (s := (s.advance 8).emit e) hio ho hrest hws, payloadOf_cons he]
    simp only [State.emit, State.advance, List.append_assoc, Nat.mul_succ, Nat.add_assoc, Nat.add_comm 8]

/-! ## `ENC` -/

/-- `ENC` has written the codes of the first words `ws` of the input. -/
def State.encoded (s : State) (ws : List Byte) : State :=
  { s with out := ⟨s.out.bits ++ payloadOf s.code ws, false⟩, inp := ⟨s.inp.data, 8 * ws.length⟩ }

/-- What is left of the input after its first words. -/
theorem State.encoded_rest {s : State} {ws after : List Byte} (h : s.inp.data = ws ++ after) :
    (s.encoded ws).inp.rest = bitsOfBytes after := by
  rw [InStream.rest, State.encoded, h, bitsOfBytes_append]
  exact List.drop_left' (bitsOfBytes_length ws)

/-- `ENC` from the state in which it has written the codes of the first words: a loop with rounds left, then the
terminator (R190, R193). -/
theorem encBody_words {s : State} {ws after : List Byte} (hio : s.ioFail = []) (ho : s.out.closed = false)
    (h : s.inp.data = ws ++ after) (hcodes : ∀ b ∈ ws, codeAt s.code b.toNat ≠ none) :
    ∃ m, encBody s = (loop encRound (m + 1) (s.encoded ws)).bind fun _ t =>
      (writeCode pseudoEof t).bind fun _ u => .ok () { u with codeValid := false, treeSt := .none } := by
  have hrest : InStream.rest ⟨s.inp.data, 0⟩ = bitsOfBytes ws ++ bitsOfBytes after := by
    rw [InStream.rest, List.drop_zero, h, bitsOfBytes_append]
  have hfuel : ws.length ≤ InStream.remaining ⟨s.inp.data, 0⟩ := by
    simp only [InStream.remaining, h, List.length_append]
    omega
  obtain ⟨m, hm⟩ := Nat.exists_eq_add_of_le hfuel
  refine ⟨m, ?_⟩
  rw [encBody, rewind_ok hio, Res.bind_ok, hm, Nat.add_assoc,
    loop_encRound_words (s := { s with inp := ⟨s.inp.data, 0⟩ }) (m + 1) hio ho hrest hcodes]
  simp only [State.emit, State.advance, State.encoded, ho, Nat.zero_add]

/-- The body of `ENC` where every word and pseudo-EOF have a code (R190, R193). -/
theorem encBody_ok {s : State} {e : Bits} (hio : s.ioFail = []) (ho : s.out.closed = false)
    (hcodes : ∀ b ∈ s.inp.data, codeAt s.code b.toNat ≠ none) (heof : codeAt s.code pseudoEof = some e) :
    encBody s = .ok () { (s.encoded s.inp.data).emit e with codeValid := false, treeSt := .none } := by
  have hdata := (List.append_nil s.inp.data).symm
  obtain ⟨m, hbody⟩ := encBody_words hio ho hdata hcodes
  rw [hbody, loop_succ, encRound_eod (s := s.encoded _) hio (State.encoded_rest hdata), Res.bind_ok,
    if_neg Bool.false_ne_true, Res.bind_ok, writeCode_ok (s := s.encoded _) hio rfl heof, Res.bind_ok]

/-- The body of `ENC` where a word has no code and all before it have one (R192). -/
theorem encBody_absent {s : State} {ws after : List Byte} {b : Byte} (hio : s.ioFail = [])
    (ho : s.out.closed = false) (h : s.inp.data = ws ++ b :: after)
    (hcodes : ∀ x ∈ ws, codeAt s.code x.toNat ≠ none) (hb : codeAt s.code b.toNat = none) :
    encBody s = .raise .absentCode .payloadEncode ((s.encoded ws).advance 8) := by
  obtain ⟨m, hbody⟩ := encBody_words hio ho h hcodes
  rw [hbody, loop_succ, encRound_word (s := s.encoded _) hio (State.encoded_rest h),
    writeCode_absent (s := (s.encoded _).advance 8) hb, Res.bind_raise, Res.bind_raise, Res.bind_raise]

theorem preEnc_iff {s : State} : preEnc s = true ↔ s.codeValid = true ∧ s.out.closed = false := by
  rw [preEnc, Bool.and_eq_true, outOpen_iff]

/-- Settles O34: the body of `ENC` where no code is missing. -/
theorem encodeWritesEveryCodeThenTheTerminator : Obligations.EncodeWritesEveryCodeThenTheTerminator :=
  ⟨rfl, fun s _ ⟨he, hio⟩ hv ho hcodes heof =>
    (dispatch_ok he (preEnc_iff.2 ⟨hv, ho⟩) (encBody_ok (s := setDone s false) hio ho hcodes heof)).trans rfl⟩

/-- Settles O35: the body of `ENC` where a code is missing. -/
theorem wordWithoutACodeIsAbsentCode : Obligations.WordWithoutACodeIsAbsentCode :=
  fun s _ _ _ ⟨he, hio⟩ hv ho hdata hcodes hb =>
    (dispatch_raise he (preEnc_iff.2 ⟨hv, ho⟩)
      (encBody_absent (s := setDone s false) hio ho hdata hcodes hb)).trans rfl

/-! ## `FIN` -/

/-- `FIN` pads the output to whole bytes and closes it (R194). -/
theorem exec_fin_ok {s : State} (h : Ready s) (ho : s.out.closed = false) :
    exec .fin s = .next { s with out := ⟨padToByte s.out.bits, true⟩, done := true } :=
  (dispatch_ok (body := finBody .payloadEncode) h.1 (outOpen_iff.2 ho) (close_ok (s := setDone s false) h.2)).trans rfl

/-- Settles O36: the zero bits are those of `padToByte`. -/
theorem finalisePadsAndCloses : Obligations.FinalisePadsAndCloses :=
  ⟨rfl, fun s hready ho =>
    ⟨padLen s.out.bits.length, Nat.le_of_lt_succ (padLen_lt _), padLen_mod _, exec_fin_ok hready ho⟩⟩

/-! ## The tables of a compression -/

/-- The sum of the counts of some words and of the one pseudo-EOF (R130). -/
theorem CountsOf.totalCount_eq {f : Vector Nat nsym} {ws : List Nat} (h : CountsOf f ws) (hws : ∀ w ∈ ws, w < 256) :
    totalCount f = ws.length + 1 := by
  obtain ⟨hwords, heof⟩ := h
  have hrange (n : Nat) : ((List.range n).map (freqAt f)).sum = ∑ i ∈ Finset.range n, freqAt f i := rfl
  have hsum : ∑ i ∈ Finset.range 256, freqAt f i = ws.length :=
    calc ∑ i ∈ Finset.range 256, freqAt f i
      _ = ∑ i ∈ Finset.range 256, (ws : Multiset Nat).count i :=
        Finset.sum_congr rfl fun i hi => (hwords i (Finset.mem_range.1 hi)).trans (Multiset.coe_count i ws).symm
      _ = ws.length := Multiset.sum_count_eq_card fun w hw => Finset.mem_range.2 (hws w hw)
  rw [totalCount, hrange, Finset.sum_range_succ, hsum, heof]

/-- Input within the limits does not stop the counting (R133). -/
theorem InputFits.countsFit {c : Config} {ws : List Nat} (h : InputFits c ws.length) : CountsFit c ws := by
  intro w hw
  have hlen := h.1 w hw
  exact ⟨by omega, fun i _ => by have := ws.count_le_length (a := i); omega⟩

/-- Input within the limits does not stop the building of its tree (R236). -/
theorem InputFits.buildFits {c : Config} {f : Vector Nat nsym} {ws : List Nat} (h : InputFits c ws.length)
    (hf : CountsOf f ws) (hws : ∀ w ∈ ws, w < 256) : BuildFits c f :=
  ⟨hf.totalCount_eq hws ▸ h.1, h.2⟩

/-- The tables and the codes of a compression of some words (R130, R140, R160). -/
structure Compresses (X : List Byte) (f : Vector Nat nsym) (T : Tree) (c : Vector (Option Bits) nsym)
    (e : Bits) : Prop where
  counts : CountsOf f (X.map BitVec.toNat)
  builds : BuildsTo f T
  codes : CodesOf c T
  words : ∀ b ∈ X, codeAt c b.toNat ≠ none
  eof : codeAt c pseudoEof = some e

/-- Every symbol that occurs has a code, which is the path of its leaf (R142, R164 (a)). -/
theorem exists_code_of_freqAt {cfg : Config} {f : Vector Nat nsym} {T : Tree} {c : Vector (Option Bits) nsym}
    (hT : buildTree cfg f = some T) (hc : CodesOf c T) {i : Nat} (hi : i ≤ pseudoEof) (hf : 0 < freqAt f i) :
    ∃ e, codeAt c i = some e :=
  hc.exists_code hi (List.mem_map_of_mem (f := Prod.fst) ((buildTree_symbol hT hi _).2 ⟨hf, rfl⟩))

/-- Within the limits the counts of the words give a tree, and its code table has a code for each of them and one
for pseudo-EOF. -/
theorem exists_compresses {cfg : Config} {X : List Byte} {f : Vector Nat nsym} (hfit : InputFits cfg X.length)
    (hf : CountsOf f (X.map BitVec.toNat)) :
    ∃ T e, buildTree cfg f = some T ∧ Compresses X f T (codeTable T) e := by
  have hws : ∀ w ∈ X.map BitVec.toNat, w < 256 := by
    simp only [List.forall_mem_map]
    exact fun b _ => b.isLt
  have hfit : InputFits cfg (X.map BitVec.toNat).length := (List.length_map (as := X) BitVec.toNat).symm ▸ hfit
  obtain ⟨T, hbuilds, hT⟩ := buildTree_fits (hfit.buildFits hf hws)
  have heof : 0 < freqAt f pseudoEof := hf.2 ▸ Nat.one_pos
  have hc : CodesOf (codeTable T) T := codeTable_codesOf (buildTree_built hT heof).distinct
  obtain ⟨e, he⟩ := exists_code_of_freqAt hT hc (le_refl _) heof
  refine ⟨T, e, hT, hf, hbuilds, hc, fun b hb => ?_, he⟩
  have hoccurs : 0 < freqAt f b.toNat := by
    rw [hf.1 _ b.isLt]
    exact List.count_pos_iff.2 (List.mem_map_of_mem hb)
  exact Option.ne_none_iff_exists'.2 (exists_code_of_freqAt hT hc b.isLt.le hoccurs)

/-! ## The container -/

/-- The state that `CMP` leaves, given the tables and codes it made (R90, R220). -/
def State.compressed (s : State) (f : Vector Nat nsym) (T : Tree) (c : Vector (Option Bits) nsym) (e : Bits) : State :=
  { discardAll s with
    freq := f, tree := T, code := c, inp := ⟨s.inp.data, 8 * s.inp.data.length⟩, done := true,
    out := ⟨padToByte (bitsOf 32 s.cfg.magic.toNat ++ T.serBits ++ payloadOf c s.inp.data ++ e), true⟩ }

/-- `CMP` begins with discarding what it finds (R220). -/
theorem exec_cmp_discardAll {s : State} (he : s.err = .none) (ho : s.out.closed = false) :
    exec .cmp (discardAll s) = exec .cmp s :=
  calc dispatch preCmp cmpBody (discardAll s)
    _ = complete (cmpBody (setDone (discardAll s) false)) := dispatch_runs he (outOpen_iff.2 ho)
    _ = complete (cmpBody (setDone s false)) := rfl
    _ = dispatch preCmp cmpBody s := (dispatch_runs he (outOpen_iff.2 ho)).symm

/-- `BLD` stores the tree of the table (R150). -/
theorem exec_bld_ok {s : State} {T : Tree} (he : s.err = .none) (hf : s.freqValid = true)
    (hT : buildTree s.cfg s.freq = some T) : exec .bld s = .next (setDone (s.storeTree T) true) :=
  (dispatch_ok he hf (bldBody_ok (s := setDone s false) hT)).trans rfl

/-- `CMP` of any input within the limits writes its container: stage by stage, each in the state the one before it
leaves (R220). -/
theorem exec_cmp_ok {s : State} (hready : Ready s) (hpos : s.inp.pos = 0) (hout : s.out = ⟨[], false⟩)
    (hfit : InputFits s.cfg s.inp.data.length) :
    ∃ f T c e, Compresses s.inp.data f T c e ∧ exec .cmp s = .next (s.compressed f T c e) := by
  obtain ⟨he, hio⟩ := hready
  have ho : s.out.closed = false := by rw [hout]
  have hwords : s.inp.words = s.inp.data.map BitVec.toNat :=
    calc s.inp.words
      _ = InStream.words ⟨s.inp.data, 8 * 0⟩ := by rw [Nat.mul_zero, ← hpos]
      _ = s.inp.data.map BitVec.toNat := wordsOfAnAlignedInputAreItsBytes s.inp.data 0
  have hlen : s.inp.words.length = s.inp.data.length := by rw [hwords, List.length_map]
  obtain ⟨f, hf, hcnt⟩ := countGivesTheOccurrences.2 (discardAll s) ⟨he, hio⟩ (InputFits.countsFit (hlen ▸ hfit))
  obtain ⟨T, e, hT, hc⟩ := exists_compresses hfit (hwords ▸ hf)
  refine ⟨f, T, codeTable T, e, hc, ?_⟩
  rw [← exec_cmp_discardAll he ho, compressIsItsStages.2 (discardAll s) ho rfl rfl]
  refine Eq.trans (execAll_cons hcnt) ?_
  refine Eq.trans (execAll_cons (exec_bld_ok he rfl hT)) ?_
  refine Eq.trans (execAll_cons (exec_gen_of_built he rfl)) ?_
  refine Eq.trans (execAll_cons (writeMagicAppendsTheConstant.2 _ ⟨he, hio⟩ ho)) ?_
  refine Eq.trans (execAll_cons (execSer_ok ⟨he, hio⟩ nofun rfl)) ?_
  refine Eq.trans (execAll_cons (encodeWritesEveryCodeThenTheTerminator.2 _ e ⟨he, hio⟩ rfl rfl hc.words hc.eof)) ?_
  refine Eq.trans (execAll_singleton.trans (exec_fin_ok ⟨he, hio⟩ rfl)) ?_
  simp [State.compressed, State.storeTree, State.emit, setDone, discardAll, hout]

theorem padToByte_length (b : Bits) : (padToByte b).length = 8 * ((b.length + 7) / 8) := by
  rw [padToByte, List.length_append, List.length_replicate, padLen]
  omega

/-- Settles O49: the container is 32 bits, the header, the payload and the terminator, padded. -/
theorem containerSize : Obligations.ContainerSize := by
  intro s t hexec hready hpos hout hfit
  obtain ⟨f, T, c, e, hc, hcmp⟩ := exec_cmp_ok hready hpos hout hfit
  obtain rfl := Host.Outcome.next.inj (hcmp.symm.trans hexec)
  have hheader : T.serBits.length = 11 * T.leaves.length - 1 := by
    have := T.serBits_length
    omega
  refine ⟨e, hc.eof, (padToByte_length _).trans ?_⟩
  simp only [List.length_append, bitsOf_length, hheader]
  rfl

end Sys2Proof.Machine

/-! The stream decoder (45_stream_decoder.md): its step, the walk of `DEC` along the paths of the tree and the ways it
ends, the commands that read a container as their tokens, and the round trip. -/

namespace Sys2Proof.Machine

/-! ## One step -/

/-- A step of the walk with a bit left takes the token of that bit (R200, R201). -/
theorem step_payload {s : State} {path : Bits} {b : Bool} {rest : Bits} (hready : Ready s) (hs : s.scan = .idle)
    (hc : s.cur = some path) (hr : s.inp.rest = b :: rest) :
    step s = exec (if b then .payR else .payL) (s.advance 1) := by
  obtain ⟨-, -, -, hpayload⟩ := stepRunsTheDecodedInstruction
  have hstep := hpayload s path _ rest hready hs hc (hr ▸ decode_payload b rest)
  cases b <;> exact hstep

/-- Settles O40: the token of the bit that is left, at the state after it (`PayloadBitsMoveToTheChild`). -/
theorem oneStepOfTheDecoder : Obligations.OneStepOfTheDecoder := by
  intro s path hready hs hc ho
  obtain ⟨-, -, -, hend⟩ := stepAtTheEndOfTheInputFaults s hready
  refine ⟨hend path hs hc, fun b rest hr => ?_⟩
  rw [step_payload hready hs hc hr]
  obtain ⟨hnode, hleaf⟩ := payloadBitsMoveToTheChild (s.advance 1) path hready hc ho
  refine ⟨fun x w hn => ?_, fun l r w hn => hnode l r w hn _ b _ ?_⟩
  · obtain ⟨hpayL, hpayR⟩ := hleaf x w hn
    cases b
    · exact hpayL
    · exact hpayR
  · cases b <;> simp

/-! ## What a payload bit leaves -/

/-- A bit that goes on leaves the walk at a node; one that ends the walk leaves no node and no tree (R201, R205,
R206). -/
def AfterBit (s : State) (more : Bool) (t : State) : Prop :=
  if more then t.scan = s.scan ∧ ∃ path, t.cur = some path else t.cur = none ∧ t.treeSt = .none

theorem payMove_eq_ok {b more : Bool} {path : Bits} {s t : State} (h : payMove b path s = .ok more t) :
    AfterBit s more t := by
  unfold payMove at h
  split at h
  · split at h
    · cases h
      exact ⟨rfl, _, rfl⟩
    · split at h
      · cases h
        exact ⟨rfl, rfl⟩
      · obtain ⟨_, u, hu, h⟩ := Res.bind_eq_ok h
        cases h
        rcases writeStr_cases .payloadDecode (bitsOf wordW _) s with ⟨l, e⟩ | ⟨l, e⟩ <;> cases e.symm.trans hu
        exact ⟨rfl, _, rfl⟩
  · cases h
  · cases h

theorem payToken_eq_ok {b more : Bool} {s t : State} (h : payToken b s = .ok more t) : AfterBit s more t := by
  unfold payToken at h
  split at h
  · exact payMove_eq_ok h
  · split at h
    · exact payMove_eq_ok (s := { s with cur := some [] }) h
    · cases h

/-- Reading a payload bit changes the position and the plan of failures only (R200). -/
theorem fetchPayload_eq_ok {s t : State} {b : Nat} (h : fetchPayload s = .ok b t) :
    ∃ l, t = (s.advance 1).withPlan l := by
  obtain ⟨r, u, hu, h⟩ := Res.bind_eq_ok h
  rcases readBits_cases .payloadDecode 1 s with ⟨l, e⟩ | ⟨l, e⟩ | ⟨l, -, e⟩ <;> cases e.symm.trans hu <;> cases h
  exact ⟨l, rfl⟩

theorem decRound_eq_ok {s t : State} {more : Bool} (h : decRound s = .ok more t) : AfterBit s more t := by
  obtain ⟨b, u, hu, h⟩ := Res.bind_eq_ok h
  obtain ⟨l, rfl⟩ := fetchPayload_eq_ok hu
  exact payToken_eq_ok (s := (s.advance 1).withPlan l) h

/-- `DEC` ends with no node and no tree (R205, R206). -/
theorem decBody_eq_ok {s t : State} (h : decBody s = .ok () t) : t.cur = none ∧ t.treeSt = .none := by
  obtain ⟨u, hu⟩ := loop_eq_ok (fun _ _ h => decRound_remaining h) (Nat.lt_succ_self _) h
  exact decRound_eq_ok hu

/-- Settles O39: a fault clears `CUR`, and so does the round that ends the walk. -/
theorem decodeLeavesNoNodeAndNoTree : Obligations.DecodeLeavesNoNodeAndNoTree := by
  intro s t h he _
  rcases dispatch_cases preDec decBody s with ⟨hne, -⟩ | ⟨-, -, e⟩ | ⟨-, -, ⟨u, hu, e⟩ | ⟨f, p, u, hu, e⟩⟩
  · exact absurd he hne
  all_goals obtain rfl := Host.Outcome.next.inj (e.symm.trans h)
  · exact ⟨rfl, nofun⟩
  · obtain ⟨hcur, htree⟩ := decBody_eq_ok hu
    exact ⟨hcur, fun _ => htree⟩
  · exact ⟨rfl, fun hf => absurd hf (faultsOf_ne_none (decBody_raises _ _ _ _ hu))⟩

/-! ## The reading commands and their tokens -/

theorem run_succ_of_next {s t : State} (h : step s = .next t) (k : Nat) :
    Sys2Proof.core.run (k + 1) s = Sys2Proof.core.run k t := by
  have hcore : Sys2Proof.core.step s = .next t := h
  simp only [Host.Core.run, hcore]

theorem run_one {s t : State} (h : step s = .next t) : Sys2Proof.core.run 1 s = .next t := run_succ_of_next h 0

/-- A token taken while a command is running (R215). -/
theorem takeToken_running {token : State → Res Bool} {s : State} (he : s.err = .none) (hd : s.done = false) :
    takeToken token s = completeToken (token s) := by
  rw [takeToken, if_neg (by simp [he]), setDone_of_done hd]

/-- A step that fetches a token and takes it is a round with the end of that token. -/
theorem step_round {α : Type} {toInstr : α → Instr} {token : α → State → Res Bool} {x : Res α} {s : State}
    (hfetch : fetch s = fetched toInstr x)
    (htoken : ∀ a t, x = .ok a t → exec (toInstr a) t = completeToken (token a t)) :
    step s = completeToken (x.bind token) := by
  cases x with
  | ok a t => exact (step_of_run hfetch).trans (htoken a t rfl)
  | raise f p t => exact step_of_stop hfetch

/-- A command that reads by rounds is its tokens fetched and run: where every step is a round with the end of its
token, as many steps as there are rounds are the loop (R174, R200, R283). -/
theorem run_rounds {I : State → Prop} {round : State → Res Bool}
    (hstep : ∀ s, I s → step s = completeToken (round s))
    (hgoes : ∀ s t, I s → round s = .ok true t → I t ∧ t.done = false ∧ t.inp.remaining < s.inp.remaining)
    {n : Nat} {s : State} (hn : s.inp.remaining < n) (hs : I s) :
    ∃ k, Sys2Proof.core.run k s = complete (loop round n s) := by
  induction n generalizing s with
  | zero => omega
  | succ n ih =>
    have hfirst := hstep s hs
    rw [loop_succ]
    cases hr : round s with
    | raise f p t => exact ⟨1, run_one (hfirst.trans (congrArg _ hr))⟩
    | ok more t =>
      rw [hr] at hfirst
      cases more with
      | false => exact ⟨1, run_one hfirst⟩
      | true =>
        obtain ⟨ht, hd, hlt⟩ := hgoes s t hs hr
        obtain ⟨k, hk⟩ := ih (by omega) ht
        exact ⟨k + 1, (run_succ_of_next (hfirst.trans (congrArg _ (setDone_of_done hd))) k).trans hk⟩

/-! ### `RMG` -/

/-- `s` in the middle of another reading. -/
def State.withScan (k : Scan) (s : State) : State := { s with scan := k }

theorem access_withScan (k : Scan) (p : Phase) (s : State) :
    access p (s.withScan k) = (access p s).mapState (State.withScan k) := by
  unfold access State.withScan
  dsimp only
  split <;> rfl

theorem fetchMagic_withScan (k : Scan) (s : State) :
    fetchMagic (s.withScan k) = (fetchMagic s).mapState (State.withScan k) := by
  rw [fetchMagic, fetchMagic, readBits, readBits, access_withScan]
  cases access .headerValidation s with
  | raise f p t => rfl
  | ok u t =>
    by_cases h : t.inp.pos + magicW ≤ 8 * t.inp.data.length <;> simp [Res.mapState, State.withScan, h]

/-- The end of the magic number's token is the end of `RMG`, whatever is being read (R171). -/
theorem completeToken_magicToken (k : Scan) (m : Nat) (s : State) :
    completeToken (magicToken m (s.withScan k)) = complete ((magicToken m s).bind fun _ t => .ok () t) := by
  by_cases h : m = s.cfg.magic.toNat
  · rw [magicToken_match h, magicToken_match (s := s.withScan k) h]
    rfl
  · rw [magicToken_mismatch h, magicToken_mismatch (s := s.withScan k) h]
    rfl

/-- The step that reads the magic number is the body of `RMG` (R171). -/
theorem step_magic {s : State} (he : s.err = .none) (hd : s.done = false) :
    step (s.withScan .magic) = complete (rmgBody s) := by
  have hstep : step (s.withScan .magic) = completeToken ((fetchMagic (s.withScan .magic)).bind magicToken) := by
    refine step_round (fetch_magic he rfl) fun m t hm => ?_
    have hk : Keeps _ t := Res.state_eq hm ▸ fetchMagic_keeps (s.withScan .magic)
    exact takeToken_running (hk.err.trans he) (hk.done.trans hd)
  rw [hstep, fetchMagic_withScan, rmgBody]
  cases fetchMagic s with
  | raise f p t => rfl
  | ok m t => exact completeToken_magicToken .magic m t

/-! ### `DES` -/

/-- `DES` is running: it has begun some nodes (R39 (b), R174). -/
structure RunningDes (s : State) : Prop where
  err : s.err = .none
  done : s.done = false
  scan : ∃ st, s.scan = .header st

theorem hdrIntToken_scan {s t : State} {more : Bool} (h : hdrIntToken s = .ok more t) : ∃ st, t.scan = .header st := by
  unfold hdrIntToken noRoom at h
  split at h <;> cases h
  exact ⟨_, rfl⟩

theorem hdrLeafToken_scan {sym : Nat} {s t : State} (h : hdrLeafToken sym s = .ok true t) :
    ∃ st, t.scan = .header st := by
  unfold hdrLeafToken noRoom at h
  split at h
  · split at h <;> cases h
    exact ⟨_, rfl⟩
  · cases h

/-- A round of `DES` that goes on is in the middle of the header (R174). -/
theorem desRound_scan {s t : State} (h : desRound s = .ok true t) : ∃ st, t.scan = .header st := by
  obtain ⟨mf, u, -, h⟩ := Res.bind_eq_ok h
  split at h
  · exact hdrIntToken_scan h
  · exact hdrLeafToken_scan h

theorem RunningDes.step_eq {s : State} (h : RunningDes s) : step s = completeToken (desRound s) := by
  obtain ⟨he, hd, st, hs⟩ := h
  refine step_round (fetch_header he hs) fun mf t hm => ?_
  have hk : Keeps s t := Res.state_eq hm ▸ fetchHeader_keeps s
  have het := hk.err.trans he
  have hdt := hk.done.trans hd
  unfold decodeHeader
  split
  · exact takeToken_running het hdt
  · exact takeToken_running het hdt

theorem RunningDes.goes {s t : State} (h : RunningDes s) (hr : desRound s = .ok true t) :
    RunningDes t ∧ t.done = false ∧ t.inp.remaining < s.inp.remaining := by
  have hk : Keeps s t := Res.state_eq hr ▸ desRound_keeps s
  have hd := hk.done.trans h.done
  exact ⟨⟨hk.err.trans h.err, hd, desRound_scan hr⟩, hd, (desRound_eq_ok hr).1⟩

/-! ### `DEC` -/

/-- `DEC` is running: its walk is at a node (R29, R200). -/
structure RunningDec (s : State) : Prop where
  err : s.err = .none
  done : s.done = false
  scan : s.scan = .idle
  cur : ∃ path, s.cur = some path

theorem preDec_iff {s : State} : preDec s = true ↔ s.treeSt ≠ .none ∧ s.out.closed = false := by
  rw [preDec, Bool.and_eq_true, hasTree_iff, outOpen_iff]

theorem exec_decodePayload (b : Nat) (s : State) :
    exec (decodePayload b) s = takeToken (payToken (decide (b ≠ 0))) s := by
  by_cases hb : b = 0
  · rw [hb]
    rfl
  · rw [decodePayload, if_neg hb, decide_eq_true hb]
    rfl

theorem RunningDec.step_eq {s : State} (h : RunningDec s) : step s = completeToken (decRound s) := by
  obtain ⟨he, hd, hs, path, hc⟩ := h
  refine step_round (fetch_payload he hs hc) fun b t hm => ?_
  have hk : Keeps s t := Res.state_eq hm ▸ fetchPayload_keeps s
  exact (exec_decodePayload b t).trans (takeToken_running (hk.err.trans he) (hk.done.trans hd))

theorem RunningDec.goes {s t : State} (h : RunningDec s) (hr : decRound s = .ok true t) :
    RunningDec t ∧ t.done = false ∧ t.inp.remaining < s.inp.remaining := by
  have hk : Keeps s t := Res.state_eq hr ▸ decRound_keeps s
  have hd := hk.done.trans h.done
  obtain ⟨hs, hc⟩ : t.scan = s.scan ∧ ∃ path, t.cur = some path := decRound_eq_ok hr
  exact ⟨⟨hk.err.trans h.err, hd, hs.trans h.scan, hc⟩, hd, decRound_remaining hr⟩

/-- Settles O45: the one token of `RMG`, and the rounds of `DES` and of `DEC`. -/
theorem readingCommandsAreTheirTokensIterated : Obligations.ReadingCommandsAreTheirTokensIterated := by
  refine fun s he => ⟨?_, ?_, fun ht ho hs => ?_⟩
  · have hstep := step_magic (s := setDone s false) he rfl
    cases hb : rmgBody (setDone s false) with
    | ok u t => exact (run_one (hstep.trans (congrArg _ hb))).trans (dispatch_ok he rfl hb).symm
    | raise f p t => exact (run_one (hstep.trans (congrArg _ hb))).trans (dispatch_raise he rfl hb).symm
  · obtain ⟨k, hk⟩ := run_rounds (fun _ => RunningDes.step_eq) (fun _ _ => RunningDes.goes)
      (Nat.lt_succ_self (setDone s false).inp.remaining) (s := beginParse (setDone s false)) ⟨he, rfl, [], rfl⟩
    exact ⟨k, hk.trans (dispatch_runs (body := desBody) he rfl).symm⟩
  · obtain ⟨k, hk⟩ := run_rounds (fun _ => RunningDec.step_eq) (fun _ _ => RunningDec.goes)
      (Nat.lt_succ_self (setDone s false).inp.remaining) (s := { setDone s false with cur := some [] })
      ⟨he, rfl, hs, [], rfl⟩
    exact ⟨k, hk.trans (dispatch_runs (body := decBody) he (preDec_iff.2 ⟨ht, ho⟩)).symm⟩

/-! ## Paths -/

theorem Tree.eq_node_of_isNode {t : Tree} (h : t.isNode = true) : ∃ l r w, t = .node l r w := by
  cases t with
  | leaf => cases h
  | node l r w => exact ⟨l, r, w, rfl⟩

theorem Tree.eq_leaf_of_not_isNode {t : Tree} (h : t.isNode = false) : ∃ x w, t = .leaf x w := by
  cases t with
  | leaf x w => exact ⟨x, w, rfl⟩
  | node => cases h

/-- The parent of a node is an internal node, and the node is its child (R9). -/
theorem Tree.nodeAt_snoc {t m : Tree} {p : Bits} {b : Bool} (h : t.nodeAt (p ++ [b]) = some m) :
    ∃ l r w, t.nodeAt p = some (.node l r w) ∧ (if b then r else l) = m := by
  rw [Tree.nodeAt_append] at h
  obtain ⟨n, hn, h⟩ := Option.bind_eq_some_iff.1 h
  cases n with
  | leaf => cases h
  | node l r w =>
    refine ⟨l, r, w, hn, ?_⟩
    cases b <;> exact Option.some.inj ((Tree.nodeAt_nil _).symm.trans h)

/-- Bits from an internal node on go past a leaf, or end at an internal node (R201). -/
theorem Tree.path_split {t : Tree} (hroot : t.isNode = true) (b : Bits) :
    (∃ p x rest, t.HasLeaf p x ∧ b = p ++ rest) ∨ ∃ n, t.nodeAt b = some n ∧ n.isNode = true := by
  induction b generalizing t with
  | nil => exact .inr ⟨t, t.nodeAt_nil, hroot⟩
  | cons d b ih =>
    obtain ⟨l, r, w, rfl⟩ := Tree.eq_node_of_isNode hroot
    cases hc : if d then r else l with
    | leaf x v => exact .inl ⟨[d], x, b, Tree.hasLeaf_cons.2 (hc ▸ Tree.hasLeaf_leaf.2 ⟨rfl, rfl⟩), rfl⟩
    | node l' r' w' =>
      rcases ih (t := if d then r else l) (hc ▸ rfl) with ⟨p, x, rest, hp, rfl⟩ | ⟨n, hn, hin⟩
      · exact .inl ⟨d :: p, x, rest, Tree.hasLeaf_cons.2 hp, rfl⟩
      · refine .inr ⟨n, ?_, hin⟩
        cases d <;> exact hn

theorem Tree.HasLeaf.eofPath {t : Tree} {p : Bits} {x : Sym} (h : t.HasLeaf p x) (hx : x.toNat = pseudoEof) :
    EofPath t p := by
  obtain rfl : x = BitVec.ofNat symFieldW pseudoEof := BitVec.eq_of_toNat_eq hx
  exact h

theorem pathBits_cons (x : Bits × Sym) (ps : List (Bits × Sym)) : pathBits (x :: ps) = x.1 ++ pathBits ps := rfl

theorem wordBits_cons (x : Bits × Sym) (ps : List (Bits × Sym)) :
    wordBits (x :: ps) = bitsOf 8 x.2.toNat ++ wordBits ps := rfl

/-- The bits of a payload are paths of words and then the path of pseudo-EOF, or they end before it (R201 to R205). -/
theorem Tree.payload_split {t : Tree} (hroot : t.isNode = true) (b : Bits) :
    ∃ ps r, WordPaths t ps ∧ b = pathBits ps ++ r ∧
      ((∃ q rest, EofPath t q ∧ r = q ++ rest) ∨ ∃ n, t.nodeAt r = some n ∧ n.isNode = true) := by
  induction hn : b.length using Nat.strong_induction_on generalizing b with
  | _ k ih =>
    rcases Tree.path_split hroot b with ⟨p, x, rest, hp, rfl⟩ | hend
    · by_cases hx : x.toNat = pseudoEof
      · exact ⟨[], _, nofun, rfl, .inl ⟨p, rest, hp.eofPath hx, rfl⟩⟩
      · have hpos := hp.length_pos hroot
        obtain ⟨ps, r, hps, rfl, hr⟩ := ih rest.length (by rw [List.length_append] at hn; omega) rest rfl
        refine ⟨(p, x) :: ps, r, List.forall_mem_cons.2 ⟨⟨hp, hx⟩, hps⟩, ?_, hr⟩
        rw [pathBits_cons, List.append_assoc]
    · exact ⟨[], b, nofun, rfl, .inr hend⟩

/-! ## The walk -/

/-- The walk of `DEC` from where it is, to its end. -/
def decodeFrom (s : State) : Res Unit := loop decRound (s.inp.remaining + 1) s

/-- A walk is one round and the walk from there (R200): every round leaves less to read. -/
theorem decodeFrom_eq (s : State) :
    decodeFrom s = (decRound s).bind fun more t => if more then decodeFrom t else .ok () t := by
  rw [decodeFrom, loop_succ]
  cases h : decRound s with
  | raise f p t => rfl
  | ok more t =>
    cases more with
    | false => rfl
    | true => exact loop_fuel (fun _ _ => decRound_remaining) _ _ t (decRound_remaining h) (Nat.lt_succ_self _)

@[simp] theorem State.emit_nil (s : State) : s.emit [] = s := by simp [State.emit]

@[simp] theorem State.advance_zero (s : State) : s.advance 0 = s := rfl

/-- `s` in the middle of a walk, with the bits `o` emitted, `n` bits read and the node at `path` reached. -/
def State.walking (s : State) (o : Bits) (n : Nat) (path : Bits) : State :=
  { (s.emit o).advance n with cur := some path }

/-- `s` after a walk that emitted `o`, read `n` bits and met pseudo-EOF (R205, R206). -/
def State.decoded (s : State) (o : Bits) (n : Nat) : State :=
  { (s.emit o).advance n with cur := none, treeSt := .none }

section
variable {s : State} {o : Bits} {n : Nat} {path rest : Bits} {b : Bool}

theorem State.walking_rest (s : State) (o : Bits) (n : Nat) (path : Bits) :
    (s.walking o n path).inp.rest = s.inp.rest.drop n := s.inp.rest_advance n

variable (hio : s.ioFail = [])
include hio

/-- A round with a bit left is a move by that bit (R201). -/
theorem decRound_walking (hr : s.inp.rest.drop n = b :: rest) :
    decRound (s.walking o n path) = payMove b path (s.walking o (n + 1) path) := by
  have hfetch := fetchPayload_ok (s := s.walking o n path) hio ((s.walking_rest o n path).trans hr)
  have hb : decide (b.toNat ≠ 0) = b := by cases b <;> rfl
  rw [decRound, hfetch, Res.bind_ok, hb]
  rfl

/-- No bit is left (R204). -/
theorem decodeFrom_end (hr : s.inp.rest.drop n = []) :
    decodeFrom (s.walking o n path) = .raise .truncatedStreamError .payloadDecode (s.walking o n path) := by
  have hfetch := fetchPayload_eod (s := s.walking o n path) hio ((s.walking_rest o n path).trans hr)
  rw [decodeFrom_eq, decRound, hfetch, Res.bind_raise, Res.bind_raise]

/-- The walk goes down a path of internal nodes (R201). -/
theorem decodeFrom_descend {m : Tree} (hm : s.tree.nodeAt path = some m) (hin : m.isNode = true)
    (hr : s.inp.rest.drop n = path ++ rest) :
    decodeFrom (s.walking o n []) = decodeFrom (s.walking o (n + path.length) path) := by
  induction path using List.reverseRecOn generalizing m rest with
  | nil => rfl
  | append_singleton p b ih =>
    obtain ⟨l, r, w, hp, rfl⟩ := Tree.nodeAt_snoc hm
    obtain ⟨l', r', w', hc⟩ := Tree.eq_node_of_isNode hin
    rw [List.append_assoc] at hr
    rw [ih hp rfl hr, decodeFrom_eq, decRound_walking hio (drop_add_of_drop_eq hr),
      payMove_node (s := s.walking o (n + p.length + 1) p) hp hc, Res.bind_ok, if_pos rfl, List.length_append,
      Nat.add_assoc]
    rfl

/-- A path of a leaf is walked to its end: pseudo-EOF ends the walk, and another symbol is emitted (R201, R203,
R205). -/
theorem decodeFrom_leaf {x : Sym} (ho : s.out.closed = false) (hroot : s.tree.isNode = true)
    (hx : s.tree.HasLeaf path x) (hr : s.inp.rest.drop n = path ++ rest) :
    decodeFrom (s.walking o n []) =
      if x.toNat = pseudoEof then .ok () (s.decoded o (n + path.length))
      else decodeFrom (s.walking (o ++ bitsOf 8 x.toNat) (n + path.length) []) := by
  have hne : path ≠ [] := List.ne_nil_of_length_pos (hx.length_pos hroot)
  obtain ⟨p, b, rfl⟩ := (List.eq_nil_or_concat' path).resolve_left hne
  obtain ⟨w', hx⟩ := hx
  obtain ⟨l, r, w, hp, hc⟩ := Tree.nodeAt_snoc hx
  rw [List.append_assoc] at hr
  rw [decodeFrom_descend hio hp rfl hr, decodeFrom_eq, decRound_walking hio (drop_add_of_drop_eq hr)]
  by_cases heof : x.toNat = pseudoEof
  · rw [payMove_eof (s := s.walking o (n + p.length + 1) p) hp hc heof, if_pos heof, List.length_append]
    rfl
  · rw [payMove_word (s := s.walking o (n + p.length + 1) p) hio ho hp hc heof, if_neg heof, List.length_append]
    simp [State.walking, State.emit, State.advance, Nat.add_assoc]

/-- The walk over the paths of words emits the words (R203). -/
theorem decodeFrom_words {ps : List (Bits × Sym)} (ho : s.out.closed = false) (hroot : s.tree.isNode = true)
    (hps : WordPaths s.tree ps) (hr : s.inp.rest.drop n = pathBits ps ++ rest) :
    decodeFrom (s.walking o n []) = decodeFrom (s.walking (o ++ wordBits ps) (n + (pathBits ps).length) []) := by
  induction ps generalizing o n with
  | nil => simp [wordBits, pathBits]
  | cons x ps ih =>
    obtain ⟨⟨hx, hne⟩, hps⟩ := List.forall_mem_cons.1 hps
    rw [pathBits_cons, List.append_assoc] at hr
    rw [decodeFrom_leaf hio ho hroot hx hr, if_neg hne, ih hps (drop_add_of_drop_eq hr), pathBits_cons, wordBits_cons,
      List.length_append, List.append_assoc, Nat.add_assoc]

end

/-! ## `DEC` -/

/-- `DEC` is a walk from the root with no bit read (R200). -/
theorem decBody_eq (s : State) : decBody s = decodeFrom (s.walking [] 0 []) := by
  rw [decBody, decodeFrom, State.walking, State.emit_nil, State.advance_zero]

section
variable {s : State} (hio : s.ioFail = []) (ho : s.out.closed = false)
include hio

/-- The input starts with a bit and the root is a leaf (R202). -/
theorem decBody_bareLeaf {b : Bool} {rest : Bits} (hroot : s.tree.isNode = false) (hr : s.inp.rest = b :: rest) :
    decBody s = .raise .malformedStructureError .payloadDecode (s.walking [] 1 []) := by
  obtain ⟨x, w, hx⟩ := Tree.eq_leaf_of_not_isNode hroot
  have hleaf : s.tree.nodeAt [] = some (.leaf x w) := hx ▸ s.tree.nodeAt_nil
  rw [decBody_eq, decodeFrom_eq, decRound_walking (n := 0) hio hr, payMove_leaf (s := s.walking [] 1 []) hleaf,
    Res.bind_raise]

/-- No bit is left (R204). -/
theorem decBody_end (hr : s.inp.rest = []) :
    decBody s = .raise .truncatedStreamError .payloadDecode (s.walking [] 0 []) :=
  (decBody_eq s).trans (decodeFrom_end hio hr)

include ho

/-- The payload splits into the paths of words and a rest (R203). -/
theorem decBody_words {ps : List (Bits × Sym)} {r : Bits} (hroot : s.tree.isNode = true) (hps : WordPaths s.tree ps)
    (hr : s.inp.rest = pathBits ps ++ r) :
    decBody s = decodeFrom (s.walking (wordBits ps) (pathBits ps).length []) ∧
      s.inp.rest.drop (pathBits ps).length = r := by
  have h := decodeFrom_words (o := []) (n := 0) hio ho hroot hps hr
  rw [Nat.zero_add, List.nil_append] at h
  exact ⟨(decBody_eq s).trans h, by rw [hr, List.drop_left]⟩

/-- The payload ends at pseudo-EOF (R205). -/
theorem decBody_terminated {ps : List (Bits × Sym)} {q rest : Bits} (hroot : s.tree.isNode = true)
    (hps : WordPaths s.tree ps) (hq : EofPath s.tree q) (hr : s.inp.rest = pathBits ps ++ (q ++ rest)) :
    decBody s = .ok () (s.decoded (wordBits ps) ((pathBits ps).length + q.length)) := by
  obtain ⟨hbody, hdrop⟩ := decBody_words hio ho hroot hps hr
  rw [hbody, decodeFrom_leaf hio ho hroot hq hdrop]
  rfl

/-- The input ends before pseudo-EOF (R204). -/
theorem decBody_truncated {ps : List (Bits × Sym)} {r : Bits} {m : Tree} (hroot : s.tree.isNode = true)
    (hps : WordPaths s.tree ps) (hm : s.tree.nodeAt r = some m) (hin : m.isNode = true)
    (hr : s.inp.rest = pathBits ps ++ r) :
    decBody s = .raise .truncatedStreamError .payloadDecode (s.walking (wordBits ps) s.inp.rest.length r) := by
  obtain ⟨hbody, hdrop⟩ := decBody_words hio ho hroot hps hr
  have hlen : s.inp.rest.length = (pathBits ps).length + r.length := by rw [hr, List.length_append]
  rw [hbody, decodeFrom_descend hio hm hin (hdrop.trans (List.append_nil r).symm), ← hlen]
  exact decodeFrom_end hio List.drop_length

end

section
variable {s : State} (hready : Ready s) (ht : s.treeSt ≠ .none) (ho : s.out.closed = false)
include hready ht ho

/-- A `DEC` whose payload ends at pseudo-EOF completes (R205, R206). -/
theorem exec_dec_terminated {ps : List (Bits × Sym)} {q rest : Bits} (hroot : s.tree.isNode = true)
    (hps : WordPaths s.tree ps) (hq : EofPath s.tree q) (hr : s.inp.rest = pathBits ps ++ (q ++ rest)) :
    exec .dec s = .next (setDone (s.decoded (wordBits ps) ((pathBits ps).length + q.length)) true) :=
  (dispatch_ok hready.1 (preDec_iff.2 ⟨ht, ho⟩)
    (decBody_terminated (s := setDone s false) hready.2 ho hroot hps hq hr)).trans rfl

/-- A `DEC` whose walk raises a fault ends with it (R240). -/
theorem exec_dec_raise {f : ErrCode} {p : Phase} {o path : Bits} {n : Nat}
    (h : decBody (setDone s false) = .raise f p ((setDone s false).walking o n path)) :
    exec .dec s = .next (((s.emit o).advance n).faultedWith f p) :=
  (dispatch_raise hready.1 (preDec_iff.2 ⟨ht, ho⟩) h).trans rfl

end

/-- Settles O37: the walk that ends at pseudo-EOF. -/
theorem decodeEmitsUntilPseudoEof : Obligations.DecodeEmitsUntilPseudoEof := by
  refine ⟨rfl, fun s ps q rest hready ht ho hroot hps hq hr => ?_⟩
  rw [exec_dec_terminated hready ht ho hroot hps hq hr]
  simp [State.decoded, State.emit, State.advance, setDone, ho, Nat.add_assoc]

/-- Settles O38: where the root is an internal node the payload ends at pseudo-EOF or is cut off
(`Tree.payload_split`); where it is a leaf the first bit is too many. -/
theorem decodeEndsInOneOfThreeWays : Obligations.DecodeEndsInOneOfThreeWays := by
  intro s hready ht ho
  cases hroot : s.tree.isNode with
  | true =>
    obtain ⟨ps, r, hps, hr, ⟨q, rest, hq, rfl⟩ | ⟨m, hm, hin⟩⟩ := Tree.payload_split hroot s.inp.rest
    · exact .inl ⟨rfl, ps, q, rest, hps, hq, hr, exec_dec_terminated hready ht ho hroot hps hq hr⟩
    · exact .inr (.inl ⟨rfl, ps, r, m, hps, hr, hm, hin, exec_dec_raise hready ht ho
        (decBody_truncated (s := setDone s false) hready.2 ho hroot hps hm hin hr)⟩)
  | false =>
    refine .inr (.inr ?_)
    cases hr : s.inp.rest with
    | nil =>
      have h := exec_dec_raise hready ht ho (decBody_end (s := setDone s false) hready.2 hr)
      exact .inl ⟨rfl, rfl, by simpa using h⟩
    | cons b rest =>
      have h := exec_dec_raise hready ht ho (decBody_bareLeaf (s := setDone s false) hready.2 hroot hr)
      exact .inr ⟨rfl, nofun, by simpa using h⟩

/-! ## The round trip -/

theorem Tree.unweighted_isNode (t : Tree) : t.unweighted.isNode = t.isNode := by cases t <;> rfl

/-- The weights are no matter of the paths (R25). -/
theorem Tree.unweighted_hasLeaf {t : Tree} {p : Bits} {x : Sym} : t.unweighted.HasLeaf p x ↔ t.HasLeaf p x := by
  induction t generalizing p with
  | leaf y w => rw [Tree.unweighted, Tree.hasLeaf_leaf, Tree.hasLeaf_leaf]
  | node l r w ihl ihr =>
    rw [Tree.unweighted]
    cases p with
    | nil => exact iff_of_false Tree.not_hasLeaf_nil Tree.not_hasLeaf_nil
    | cons b p =>
      rw [Tree.hasLeaf_cons, Tree.hasLeaf_cons]
      cases b
      · exact ihl
      · exact ihr

/-- `s` after `DCMP` has read the magic number and the header of `T` (R221). -/
def State.headerRead (s : State) (T : Tree) : State :=
  ((discardAll s).advance 32).begun.parsed T.serBits.length T.unweighted

/-- The body of `DCMP` up to its `FIN` on a container: the tree is stored without its weights and walked (R221). -/
theorem dcmpBody_container {s : State} {T : Tree} {ps : List (Bits × Sym)} {q rest : Bits} (hio : s.ioFail = [])
    (ho : s.out.closed = false) (hroot : T.isNode = true) (hps : WordPaths T ps) (hq : EofPath T q)
    (hfit : fitsNodes s.cfg T.nodes = true)
    (hr : s.inp.rest = bitsOf 32 s.cfg.magic.toNat ++ (T.serBits ++ (pathBits ps ++ (q ++ rest)))) :
    dcmpBody s = finBody .payloadDecode
      ((s.headerRead T).decoded (wordBits ps) ((pathBits ps).length + q.length)) := by
  have hmagic : rmgBody (discardAll s) = .ok () ((discardAll s).advance 32) := rmgBody_match (s := discardAll s) hio hr
  have hheader : ((discardAll s).advance 32).inp.rest = T.serBits ++ (pathBits ps ++ (q ++ rest)) :=
    State.advance_rest hr (bitsOf_length 32 _)
  have hdes : desBody ((discardAll s).advance 32) = .ok () (s.headerRead T) := by
    rcases desBody_serBits (s := (discardAll s).advance 32) hio hheader with ⟨-, hdes⟩ | ⟨hpast, -⟩
    · exact hdes
    · exact absurd hfit hpast
  have hps' : WordPaths T.unweighted ps := fun x hx => (hps x hx).imp_left Tree.unweighted_hasLeaf.2
  have hdec := decBody_terminated (s := s.headerRead T) hio ho (T.unweighted_isNode.trans hroot) hps'
    (Tree.unweighted_hasLeaf.2 hq) (State.advance_rest hheader rfl)
  rw [dcmpBody, hmagic, Res.bind_ok, hdes, Res.bind_ok, hdec, Res.bind_ok]

/-- Words are whole bytes (R203). -/
theorem wordBits_length (ps : List (Bits × Sym)) : (wordBits ps).length = 8 * ps.length := by
  induction ps with
  | nil => rfl
  | cons x ps ih =>
    rw [wordBits_cons, List.length_append, bitsOf_length, ih, List.length_cons]
    omega

/-- The state that `DCMP` leaves, given the tree, the words and the number of bits read (R221). -/
def State.decompressed (s : State) (T : Tree) (o : Bits) (n : Nat) : State :=
  { discardAll (s.advance n) with tree := T.unweighted, out := ⟨o, true⟩, done := true }

/-- `DCMP` of a container completes with the words of its payload, and reads nothing after the terminator (R205,
R221). -/
theorem exec_dcmp_container {s : State} {T : Tree} {ps : List (Bits × Sym)} {q rest : Bits} (hready : Ready s)
    (hout : s.out = ⟨[], false⟩) (hroot : T.isNode = true) (hps : WordPaths T ps) (hq : EofPath T q)
    (hfit : fitsNodes s.cfg T.nodes = true)
    (hr : s.inp.rest = bitsOf 32 s.cfg.magic.toNat ++ (T.serBits ++ (pathBits ps ++ (q ++ rest)))) :
    exec .dcmp s = .next
      (s.decompressed T (wordBits ps) (32 + T.serBits.length + (pathBits ps).length + q.length)) := by
  obtain ⟨he, hio⟩ := hready
  have ho : s.out.closed = false := by rw [hout]
  have hbody := dcmpBody_container (s := setDone s false) hio ho hroot hps hq hfit hr
  have hpad : padToByte (wordBits ps) = wordBits ps := padToByte_of_mod (by rw [wordBits_length, Nat.mul_mod_right])
  have hclose := hbody.trans (close_ok hio)
  refine (dispatch_ok he (outOpen_iff.2 ho) hclose).trans ?_
  simp [State.decompressed, State.decoded, State.headerRead, State.parsed, State.begun, State.emit, State.advance,
    discardAll, setDone, hout, hpad, Nat.add_assoc]

/-- The tree of a frequency table is a built tree, whatever the parameters (R147, R148). -/
theorem BuildsTo.builtTree {f : Vector Nat nsym} {T : Tree} (h : BuildsTo f T) (heof : 0 < freqAt f pseudoEof) :
    BuiltTree T := by
  obtain ⟨T', h', hT'⟩ := buildTree_fits (c := Config.suggested) (f := f) ⟨nofun, nofun⟩
  exact h.unique h' ▸ buildTree_built hT' heof

/-- A built tree fits every `NODE_CAP` that the spec allows (R6, R147). -/
theorem BuiltTree.fitsNodes {T : Tree} (h : BuiltTree T) {c : Config} (hcap : ∀ k, c.nodeCap = some k → 514 ≤ k) :
    fitsNodes c T.nodes = true := by
  have hnodes := T.nodes_leaves
  have hfew := h.few
  exact (fitsNodes_iff _ _).2 fun k hk => by have := hcap k hk; omega

/-- The paths of some words: their codes and their symbols (R96). -/
def wordPathsOf (c : Vector (Option Bits) nsym) (X : List Byte) : List (Bits × Sym) :=
  X.map fun b => ((codeAt c b.toNat).getD [], BitVec.ofNat symFieldW b.toNat)

theorem toNat_symbol (b : Byte) : (BitVec.ofNat symFieldW b.toNat).toNat = b.toNat :=
  Nat.mod_eq_of_lt (b.isLt.trans (by decide))

theorem pathBits_wordPathsOf (c : Vector (Option Bits) nsym) (X : List Byte) :
    pathBits (wordPathsOf c X) = payloadOf c X := List.flatMap_map ..

/-- The words emitted for the symbols of some words are these words (R203, R104). -/
theorem wordBits_wordPathsOf (c : Vector (Option Bits) nsym) (X : List Byte) :
    wordBits (wordPathsOf c X) = bitsOfBytes X := by
  rw [wordBits, wordPathsOf, List.flatMap_map, bitsOfBytes]
  simp only [toNat_symbol]
  rfl

/-- The codes that a compression writes are paths of words of its tree (R160). -/
theorem Compresses.wordPaths {X : List Byte} {f : Vector Nat nsym} {T : Tree} {c : Vector (Option Bits) nsym}
    {e : Bits} (h : Compresses X f T c e) : WordPaths T (wordPathsOf c X) := by
  intro x hx
  obtain ⟨b, hb, rfl⟩ := List.mem_map.1 hx
  obtain ⟨p, hp⟩ := Option.ne_none_iff_exists'.1 (h.words b hb)
  rw [hp, toNat_symbol]
  exact ⟨(h.codes b.toNat b.isLt.le p).1 hp, b.isLt.ne⟩

/-- The bytes that `CMP` writes, given as input: the container, then the padding (R68, R90). -/
theorem State.compressed_rest (s : State) (f : Vector Nat nsym) (T : Tree) (c : Vector (Option Bits) nsym) (e : Bits) :
    ∃ pad, InStream.rest ⟨(s.compressed f T c e).out.bytes, 0⟩ = bitsOf 32 s.cfg.magic.toNat ++
      (T.serBits ++ (pathBits (wordPathsOf c s.inp.data) ++ (e ++ pad))) := by
  refine ⟨List.replicate
    (padLen (bitsOf 32 s.cfg.magic.toNat ++ T.serBits ++ payloadOf c s.inp.data ++ e).length) false, ?_⟩
  rw [InStream.rest, List.drop_zero, OutStream.bytes, State.compressed, bitsOfBytes_bytesOfBits (padToByte_length_mod _),
    padToByte, pathBits_wordPathsOf]
  simp only [List.append_assoc]

/-- Settles O51: the codes that `CMP` writes are paths of words of the tree that `DCMP` reads, and the path of
pseudo-EOF follows them. -/
theorem decompressInvertsCompress : Obligations.DecompressInvertsCompress := by
  intro s X hready hinp hout hfit
  obtain rfl : s.inp.data = X := by rw [hinp]
  obtain ⟨f, T, c, e, hc, hcmp⟩ := exec_cmp_ok hready (by rw [hinp]) hout hfit
  have hbuilt : BuiltTree T := hc.builds.builtTree (hc.counts.2 ▸ Nat.one_pos)
  have hq : EofPath T e := (hc.codes pseudoEof le_rfl e).1 hc.eof
  obtain ⟨pad, hrest⟩ := s.compressed_rest f T c e
  have hdcmp := exec_dcmp_container
    (s := { s.compressed f T c e with inp := ⟨(s.compressed f T c e).out.bytes, 0⟩, out := ⟨[], false⟩ })
    hready rfl hbuilt.root hc.wordPaths hq (hbuilt.fitsNodes hfit.2) hrest
  exact ⟨_, hcmp, rfl, hready.1, rfl, _, hdcmp, rfl, hready.1, rfl,
    (congrArg bytesOfBits (wordBits_wordPathsOf c _)).trans (bytesOfBits_bitsOfBytes _)⟩

end Sys2Proof.Machine

/-! Composite commands and control (46_composite_and_control.md): what each command does with its precondition and with
the validity flags (R215 to R217), from the faults that its body can raise and the flags that its body leaves; then
`CLR` and the containers that `CMP` writes and `DCMP` reads. -/

namespace Sys2Proof.Machine

/-! ## The faults of a body -/

/-- The faults that the body of a command can raise, with their phases: those of 60_exceptions.md R236 and R249 but
`IllegalSequence` and `IllegalCommand`, which the dispatcher raises (R215). -/
def bodyFaults : List (ErrCode × Phase) :=
  [(.headerError, .headerValidation), (.truncatedStreamError, .treeParse), (.truncatedStreamError, .payloadDecode),
    (.malformedStructureError, .payloadDecode), (.absentCode, .payloadEncode), (.capacityError, .count),
    (.capacityError, .build), (.capacityError, .treeParse), (.ioError, .headerValidation), (.ioError, .treeParse),
    (.ioError, .payloadDecode), (.ioError, .count), (.ioError, .headerWrite), (.ioError, .payloadEncode)]

theorem ne_of_mem_bodyFaults {f : ErrCode} {p : Phase} (h : (f, p) ∈ bodyFaults) : f ≠ .none ∧ f ≠ .illegalSequence :=
  (by decide : ∀ x ∈ bodyFaults, x.1 ≠ .none ∧ x.1 ≠ .illegalSequence) (f, p) h

/-- Pieces in a row, the second begun in a state that the first one left. -/
theorem Res.Raises.bind_of_ok {α β : Type} {l : List (ErrCode × Phase)} {x : Res α} {k : α → State → Res β}
    (hx : x.Raises l) (hk : ∀ a s, x = .ok a s → (k a s).Raises l) : (x.bind k).Raises l := by
  intro f p t h
  rcases Res.bind_eq_raise h with h | ⟨a, s, hs, h⟩
  · exact hx _ _ _ h
  · exact hk a s hs _ _ _ h

/-- A loop whose rounds leave `I` where they go on raises what they raise in such states. -/
theorem loop_raises_while {I : State → Prop} {l : List (ErrCode × Phase)} {body : State → Res Bool}
    (hb : ∀ s, I s → (body s).Raises l) (hI : ∀ s t, body s = .ok true t → I t) (n : Nat) {s : State} (hs : I s) :
    (loop body n s).Raises l := by
  induction n generalizing s with
  | zero => exact .ok l () s
  | succ n ih =>
    rw [loop_succ]
    refine .bind_of_ok (hb s hs) fun more t ht => ?_
    cases more with
    | false => exact .ok l () t
    | true => exact ih (hI s t ht)

theorem bldBody_bodyFaults (s : State) : (bldBody s).Raises bodyFaults := by
  unfold bldBody
  split
  · exact .ok _ _ _
  · exact .raise (by decide)

theorem writeCode_bodyFaults (sym : Nat) (s : State) : (writeCode sym s).Raises bodyFaults := by
  unfold writeCode
  split
  · exact .raise (by decide)
  · exact (writeStr_raises _ _ s).mono (by decide)

theorem encRound_bodyFaults (s : State) : (encRound s).Raises bodyFaults := by
  refine .bind ((readBits_raises _ _ s).mono (by decide)) fun r t => ?_
  cases r with
  | none => exact .ok _ _ t
  | some w => exact .bind (writeCode_bodyFaults w t) fun _ u => .ok _ _ u

theorem encBody_bodyFaults (s : State) : (encBody s).Raises bodyFaults :=
  .bind ((rewind_raises _ s).mono (by decide)) fun _ t =>
    .bind (.loop encRound_bodyFaults _ t) fun _ u => .bind (writeCode_bodyFaults _ u) fun _ _ => .ok _ _ _

theorem fetchPayload_bodyFaults (s : State) : (fetchPayload s).Raises bodyFaults := by
  refine .bind ((readBits_raises _ _ s).mono (by decide)) fun r t => ?_
  cases r
  · exact .raise (by decide)
  · exact .ok _ _ t

theorem payMove_bodyFaults (b : Bool) (path : Bits) (s : State) : (payMove b path s).Raises bodyFaults := by
  unfold payMove
  split
  · split
    · exact .ok _ _ _
    · split
      · exact .ok _ _ _
      · exact .bind ((writeStr_raises _ _ s).mono (by decide)) fun _ t => .ok _ _ _
  · exact .raise (by decide)
  · exact .raise (by decide)

/-- In a walk a payload bit is a move: the precondition of `DEC` is not asked for again (R201; log 14). -/
theorem decRound_bodyFaults {s : State} (h : ∃ path, s.cur = some path) : (decRound s).Raises bodyFaults := by
  obtain ⟨path, hc⟩ := h
  refine .bind_of_ok (fetchPayload_bodyFaults s) fun b t ht => ?_
  obtain ⟨l, rfl⟩ := fetchPayload_eq_ok ht
  rw [payToken_walking (s := (s.advance 1).withPlan l) hc]
  exact payMove_bodyFaults _ path _

theorem decBody_bodyFaults (s : State) : (decBody s).Raises bodyFaults :=
  loop_raises_while (fun _ => decRound_bodyFaults) (fun _ _ h => (decRound_eq_ok h).2) _ ⟨[], rfl⟩

/-! ## The validity flags -/

/-- `FREQ_VALID`, `TREE_ST` and `CODE_VALID` (R217). -/
def State.flags (s : State) : Bool × TreeSt × Bool := (s.freqValid, s.treeSt, s.codeValid)

/-- The flags are as before. -/
def FlagsKept (s t : State) : Prop := t.flags = s.flags

theorem FlagsKept.trans {a b c : State} (h : FlagsKept a b) (k : FlagsKept b c) : FlagsKept a c := Eq.trans k h

theorem bind_flagsKept {α β : Type} {s : State} {x : Res α} {k : α → State → Res β} (hx : FlagsKept s x.state)
    (hk : ∀ a t, FlagsKept t (k a t).state) : FlagsKept s (x.bind k).state :=
  Res.bind_keeps (R := FlagsKept) .trans hx hk

theorem loop_flagsKept {body : State → Res Bool} (hb : ∀ s, FlagsKept s (body s).state) (n : Nat) (s : State) :
    FlagsKept s (loop body n s).state :=
  loop_keeps (R := FlagsKept) (fun _ => rfl) .trans hb n s

theorem access_flagsKept (p : Phase) (s : State) : FlagsKept s (access p s).state := by
  rcases access_cases p s with ⟨l, h⟩ | ⟨l, -, h⟩ <;> rw [h] <;> rfl

theorem readBits_flagsKept (p : Phase) (n : Nat) (s : State) : FlagsKept s (readBits p n s).state := by
  rcases readBits_cases p n s with ⟨l, h⟩ | ⟨l, h⟩ | ⟨l, -, h⟩ <;> rw [h] <;> rfl

theorem writeStr_flagsKept (p : Phase) (b : Bits) (s : State) : FlagsKept s (writeStr p b s).state :=
  bind_flagsKept (access_flagsKept p s) fun _ _ => rfl

theorem rewind_flagsKept (p : Phase) (s : State) : FlagsKept s (rewind p s).state :=
  bind_flagsKept (access_flagsKept p s) fun _ _ => rfl

theorem finBody_flagsKept (p : Phase) (s : State) : FlagsKept s (finBody p s).state :=
  bind_flagsKept (access_flagsKept p s) fun _ _ => rfl

theorem cntRound_flagsKept (s : State) : FlagsKept s (cntRound s).state := by
  refine bind_flagsKept (readBits_flagsKept _ _ s) fun r t => ?_
  cases r with
  | none => rfl
  | some w =>
    refine bind_flagsKept ?_ fun _ _ => rfl
    unfold countWord
    split <;> rfl

theorem putTree_flagsKept (T : Tree) (s : State) : FlagsKept s (putTree T s).state := by
  induction T generalizing s with
  | leaf x w => exact bind_flagsKept (writeStr_flagsKept _ _ s) fun _ t => writeStr_flagsKept _ _ t
  | node l r w ihl ihr =>
    exact bind_flagsKept (writeStr_flagsKept _ _ s) fun _ t => bind_flagsKept (ihl t) fun _ u => ihr u

theorem writeCode_flagsKept (sym : Nat) (s : State) : FlagsKept s (writeCode sym s).state := by
  unfold writeCode
  split
  · rfl
  · exact writeStr_flagsKept _ _ s

theorem encRound_flagsKept (s : State) : FlagsKept s (encRound s).state := by
  refine bind_flagsKept (readBits_flagsKept _ _ s) fun r t => ?_
  cases r with
  | none => rfl
  | some w => exact bind_flagsKept (writeCode_flagsKept w t) fun _ _ => rfl

theorem rmgBody_flagsKept (s : State) : FlagsKept s (rmgBody s).state := by
  refine bind_flagsKept (bind_flagsKept (readBits_flagsKept _ _ s) fun r t => ?_) fun m t =>
    bind_flagsKept ?_ fun _ _ => rfl
  · cases r <;> rfl
  · unfold magicToken
    split <;> rfl

theorem fetchHeader_flagsKept (s : State) : FlagsKept s (fetchHeader s).state := by
  refine bind_flagsKept (readBits_flagsKept _ _ s) fun r t => ?_
  cases r with
  | none => rfl
  | some m =>
    dsimp only
    split
    · rfl
    · refine bind_flagsKept (readBits_flagsKept _ _ t) fun r u => ?_
      cases r <;> rfl

theorem fetchPayload_flagsKept (s : State) : FlagsKept s (fetchPayload s).state := by
  refine bind_flagsKept (readBits_flagsKept _ _ s) fun r t => ?_
  cases r <;> rfl

/-! ### `DES` and `DEC` -/

/-- `FREQ_VALID` is as before, and a code table that was not valid still is not: what a parse keeps (R174). -/
def ParseKept (s t : State) : Prop := t.freqValid = s.freqValid ∧ (s.codeValid = false → t.codeValid = false)

theorem ParseKept.refl (s : State) : ParseKept s s := ⟨rfl, id⟩

theorem ParseKept.trans {a b c : State} (h : ParseKept a b) (k : ParseKept b c) : ParseKept a c :=
  ⟨k.1.trans h.1, fun hc => k.2 (h.2 hc)⟩

/-- `FREQ_VALID` and `CODE_VALID` are as before: what a walk keeps (R200; log 28). -/
def WalkKept (s t : State) : Prop := t.freqValid = s.freqValid ∧ t.codeValid = s.codeValid

theorem WalkKept.trans {a b c : State} (h : WalkKept a b) (k : WalkKept b c) : WalkKept a c :=
  ⟨k.1.trans h.1, k.2.trans h.2⟩

theorem FlagsKept.walkKept {s t : State} (h : FlagsKept s t) : WalkKept s t :=
  ⟨congrArg Prod.fst h, congrArg (·.2.2) h⟩

theorem WalkKept.parseKept {s t : State} (h : WalkKept s t) : ParseKept s t := ⟨h.1, h.2.trans⟩

theorem inParse_parseKept (s : State) : ParseKept s (inParse s) := by
  unfold inParse
  split
  · exact .refl s
  · exact ⟨rfl, fun _ => rfl⟩
  · exact ⟨rfl, fun _ => rfl⟩

theorem hdrIntToken_parseKept (s : State) : ParseKept s (hdrIntToken s).state := by
  unfold hdrIntToken
  split <;> exact inParse_parseKept s

theorem hdrLeafToken_parseKept (sym : Nat) (s : State) : ParseKept s (hdrLeafToken sym s).state := by
  unfold hdrLeafToken
  split
  · split <;> exact inParse_parseKept s
  · exact inParse_parseKept s

theorem desRound_parseKept (s : State) : ParseKept s (desRound s).state := by
  refine Res.bind_keeps (R := ParseKept) .trans (fetchHeader_flagsKept s).walkKept.parseKept fun mf t => ?_
  split
  · exact hdrIntToken_parseKept t
  · exact hdrLeafToken_parseKept _ t

theorem payMove_walkKept (b : Bool) (path : Bits) (s : State) : WalkKept s (payMove b path s).state := by
  unfold payMove
  split
  · split
    · exact ⟨rfl, rfl⟩
    · split
      · exact ⟨rfl, rfl⟩
      · exact Res.bind_keeps (R := WalkKept) .trans (writeStr_flagsKept _ _ s).walkKept fun _ _ => ⟨rfl, rfl⟩
  · exact ⟨rfl, rfl⟩
  · exact ⟨rfl, rfl⟩

theorem payToken_walkKept (b : Bool) (s : State) : WalkKept s (payToken b s).state := by
  unfold payToken
  split
  · exact payMove_walkKept b _ s
  · split
    · exact payMove_walkKept b [] { s with cur := some [] }
    · exact ⟨rfl, rfl⟩

theorem decRound_walkKept (s : State) : WalkKept s (decRound s).state :=
  Res.bind_keeps (R := WalkKept) .trans (fetchPayload_flagsKept s).walkKept fun _ t => payToken_walkKept _ t

/-! ### The bodies -/

theorem cntBody_flags {s t : State} (h : cntBody s = .ok () t) : t.flags = (true, .none, false) := by
  obtain ⟨_, u, hu, h⟩ := Res.bind_eq_ok h
  have hloop : u.flags = (false, .none, false) := Res.state_eq hu ▸ loop_flagsKept cntRound_flagsKept _ (startCount s)
  unfold countEof at h
  split at h <;> cases h
  exact congrArg (true, ·.2) hloop

theorem encBody_flags {s t : State} (h : encBody s = .ok () t) : t.flags = (s.freqValid, .none, false) := by
  obtain ⟨_, u₁, h₁, h⟩ := Res.bind_eq_ok h
  obtain ⟨_, u₂, h₂, h⟩ := Res.bind_eq_ok h
  obtain ⟨_, u₃, h₃, h⟩ := Res.bind_eq_ok h
  cases h
  have k₁ : FlagsKept s u₁ := Res.state_eq h₁ ▸ rewind_flagsKept _ s
  have k₂ : FlagsKept u₁ u₂ := Res.state_eq h₂ ▸ loop_flagsKept encRound_flagsKept _ u₁
  have k₃ : FlagsKept u₂ u₃ := Res.state_eq h₃ ▸ writeCode_flagsKept _ u₂
  exact congrArg (·.1, TreeSt.none, false) ((k₁.trans k₂).trans k₃)

theorem desBody_flags {s t : State} (h : desBody s = .ok () t) : t.flags = (s.freqValid, .parsed, false) := by
  have hkept : ParseKept (beginParse s) t :=
    Res.state_eq h ▸ loop_keeps (R := ParseKept) .refl .trans desRound_parseKept _ (beginParse s)
  rw [State.flags, hkept.1, hkept.2 rfl, desBody_treeSt h, beginParse_freqValid]

theorem decBody_flags {s t : State} (h : decBody s = .ok () t) : t.flags = (s.freqValid, .none, s.codeValid) := by
  have hkept : WalkKept s t :=
    Res.state_eq h ▸
      loop_keeps (R := WalkKept) (fun _ => ⟨rfl, rfl⟩) .trans decRound_walkKept _ { s with cur := some [] }
  rw [State.flags, hkept.1, hkept.2, (decBody_eq_ok h).2]

/-! ## The commands -/

/-- What a command is made of: its precondition is that of R216, its body raises the faults of a body, and where it
reaches its end the flags are those of R217. -/
structure CommandBody (i : Instr) (pre : State → Bool) (body : State → Res Unit) : Prop where
  exec : ∀ s, exec i s = dispatch pre body s
  pre : ∀ s, pre s = true ↔ Precondition i s
  raises : ∀ s, (body s).Raises bodyFaults
  completes : ∀ s t, body s = .ok () t → t.err = s.err ∧ t.flags = flagsAfter i s

theorem Keeps.err_of_ok {α : Type} {s t : State} {x : Res α} {a : α} (hk : Keeps s x.state) (h : x = .ok a t) :
    t.err = s.err := (Res.state_eq h ▸ hk).err

theorem cnt_commandBody : CommandBody .cnt preCnt cntBody where
  exec _ := rfl
  pre s := by simp [preCnt, Precondition]
  raises s := (cntBody_raises s).mono (by decide)
  completes s _ h := ⟨(cntBody_keeps s).err_of_ok h, cntBody_flags h⟩

theorem bld_commandBody : CommandBody .bld preBld bldBody where
  exec _ := rfl
  pre _ := Iff.rfl
  raises := bldBody_bodyFaults
  completes s t h := by
    obtain ⟨T, -, rfl⟩ := bldBody_eq_ok h
    exact ⟨rfl, rfl⟩

theorem gen_commandBody : CommandBody .gen preGen genBody where
  exec _ := rfl
  pre s := by simp [preGen, Precondition]
  raises _ := .ok _ _ _
  completes s t h := by
    cases h
    exact ⟨rfl, rfl⟩

theorem wmg_commandBody : CommandBody .wmg preWmg wmgBody where
  exec _ := rfl
  pre _ := outOpen_iff
  raises s := (writeStr_raises _ _ s).mono (by decide)
  completes s _ h := ⟨(wmgBody_keeps s).err_of_ok h, Res.state_eq h ▸ writeStr_flagsKept _ _ s⟩

theorem ser_commandBody : CommandBody .ser preSer serBody where
  exec _ := rfl
  pre s := by simp [preSer, hasTree_iff, outOpen_iff, Precondition]
  raises s := (putTree_raises _ s).mono (by decide)
  completes s _ h := ⟨(serBody_keeps s).err_of_ok h, Res.state_eq h ▸ putTree_flagsKept _ s⟩

theorem enc_commandBody : CommandBody .enc preEnc encBody where
  exec _ := rfl
  pre _ := preEnc_iff
  raises := encBody_bodyFaults
  completes s _ h := ⟨(encBody_keeps s).err_of_ok h, encBody_flags h⟩

/-- `Close` keeps the fault and the flags, in whichever phase (R217, R249). -/
theorem finBody_completes {p : Phase} {s t : State} (h : finBody p s = .ok () t) :
    t.err = s.err ∧ t.flags = s.flags := by
  rcases finBody_cases p s with ⟨l, e⟩ | ⟨l, e⟩ <;> cases e.symm.trans h
  exact ⟨rfl, rfl⟩

theorem fin_commandBody : CommandBody .fin preFin (finBody .payloadEncode) where
  exec _ := rfl
  pre _ := outOpen_iff
  raises s := (close_raises _ s).mono (by decide)
  completes _ _ := finBody_completes

theorem rmg_commandBody : CommandBody .rmg preRmg rmgBody where
  exec _ := rfl
  pre s := by simp [preRmg, Precondition]
  raises s := (rmgBody_raises s).mono (by decide)
  completes s _ h := ⟨(rmgBody_keeps s).err_of_ok h, Res.state_eq h ▸ rmgBody_flagsKept s⟩

theorem des_commandBody : CommandBody .des preDes desBody where
  exec _ := rfl
  pre s := by simp [preDes, Precondition]
  raises s := (desBody_raises s).mono (by decide)
  completes s _ h := ⟨(desBody_keeps s).err_of_ok h, desBody_flags h⟩

theorem dec_commandBody : CommandBody .dec preDec decBody where
  exec _ := rfl
  pre _ := preDec_iff
  raises := decBody_bodyFaults
  completes s _ h := ⟨(decBody_keeps s).err_of_ok h, decBody_flags h⟩

/-- `CMP`: the flags stage by stage. `BLD` clears `FREQ_VALID`, no later stage sets it, and `ENC` clears the rest
(R217, R220). -/
theorem cmp_commandBody : CommandBody .cmp preCmp cmpBody where
  exec _ := rfl
  pre _ := outOpen_iff
  raises s :=
    .bind (cnt_commandBody.raises _) fun _ s₁ => .bind (bld_commandBody.raises s₁) fun _ s₂ =>
      .bind (gen_commandBody.raises s₂) fun _ s₃ => .bind (wmg_commandBody.raises s₃) fun _ s₄ =>
        .bind (ser_commandBody.raises s₄) fun _ s₅ => .bind (enc_commandBody.raises s₅) fun _ s₆ =>
          fin_commandBody.raises s₆
  completes s t h := by
    obtain ⟨_, s₁, h₁, h⟩ := Res.bind_eq_ok h
    obtain ⟨_, s₂, h₂, h⟩ := Res.bind_eq_ok h
    obtain ⟨_, s₃, h₃, h⟩ := Res.bind_eq_ok h
    obtain ⟨_, s₄, h₄, h⟩ := Res.bind_eq_ok h
    obtain ⟨_, s₅, h₅, h⟩ := Res.bind_eq_ok h
    obtain ⟨_, s₆, h₆, h⟩ := Res.bind_eq_ok h
    obtain ⟨e₁, -⟩ := cnt_commandBody.completes _ _ h₁
    obtain ⟨e₂, f₂⟩ := bld_commandBody.completes _ _ h₂
    obtain ⟨e₃, f₃⟩ := gen_commandBody.completes _ _ h₃
    obtain ⟨e₄, f₄⟩ := wmg_commandBody.completes _ _ h₄
    obtain ⟨e₅, f₅⟩ := ser_commandBody.completes _ _ h₅
    obtain ⟨e₆, f₆⟩ := enc_commandBody.completes _ _ h₆
    obtain ⟨e₇, f₇⟩ := finBody_completes h
    have hfreq : s₅.freqValid = false :=
      calc s₅.freqValid
        _ = s₂.freqValid := congrArg Prod.fst (f₅.trans (f₄.trans f₃))
        _ = false := congrArg Prod.fst f₂
    have hflags : flagsAfter .enc s₅ = flagsAfter .cmp s := congrArg (·, TreeSt.none, false) hfreq
    exact ⟨by rw [e₇, e₆, e₅, e₄, e₃, e₂, e₁, discardAll_err], f₇.trans (f₆.trans hflags)⟩

/-- `DCMP`: it begins with every flag clear, `DES` sets `TREE_ST` and `DEC` clears it again (R217, R221). -/
theorem dcmp_commandBody : CommandBody .dcmp preDcmp dcmpBody where
  exec _ := rfl
  pre _ := outOpen_iff
  raises s :=
    .bind (rmg_commandBody.raises _) fun _ s₁ => .bind (des_commandBody.raises s₁) fun _ s₂ =>
      .bind (dec_commandBody.raises s₂) fun _ s₃ => (close_raises _ s₃).mono (by decide)
  completes s t h := by
    obtain ⟨_, s₁, h₁, h⟩ := Res.bind_eq_ok h
    obtain ⟨_, s₂, h₂, h⟩ := Res.bind_eq_ok h
    obtain ⟨_, s₃, h₃, h⟩ := Res.bind_eq_ok h
    obtain ⟨e₁, f₁⟩ := rmg_commandBody.completes _ _ h₁
    obtain ⟨e₂, f₂⟩ := des_commandBody.completes _ _ h₂
    obtain ⟨e₃, f₃⟩ := dec_commandBody.completes _ _ h₃
    obtain ⟨e₄, f₄⟩ := finBody_completes h
    have hfreq : s₁.freqValid = false := congrArg Prod.fst f₁
    have hparsed : s₂.flags = (false, .parsed, false) := f₂.trans (congrArg (·, TreeSt.parsed, false) hfreq)
    have hflags : flagsAfter .dec s₂ = flagsAfter .dcmp s := congrArg (fun x => (x.1, TreeSt.none, x.2.2)) hparsed
    exact ⟨by rw [e₄, e₃, e₂, e₁, discardAll_err], f₄.trans (f₃.trans hflags)⟩

/-! ## How a command ends -/

/-- The three ways in which a command ends on an engine that is not faulted: its precondition does not hold, it raises
another fault, or it completes (R215 to R217). -/
inductive CommandEnd (i : Instr) (s : State) : State → Prop where
  | illegal (hp : ¬ Precondition i s) : CommandEnd i s (s.faultedWith .illegalSequence .none)
  | raised (u : State) (f : ErrCode) (p : Phase) (hp : Precondition i s) (hf : f ≠ .none ∧ f ≠ .illegalSequence) :
    CommandEnd i s (u.faultedWith f p)
  | completed (t : State) (hp : Precondition i s) (he : t.err = .none) (hflags : t.flags = flagsAfter i s) :
    CommandEnd i s t

theorem flagsAfter_setDone (i : Instr) (s : State) (b : Bool) : flagsAfter i (setDone s b) = flagsAfter i s := by
  cases i <;> rfl

section
variable {i : Instr} {s : State}

theorem CommandBody.commandEnd {pre : State → Bool} {body : State → Res Unit} (h : CommandBody i pre body)
    (he : s.err = .none) : ∃ t, Machine.exec i s = .next t ∧ CommandEnd i s t := by
  rw [h.exec]
  rcases dispatch_cases pre body s with ⟨hne, -⟩ | ⟨-, hp, e⟩ | ⟨-, hp, ⟨u, hu, e⟩ | ⟨f, p, u, hu, e⟩⟩
  · exact absurd he hne
  · exact ⟨_, e, .illegal fun hpre => by simp [(h.pre s).2 hpre] at hp⟩
  · obtain ⟨herr, hflags⟩ := h.completes _ _ hu
    exact ⟨_, e, .completed _ ((h.pre s).1 hp) (herr.trans he) (hflags.trans (flagsAfter_setDone i s false))⟩
  · exact ⟨_, e, .raised u f p ((h.pre s).1 hp) (ne_of_mem_bodyFaults (h.raises _ _ _ _ hu))⟩

/-- Everything a command can do on an engine that is not faulted. -/
theorem exec_commandEnd (hi : i.space = .command) (he : s.err = .none) :
    ∃ t, exec i s = .next t ∧ CommandEnd i s t := by
  cases i with
  | cnt => exact cnt_commandBody.commandEnd he
  | bld => exact bld_commandBody.commandEnd he
  | gen => exact gen_commandBody.commandEnd he
  | wmg => exact wmg_commandBody.commandEnd he
  | ser => exact ser_commandBody.commandEnd he
  | enc => exact enc_commandBody.commandEnd he
  | fin => exact fin_commandBody.commandEnd he
  | rmg => exact rmg_commandBody.commandEnd he
  | des => exact des_commandBody.commandEnd he
  | dec => exact dec_commandBody.commandEnd he
  | cmp => exact cmp_commandBody.commandEnd he
  | dcmp => exact dcmp_commandBody.commandEnd he
  | reserved0 | reserved13 | reserved14 =>
    exact ⟨_, dispatchReserved_illegal he, .raised s .illegalCommand .none trivial (by decide)⟩
  | clr => exact ⟨_, rfl, .completed (clearFault s) trivial rfl rfl⟩
  | magic | hdrInt | hdrLeaf | payL | payR => cases hi

end

/-- Settles O12: the dispatcher raises `IllegalSequence` where the precondition fails, and no body raises it. -/
theorem failedPreconditionIsIllegalSequence : Obligations.FailedPreconditionIsIllegalSequence := by
  intro i s hi he
  obtain ⟨t, ht, hend⟩ := exec_commandEnd hi he
  refine ⟨fun hp => ?_, fun hp t' ht' => ?_⟩
  · cases hend with
    | illegal => exact ht
    | raised _ _ _ hp' => exact absurd hp' hp
    | completed _ hp' => exact absurd hp' hp
  · obtain rfl := Host.Outcome.next.inj (ht.symm.trans ht')
    cases hend with
    | illegal hp' => exact absurd hp hp'
    | raised _ _ _ _ hf => exact hf.2
    | completed _ _ herr => simp [herr]

/-- The flags after a command are those of its row where it completed, and cleared where it raised a fault (R217). -/
theorem CommandEnd.flags {i : Instr} {s t : State} (h : CommandEnd i s t) :
    (t.err = .none → t.flags = flagsAfter i s) ∧ (t.err ≠ .none → t.flags = (false, .none, false)) := by
  cases h with
  | illegal => exact ⟨nofun, fun _ => rfl⟩
  | raised u f p _ hf => exact ⟨fun he => absurd he hf.1, fun _ => rfl⟩
  | completed t _ he hflags => exact ⟨fun _ => hflags, fun hne => absurd he hne⟩

/-- Settles O13: the ends of a command; `CLR` and the host's reset clear the flags in every state. -/
theorem flagsAfterEachCommand : Obligations.FlagsAfterEachCommand := by
  refine ⟨fun i s t hi ht hs => ?_, fun s rest hb hh => ⟨_, step_between hb hh, rfl⟩⟩
  rcases hs with he | rfl
  · obtain ⟨t', ht', hend⟩ := exec_commandEnd hi he
    obtain rfl := Host.Outcome.next.inj (ht'.symm.trans ht)
    exact hend.flags
  · obtain rfl := Host.Outcome.next.inj ht
    exact ⟨fun _ => rfl, fun hne => absurd rfl hne⟩

/-! ## `CLR` and the containers -/

/-- Settles O9: `CLR` has no precondition, and a faulted engine takes it too. -/
theorem clearResetsFlagsAndFault : Obligations.ClearResetsFlagsAndFault := ⟨rfl, fun _ => rfl⟩

/-- Settles O48: the tables and codes of the compression are those that `CMP` made. -/
theorem compressWritesTheContainer : Obligations.CompressWritesTheContainer := by
  intro s X hready hinp hout hfit
  obtain rfl : s.inp.data = X := by rw [hinp]
  obtain ⟨f, T, c, e, hc, hcmp⟩ := exec_cmp_ok hready (by rw [hinp]) hout hfit
  exact ⟨f, T, c, e, hc.counts, hc.builds, hc.codes, hc.words, hc.eof, hcmp⟩

/-- Settles O50: the reading of the container, with its position summed stage by stage. -/
theorem decompressReadsTheContainer : Obligations.DecompressReadsTheContainer := by
  intro s T ps q rest hready hout hroot hps hq hcap hr
  have hdcmp := exec_dcmp_container hready hout hroot hps hq ((fitsNodes_iff _ _).2 hcap) hr
  simpa only [State.decompressed, State.advance, discardAll, Nat.add_assoc] using hdcmp

end Sys2Proof.Machine

/-! Family `60_exceptions.md`: which faults an instruction takes, in which phases, and what taking one leaves (R236,
R240 to R243, R249). -/

namespace Sys2Proof.Machine

/-! ## Refusal -/

/-- Settles O11: a refusal sets the history mark and nothing else. -/
theorem faultedEngineRefusesAllButClear : Obligations.FaultedEngineRefusesAllButClear :=
  fun _ _ _ hi he => exec_faulted hi he

/-! ## The output where a body raises a fault -/

/-- Where this piece of a body raises a fault, the output is closed exactly if it was in `s` (R241). -/
def RaiseKeepsClosed {α : Type} (s : State) (x : Res α) : Prop :=
  ∀ f p t, x = .raise f p t → t.out.closed = s.out.closed

theorem Keeps.raiseKeepsClosed {α : Type} {s : State} {x : Res α} (h : Keeps s x.state) : RaiseKeepsClosed s x := by
  rintro f p t rfl
  exact h.out.closed

/-- `Close` is an access that closes the output only where it does not fail (R68, R78). -/
theorem finBody_raiseKeepsClosed (p : Phase) (s : State) : RaiseKeepsClosed s (finBody p s) := by
  intro f q t h
  rcases finBody_cases p s with ⟨l, e⟩ | ⟨l, e⟩ <;> cases e.symm.trans h
  rfl

/-- A piece that never closes the output, before one that may. -/
theorem Keeps.bind_raiseKeepsClosed {α β : Type} {s : State} {x : Res α} {k : α → State → Res β}
    (hx : Keeps s x.state) (hk : ∀ a t, RaiseKeepsClosed t (k a t)) : RaiseKeepsClosed s (x.bind k) := by
  cases x with
  | ok a t => exact fun f p u h => (hk a t f p u h).trans hx.out.closed
  | raise f p t =>
    rw [Res.bind_raise]
    exact Keeps.raiseKeepsClosed (x := .raise f p t) hx

theorem cmpBody_raiseKeepsClosed (s : State) : RaiseKeepsClosed s (cmpBody s) :=
  (cntBody_keeps (discardAll s)).bind_raiseKeepsClosed fun _ s₁ =>
    (bldBody_keeps s₁).bind_raiseKeepsClosed fun _ s₂ =>
      (genBody_keeps s₂).bind_raiseKeepsClosed fun _ s₃ =>
        (wmgBody_keeps s₃).bind_raiseKeepsClosed fun _ s₄ =>
          (serBody_keeps s₄).bind_raiseKeepsClosed fun _ s₅ =>
            (encBody_keeps s₅).bind_raiseKeepsClosed fun _ s₆ => finBody_raiseKeepsClosed _ s₆

theorem dcmpBody_raiseKeepsClosed (s : State) : RaiseKeepsClosed s (dcmpBody s) :=
  (rmgBody_keeps (discardAll s)).bind_raiseKeepsClosed fun _ s₁ =>
    (desBody_keeps s₁).bind_raiseKeepsClosed fun _ s₂ =>
      (decBody_keeps s₂).bind_raiseKeepsClosed fun _ s₃ => finBody_raiseKeepsClosed _ s₃

/-! ## Taking a fault -/

/-- The faults of the stages of `CMP` are faults of `CMP` (R220, R236). -/
theorem cmpBody_raises (s : State) : (cmpBody s).Raises (faultsOf .cmp) :=
  .bind ((cntBody_raises _).mono (by decide)) fun _ s₁ =>
    .bind ((bldBody_raises s₁).mono (by decide)) fun _ s₂ =>
      .bind ((genBody_raises s₂).mono (by decide)) fun _ s₃ =>
        .bind ((wmgBody_raises s₃).mono (by decide)) fun _ s₄ =>
          .bind ((serBody_raises s₄).mono (by decide)) fun _ s₅ =>
            .bind ((encBody_raises s₅).mono (by decide)) fun _ s₆ => (close_raises _ s₆).mono (by decide)

/-- A command whose precondition can fail lists `IllegalSequence` (R216, R236). -/
theorem illegalSequence_mem_faultsOf {i : Instr} {s : State} (h : ¬ Precondition i s) :
    (.illegalSequence, .none) ∈ faultsOf i := by
  cases i with
  | bld | gen | wmg | ser | enc | fin | dec | cmp | dcmp => simp [faultsOf]
  | cnt | rmg | des | clr | reserved0 | reserved13 | reserved14 => exact absurd trivial h
  | magic | hdrInt | hdrLeaf | payL | payR => exact absurd trivial h

/-- A faulted state that an instruction answers: one of its own faults, taken in a state where the output is closed
exactly if it was before (R236, R240, R241). -/
inductive FaultEntry (i : Instr) (s : State) : State → Prop where
  | intro (u : State) (f : ErrCode) (p : Phase) (hf : (f, p) ∈ faultsOf i) (ho : u.out.closed = s.out.closed) :
    FaultEntry i s (u.faultedWith f p)

section
variable {i : Instr} {s t : State}

/-- A command takes the fault of its precondition or one of its body. -/
theorem CommandBody.faultEntry {pre : State → Bool} {body : State → Res Unit} (h : CommandBody i pre body)
    (hraises : ∀ s, (body s).Raises (faultsOf i)) (hclosed : ∀ s, RaiseKeepsClosed s (body s))
    (hexec : Machine.exec i s = .next t) (he : s.err = .none) (ht : t.err ≠ .none) : FaultEntry i s t := by
  rw [h.exec] at hexec
  rcases dispatch_cases pre body s with ⟨hne, -⟩ | ⟨-, hp, e⟩ | ⟨-, -, ⟨u, hu, e⟩ | ⟨f, p, u, hu, e⟩⟩
  · exact absurd he hne
  · obtain rfl := Host.Outcome.next.inj (e.symm.trans hexec)
    have hpre : ¬ Precondition i s := fun hpre => by simp [(h.pre s).2 hpre] at hp
    exact .intro s _ _ (illegalSequence_mem_faultsOf hpre) rfl
  · obtain rfl := Host.Outcome.next.inj (e.symm.trans hexec)
    exact absurd ((h.completes _ _ hu).1.trans he) ht
  · obtain rfl := Host.Outcome.next.inj (e.symm.trans hexec)
    exact .intro u f p (hraises _ _ _ _ hu) (hclosed (setDone s false) f p u hu)

/-- A token takes a fault of the step it is. -/
theorem takeToken_faultEntry {token : State → Res Bool} (hraises : ∀ s, (token s).Raises (faultsOf i))
    (hkeeps : ∀ s, Keeps s (token s).state) (hexec : takeToken token s = .next t) (he : s.err = .none)
    (ht : t.err ≠ .none) : FaultEntry i s t := by
  rcases takeToken_cases token s with ⟨hne, -⟩ | ⟨-, ⟨more, u, hu, e⟩ | ⟨f, p, u, hu, e⟩⟩
  · exact absurd he hne
  · obtain rfl := Host.Outcome.next.inj (e.symm.trans hexec)
    exact absurd (((hkeeps _).err_of_ok hu).trans he) ht
  · obtain rfl := Host.Outcome.next.inj (e.symm.trans hexec)
    exact .intro u f p (hraises _ _ _ _ hu) ((hkeeps (setDone s false)).raiseKeepsClosed f p u hu)

/-- A reserved code takes `IllegalCommand` (R111). -/
theorem dispatchReserved_faultEntry (hf : (.illegalCommand, .none) ∈ faultsOf i)
    (hexec : dispatchReserved s = .next t) (he : s.err = .none) : FaultEntry i s t := by
  obtain rfl := Host.Outcome.next.inj ((dispatchReserved_illegal he).symm.trans hexec)
  exact .intro s _ _ hf rfl

/-- Every fault of the engine is taken in the one way (R240). -/
theorem exec_faultEntry (hexec : exec i s = .next t) (he : s.err = .none) (ht : t.err ≠ .none) :
    FaultEntry i s t := by
  cases i with
  | cnt => exact cnt_commandBody.faultEntry cntBody_raises (fun s => (cntBody_keeps s).raiseKeepsClosed) hexec he ht
  | bld => exact bld_commandBody.faultEntry bldBody_raises (fun s => (bldBody_keeps s).raiseKeepsClosed) hexec he ht
  | gen => exact gen_commandBody.faultEntry genBody_raises (fun s => (genBody_keeps s).raiseKeepsClosed) hexec he ht
  | wmg => exact wmg_commandBody.faultEntry wmgBody_raises (fun s => (wmgBody_keeps s).raiseKeepsClosed) hexec he ht
  | ser => exact ser_commandBody.faultEntry serBody_raises (fun s => (serBody_keeps s).raiseKeepsClosed) hexec he ht
  | enc => exact enc_commandBody.faultEntry encBody_raises (fun s => (encBody_keeps s).raiseKeepsClosed) hexec he ht
  | fin =>
    exact fin_commandBody.faultEntry (fun s => (close_raises _ s).mono (by decide)) (finBody_raiseKeepsClosed _)
      hexec he ht
  | rmg => exact rmg_commandBody.faultEntry rmgBody_raises (fun s => (rmgBody_keeps s).raiseKeepsClosed) hexec he ht
  | des => exact des_commandBody.faultEntry desBody_raises (fun s => (desBody_keeps s).raiseKeepsClosed) hexec he ht
  | dec => exact dec_commandBody.faultEntry decBody_raises (fun s => (decBody_keeps s).raiseKeepsClosed) hexec he ht
  | cmp => exact cmp_commandBody.faultEntry cmpBody_raises cmpBody_raiseKeepsClosed hexec he ht
  | dcmp => exact dcmp_commandBody.faultEntry dcmpBody_raises dcmpBody_raiseKeepsClosed hexec he ht
  | reserved0 | reserved13 | reserved14 => exact dispatchReserved_faultEntry (by decide) hexec he
  | clr =>
    obtain rfl := Host.Outcome.next.inj hexec
    exact absurd rfl ht
  | magic m => exact takeToken_faultEntry (magicToken_raises m) (magicToken_keeps m) hexec he ht
  | hdrInt => exact takeToken_faultEntry hdrIntToken_raises hdrIntToken_keeps hexec he ht
  | hdrLeaf sym => exact takeToken_faultEntry (hdrLeafToken_raises sym) (hdrLeafToken_keeps sym) hexec he ht
  | payL => exact takeToken_faultEntry (payToken_raises false) (payToken_keeps false) hexec he ht
  | payR => exact takeToken_faultEntry (payToken_raises true) (payToken_keeps true) hexec he ht

/-- The phases of an instruction's faults are phases those faults can carry (R236, R249). -/
theorem phase_mem_phasesOf {f : ErrCode} {p : Phase} (h : (f, p) ∈ faultsOf i) : p ∈ phasesOf f := by
  have hall : ∀ x ∈ faultsOf i, x.2 ∈ phasesOf x.1 := by cases i <;> simp [faultsOf, phasesOf]
  exact hall _ h

end

/-- Settles O15: the faults of a body are among those of its instruction, and so are the dispatcher's. -/
theorem faultsAndPhasesOfEachInstruction : Obligations.FaultsAndPhasesOfEachInstruction := by
  intro i s t hexec he ht
  obtain ⟨u, f, p, hf, -⟩ := exec_faultEntry hexec he ht
  exact hf

/-- Settles O14: a fault clears the engine's part of the state, and no body raises one after it closed the output. -/
theorem faultEntryClearsTheEngine : Obligations.FaultEntryClearsTheEngine := by
  intro i s t hexec he ht
  obtain ⟨u, f, p, hf, ho⟩ := exec_faultEntry hexec he ht
  exact ⟨rfl, rfl, rfl, rfl, rfl, rfl, rfl, ho, phase_mem_phasesOf hf⟩

end Sys2Proof.Machine

/-! Family `70_reset_and_hazards.md`: how every instruction ends (R283), the host's actions between commands (R270,
R273), and what runs leave of the history mark (R278). -/

namespace Sys2Proof.Machine

/-! ## What of a container is being read -/

/-- What of a container the engine is in the middle of reading, and where a walk stands (R29, R39 (b)). -/
def State.reading (s : State) : Scan × Option Bits := (s.scan, s.cur)

/-- The engine is where it was in the container it reads. -/
def ReadingKept (s t : State) : Prop := t.reading = s.reading

/-- No container is being read (R35). -/
def NotReading (s : State) : Prop := s.reading = (.idle, none)

theorem NotReading.intro {s : State} (hscan : s.scan = .idle) (hcur : s.cur = none) : NotReading s :=
  Prod.ext hscan hcur

theorem NotReading.scan {s : State} (h : NotReading s) : s.scan = .idle := congrArg Prod.fst h

theorem NotReading.cur {s : State} (h : NotReading s) : s.cur = none := congrArg Prod.snd h

/-- No walk moves: what a parse keeps (R174). -/
def CurKept (s t : State) : Prop := t.cur = s.cur

theorem CurKept.trans {a b c : State} (h : CurKept a b) (k : CurKept b c) : CurKept a c := Eq.trans k h

/-- No parse moves: what a walk keeps (R200). -/
def ScanKept (s t : State) : Prop := t.scan = s.scan

theorem ScanKept.trans {a b c : State} (h : ScanKept a b) (k : ScanKept b c) : ScanKept a c := Eq.trans k h

theorem ReadingKept.curKept {s t : State} (h : ReadingKept s t) : CurKept s t := congrArg Prod.snd h

theorem ReadingKept.scanKept {s t : State} (h : ReadingKept s t) : ScanKept s t := congrArg Prod.fst h

theorem ReadingKept.trans {a b c : State} (h : ReadingKept a b) (k : ReadingKept b c) : ReadingKept a c := Eq.trans k h

theorem bind_readingKept {α β : Type} {s : State} {x : Res α} {k : α → State → Res β} (hx : ReadingKept s x.state)
    (hk : ∀ a t, ReadingKept t (k a t).state) : ReadingKept s (x.bind k).state :=
  Res.bind_keeps (R := ReadingKept) .trans hx hk

theorem loop_readingKept {body : State → Res Bool} (hb : ∀ s, ReadingKept s (body s).state) (n : Nat) (s : State) :
    ReadingKept s (loop body n s).state :=
  loop_keeps (R := ReadingKept) (fun _ => rfl) .trans hb n s

/-! ### The accesses and the pieces made of them -/

theorem readBits_readingKept (p : Phase) (n : Nat) (s : State) : ReadingKept s (readBits p n s).state := by
  rcases readBits_cases p n s with ⟨l, h⟩ | ⟨l, h⟩ | ⟨l, -, h⟩ <;> rw [h] <;> rfl

theorem writeStr_readingKept (p : Phase) (b : Bits) (s : State) : ReadingKept s (writeStr p b s).state := by
  rcases writeStr_cases p b s with ⟨l, h⟩ | ⟨l, h⟩ <;> rw [h] <;> rfl

theorem rewind_readingKept (p : Phase) (s : State) : ReadingKept s (rewind p s).state := by
  rw [rewind]
  rcases access_cases p s with ⟨l, h⟩ | ⟨l, -, h⟩ <;> rw [h] <;> rfl

theorem cntRound_readingKept (s : State) : ReadingKept s (cntRound s).state := by
  refine bind_readingKept (readBits_readingKept _ _ s) fun r t => ?_
  cases r with
  | none => rfl
  | some w =>
    refine bind_readingKept ?_ fun _ _ => rfl
    unfold countWord
    split <;> rfl

theorem cntBody_readingKept (s : State) : ReadingKept s (cntBody s).state := by
  refine bind_readingKept (loop_readingKept cntRound_readingKept _ (startCount s)) fun _ t => ?_
  unfold countEof
  split <;> rfl

theorem bldBody_readingKept (s : State) : ReadingKept s (bldBody s).state := by
  unfold bldBody
  split <;> rfl

theorem putTree_readingKept (T : Tree) (s : State) : ReadingKept s (putTree T s).state := by
  induction T generalizing s with
  | leaf x w => exact bind_readingKept (writeStr_readingKept _ _ s) fun _ t => writeStr_readingKept _ _ t
  | node l r w ihl ihr =>
    exact bind_readingKept (writeStr_readingKept _ _ s) fun _ t => bind_readingKept (ihl t) fun _ u => ihr u

theorem writeCode_readingKept (sym : Nat) (s : State) : ReadingKept s (writeCode sym s).state := by
  unfold writeCode
  split
  · rfl
  · exact writeStr_readingKept _ _ s

theorem encRound_readingKept (s : State) : ReadingKept s (encRound s).state := by
  refine bind_readingKept (readBits_readingKept _ _ s) fun r t => ?_
  cases r with
  | none => rfl
  | some w => exact bind_readingKept (writeCode_readingKept w t) fun _ _ => rfl

theorem encBody_readingKept (s : State) : ReadingKept s (encBody s).state :=
  bind_readingKept (rewind_readingKept _ s) fun _ t =>
    bind_readingKept (loop_readingKept encRound_readingKept _ t) fun _ u =>
      bind_readingKept (writeCode_readingKept _ u) fun _ _ => rfl

theorem fetchMagic_readingKept (s : State) : ReadingKept s (fetchMagic s).state := by
  refine bind_readingKept (readBits_readingKept _ _ s) fun r t => ?_
  cases r <;> rfl

theorem fetchHeader_readingKept (s : State) : ReadingKept s (fetchHeader s).state := by
  refine bind_readingKept (readBits_readingKept _ _ s) fun r t => ?_
  cases r with
  | none => rfl
  | some m =>
    dsimp only
    split
    · rfl
    · refine bind_readingKept (readBits_readingKept _ _ t) fun r u => ?_
      cases r <;> rfl

theorem fetchPayload_readingKept (s : State) : ReadingKept s (fetchPayload s).state := by
  refine bind_readingKept (readBits_readingKept _ _ s) fun r t => ?_
  cases r <;> rfl

/-! ### `RMG`, `DES` and `DEC` -/

/-- `RMG` ends with its 32 bits compared (R171). -/
theorem rmgBody_notReading {s t : State} (h : rmgBody s = .ok () t) (hs : NotReading s) : NotReading t := by
  obtain ⟨m, u, hu, h⟩ := Res.bind_eq_ok h
  obtain ⟨more, v, hv, h⟩ := Res.bind_eq_ok h
  have hkept : ReadingKept s u := Res.state_eq hu ▸ fetchMagic_readingKept s
  unfold magicToken at hv
  split at hv <;> cases hv
  cases h
  exact .intro rfl (Eq.trans hkept.curKept hs.cur)

theorem inParse_curKept (s : State) : CurKept s (inParse s) := by
  unfold inParse
  split <;> rfl

theorem hdrIntToken_curKept (s : State) : CurKept s (hdrIntToken s).state := by
  unfold hdrIntToken noRoom
  split <;> exact inParse_curKept s

theorem hdrLeafToken_curKept (sym : Nat) (s : State) : CurKept s (hdrLeafToken sym s).state := by
  unfold hdrLeafToken noRoom
  split
  · split <;> exact inParse_curKept s
  · exact inParse_curKept s

theorem desRound_curKept (s : State) : CurKept s (desRound s).state := by
  refine Res.bind_keeps (R := CurKept) .trans (fetchHeader_readingKept s).curKept fun mf t => ?_
  split
  · exact hdrIntToken_curKept t
  · exact hdrLeafToken_curKept _ t

/-- The token that ends a parse leaves nothing of the header to read (R177). -/
theorem hdrLeafToken_scan_of_end {sym : Nat} {s t : State} (h : hdrLeafToken sym s = .ok false t) :
    t.scan = .idle := by
  unfold hdrLeafToken noRoom at h
  split at h
  · split at h <;> cases h
    rfl
  · cases h

theorem desRound_scan_of_end {s t : State} (h : desRound s = .ok false t) : t.scan = .idle := by
  obtain ⟨mf, u, -, h⟩ := Res.bind_eq_ok h
  split at h
  · exact absurd (hdrIntToken_eq_ok h).1 (by decide)
  · exact hdrLeafToken_scan_of_end h

/-- `DES` ends in the round that reads the last token of its header (R174, R283). -/
theorem desBody_notReading {s t : State} (h : desBody s = .ok () t) (hs : NotReading s) : NotReading t := by
  have hcur : CurKept (beginParse s) t :=
    Res.state_eq h ▸ loop_keeps (R := CurKept) (fun _ => rfl) .trans desRound_curKept _ (beginParse s)
  obtain ⟨u, hu⟩ := loop_eq_ok (fun _ _ h => (desRound_eq_ok h).1) (Nat.lt_succ_self _) h
  exact .intro (desRound_scan_of_end hu) (Eq.trans hcur hs.cur)

theorem payMove_scanKept (b : Bool) (path : Bits) (s : State) : ScanKept s (payMove b path s).state := by
  unfold payMove
  split
  · split
    · rfl
    · split
      · rfl
      · exact Res.bind_keeps (R := ScanKept) .trans (writeStr_readingKept _ _ s).scanKept fun _ _ => rfl
  · rfl
  · rfl

theorem payToken_scanKept (b : Bool) (s : State) : ScanKept s (payToken b s).state := by
  unfold payToken
  split
  · exact payMove_scanKept b _ s
  · split
    · exact payMove_scanKept b [] { s with cur := some [] }
    · rfl

theorem decRound_scanKept (s : State) : ScanKept s (decRound s).state :=
  Res.bind_keeps (R := ScanKept) .trans (fetchPayload_readingKept s).scanKept fun _ t => payToken_scanKept _ t

/-- `DEC` ends with no walk going on (R205). -/
theorem decBody_notReading {s t : State} (h : decBody s = .ok () t) (hs : NotReading s) : NotReading t := by
  have hscan : ScanKept s t :=
    Res.state_eq h ▸ loop_keeps (R := ScanKept) (fun _ => rfl) .trans decRound_scanKept _ { s with cur := some [] }
  exact .intro (Eq.trans hscan hs.scan) (decBody_eq_ok h).1

/-! ## How an instruction ends -/

/-- Where a body reaches its end the history mark is as it was, and a container is being read only if one was
before. -/
def EndsQuietly (body : State → Res Unit) : Prop :=
  ∀ s t, body s = .ok () t → t.mark = s.mark ∧ (NotReading s → NotReading t)

section
variable {body : State → Res Unit}

theorem EndsQuietly.of_keeps (hk : ∀ s, Keeps s (body s).state)
    (hr : ∀ s t, body s = .ok () t → NotReading s → NotReading t) : EndsQuietly body :=
  fun s t h => ⟨(Res.state_eq h ▸ hk s).mark, hr s t h⟩

theorem EndsQuietly.of_readingKept (hk : ∀ s, Keeps s (body s).state) (hr : ∀ s, ReadingKept s (body s).state) :
    EndsQuietly body :=
  .of_keeps hk fun _ _ h hs => Eq.trans (Res.state_eq h ▸ hr _) hs

theorem EndsQuietly.bind {k : State → Res Unit} (h : EndsQuietly body) (hk : EndsQuietly k) :
    EndsQuietly fun s => (body s).bind fun _ => k := by
  intro s t ht
  obtain ⟨_, u, hu, ht⟩ := Res.bind_eq_ok ht
  obtain ⟨hmark, hrest⟩ := h s u hu
  obtain ⟨kmark, krest⟩ := hk u t ht
  exact ⟨kmark.trans hmark, krest ∘ hrest⟩

/-- A composite command discards what it finds, and the reading of a container with it (R220, R221). -/
theorem EndsQuietly.discardAll (h : EndsQuietly body) : EndsQuietly fun s => body (discardAll s) :=
  fun _ t ht => ⟨(h _ t ht).1, fun _ => (h _ t ht).2 rfl⟩

end

theorem cntBody_endsQuietly : EndsQuietly cntBody := .of_readingKept cntBody_keeps cntBody_readingKept

theorem bldBody_endsQuietly : EndsQuietly bldBody := .of_readingKept bldBody_keeps bldBody_readingKept

theorem genBody_endsQuietly : EndsQuietly genBody := .of_readingKept genBody_keeps fun _ => rfl

theorem wmgBody_endsQuietly : EndsQuietly wmgBody := .of_readingKept wmgBody_keeps fun s => writeStr_readingKept _ _ s

theorem serBody_endsQuietly : EndsQuietly serBody := .of_readingKept serBody_keeps fun s => putTree_readingKept _ s

theorem encBody_endsQuietly : EndsQuietly encBody := .of_readingKept encBody_keeps encBody_readingKept

theorem finBody_endsQuietly (p : Phase) : EndsQuietly (finBody p) := by
  intro s t h
  rcases finBody_cases p s with ⟨l, e⟩ | ⟨l, e⟩ <;> cases e.symm.trans h
  exact ⟨rfl, id⟩

theorem rmgBody_endsQuietly : EndsQuietly rmgBody := .of_keeps rmgBody_keeps fun _ _ => rmgBody_notReading

theorem desBody_endsQuietly : EndsQuietly desBody := .of_keeps desBody_keeps fun _ _ => desBody_notReading

theorem decBody_endsQuietly : EndsQuietly decBody := .of_keeps decBody_keeps fun _ _ => decBody_notReading

theorem cmpBody_endsQuietly : EndsQuietly cmpBody :=
  cntBody_endsQuietly.discardAll.bind <| bldBody_endsQuietly.bind <| genBody_endsQuietly.bind <|
    wmgBody_endsQuietly.bind <| serBody_endsQuietly.bind <| encBody_endsQuietly.bind <| finBody_endsQuietly _

theorem dcmpBody_endsQuietly : EndsQuietly dcmpBody :=
  rmgBody_endsQuietly.discardAll.bind <| desBody_endsQuietly.bind <| decBody_endsQuietly.bind <| finBody_endsQuietly _

/-- The three ways in which an instruction ends, in every state (R215, R240, R243): the engine refuses it, it raises a
fault, or it does neither and leaves the history mark. A command of the third kind is done, and reads a container only
if one was being read. -/
inductive ExecEnd (i : Instr) (s : State) : State → Prop where
  | refused (he : s.err ≠ .none) (hi : i ≠ .clr) : ExecEnd i s (refuseCommand s)
  | raised (u : State) (f : ErrCode) (p : Phase) (hf : f ≠ .none) : ExecEnd i s (u.faultedWith f p)
  | kept (t : State) (hs : s.err = .none ∨ i = .clr) (he : t.err = .none) (hmark : t.mark = s.mark)
    (hdone : i.space = .command → t.done = true ∧ (NotReading s → NotReading t)) : ExecEnd i s t

section
variable {i : Instr} {s t : State}

theorem CommandBody.execEnd {pre : State → Bool} {body : State → Res Unit} (h : CommandBody i pre body)
    (hq : EndsQuietly body) (he : s.err = .none) : ∃ t, Machine.exec i s = .next t ∧ ExecEnd i s t := by
  rw [h.exec]
  rcases dispatch_cases pre body s with ⟨hne, -⟩ | ⟨-, -, e⟩ | ⟨-, -, ⟨u, hu, e⟩ | ⟨f, p, u, hu, e⟩⟩
  · exact absurd he hne
  · exact ⟨_, e, .raised s _ _ nofun⟩
  · obtain ⟨hmark, hrest⟩ := hq _ u hu
    exact ⟨_, e, .kept _ (.inl he) ((h.completes _ u hu).1.trans he) hmark fun _ => ⟨rfl, hrest⟩⟩
  · exact ⟨_, e, .raised u f p (ne_of_mem_bodyFaults (h.raises _ _ _ _ hu)).1⟩

theorem takeToken_execEnd {j : Instr} {token : State → Res Bool} (hraises : ∀ s, (token s).Raises (faultsOf j))
    (hkeeps : ∀ s, Keeps s (token s).state) (hi : i.space ≠ .command) (he : s.err = .none) :
    ∃ t, takeToken token s = .next t ∧ ExecEnd i s t := by
  rcases takeToken_cases token s with ⟨hne, -⟩ | ⟨-, ⟨more, u, hu, e⟩ | ⟨f, p, u, hu, e⟩⟩
  · exact absurd he hne
  · have hk : Keeps (setDone s false) u := Res.state_eq hu ▸ hkeeps _
    exact ⟨_, e, .kept _ (.inl he) (hk.err.trans he) hk.mark fun h => absurd h hi⟩
  · exact ⟨_, e, .raised u f p (faultsOf_ne_none (hraises _ _ _ _ hu))⟩

/-- Everything an instruction can do to the fault and to the history mark. -/
theorem exec_execEnd (i : Instr) (s : State) : ∃ t, exec i s = .next t ∧ ExecEnd i s t := by
  by_cases hclr : i = .clr
  · subst hclr
    exact ⟨_, rfl, .kept (clearFault s) (.inr rfl) rfl rfl fun _ => ⟨rfl, fun _ => rfl⟩⟩
  by_cases he : s.err = .none
  · cases i with
    | cnt => exact cnt_commandBody.execEnd cntBody_endsQuietly he
    | bld => exact bld_commandBody.execEnd bldBody_endsQuietly he
    | gen => exact gen_commandBody.execEnd genBody_endsQuietly he
    | wmg => exact wmg_commandBody.execEnd wmgBody_endsQuietly he
    | ser => exact ser_commandBody.execEnd serBody_endsQuietly he
    | enc => exact enc_commandBody.execEnd encBody_endsQuietly he
    | fin => exact fin_commandBody.execEnd (finBody_endsQuietly _) he
    | rmg => exact rmg_commandBody.execEnd rmgBody_endsQuietly he
    | des => exact des_commandBody.execEnd desBody_endsQuietly he
    | dec => exact dec_commandBody.execEnd decBody_endsQuietly he
    | cmp => exact cmp_commandBody.execEnd cmpBody_endsQuietly he
    | dcmp => exact dcmp_commandBody.execEnd dcmpBody_endsQuietly he
    | reserved0 | reserved13 | reserved14 => exact ⟨_, dispatchReserved_illegal he, .raised s _ _ nofun⟩
    | clr => exact absurd rfl hclr
    | magic m => exact takeToken_execEnd (magicToken_raises m) (magicToken_keeps m) nofun he
    | hdrInt => exact takeToken_execEnd hdrIntToken_raises hdrIntToken_keeps nofun he
    | hdrLeaf sym => exact takeToken_execEnd (hdrLeafToken_raises sym) (hdrLeafToken_keeps sym) nofun he
    | payL => exact takeToken_execEnd (payToken_raises false) (payToken_keeps false) nofun he
    | payR => exact takeToken_execEnd (payToken_raises true) (payToken_keeps true) nofun he
  · exact ⟨_, exec_faulted hclr he, .refused he hclr⟩

theorem ExecEnd.of_exec (h : exec i s = .next t) : ExecEnd i s t := by
  obtain ⟨u, hu, hend⟩ := exec_execEnd i s
  obtain rfl := Host.Outcome.next.inj (hu.symm.trans h)
  exact hend

theorem commandCompleted_iff :
    commandCompleted i s t = true ↔ (s.err = .none ∨ i = .clr) ∧ t.err = .none ∧ t.done = true := by
  simp [commandCompleted, and_assoc]

/-- A command that completes leaves the history mark, and reads no container (R278). -/
theorem ExecEnd.of_completed (h : ExecEnd i s t) (hi : i.space = .command) (hc : commandCompleted i s t = true) :
    t.mark = s.mark ∧ (NotReading s → NotReading t) := by
  obtain ⟨hs, he, -⟩ := commandCompleted_iff.1 hc
  cases h with
  | refused hne hclr => exact absurd hs (not_or.2 ⟨hne, hclr⟩)
  | raised u f p hf => exact absurd he hf
  | kept t _ _ hmark hdone => exact ⟨hmark, (hdone hi).2⟩

/-- A command that does not complete sets the history mark (R278). -/
theorem ExecEnd.of_not_completed (h : ExecEnd i s t) (hi : i.space = .command)
    (hc : commandCompleted i s t = false) : t.mark = true := by
  cases h with
  | refused => rfl
  | raised => rfl
  | kept t hs he _ hdone =>
    have hcompleted : commandCompleted i s t = true := commandCompleted_iff.2 ⟨hs, he, (hdone hi).1⟩
    simp [hcompleted] at hc

end

/-- Settles O17: an instruction that is refused or raises a fault answers a next state too. -/
theorem everyInstructionEnds : Obligations.EveryInstructionEnds := by
  intro i s
  obtain ⟨t, ht, -⟩ := exec_execEnd i s
  exact ⟨t, ht⟩

/-! ## The host's actions -/

/-- Settles O8: the host's reset is one action, a step of its own. -/
theorem hostResetClearsTheEngine : Obligations.HostResetClearsTheEngine := by
  intro s rest hb hh
  rw [step_between hb hh]
  rfl

/-- `BUSY` reads 0 between commands (R34, R35). -/
theorem status_busy_of_inv {s : State} (h : Inv s) (hb : BetweenCommands s) : (status s).extractLsb' 0 1 = 0#1 := by
  obtain ⟨hscan, hcur⟩ := h.between hb
  have hbusy : busy s = false := by simp [busy, hscan, hcur]
  rw [(statusShowsTheFlags s).1, hbusy]
  rfl

/-- Settles O54: each action is one step; the registers but 0 and 1 are matched as `n + 2`. -/
theorem hostActionsBetweenCommands : Obligations.HostActionsBetweenCommands := by
  intro s rest hb
  have hstatus : s.host = .readReg 1 :: rest → step s = .next { s with host := rest, lastRead := .reg (status s) } :=
    step_between hb
  refine ⟨step_idle hb, fun _ => step_between hb, step_between hb, step_between hb, hstatus,
    fun hinv hh => ⟨status s, status_busy_of_inv hinv hb, hstatus hh⟩, fun _ => step_between hb, fun n hn => ?_⟩
  match n, hn with
  | n + 2, _ => exact ⟨fun _ => step_between hb, step_between hb⟩

/-! ## The history mark -/

/-- The mark stays where it is set, and a fault sets it (R278). -/
structure Marks (s t : State) : Prop where
  stays : s.mark = true → t.mark = true
  fault : s.err = .none → t.err ≠ .none → t.mark = true

/-- A change that leaves the mark and takes no fault. -/
theorem Marks.of_kept {s t : State} (hmark : t.mark = s.mark) (herr : s.err = .none → t.err = .none) : Marks s t :=
  ⟨hmark.trans, fun he hne => absurd (herr he) hne⟩

theorem Keeps.marks_trans {s t u : State} (h : Keeps s t) (k : Marks t u) : Marks s u :=
  ⟨fun hm => k.stays (h.mark.trans hm), fun he => k.fault (h.err.trans he)⟩

theorem ExecEnd.marks {i : Instr} {s t : State} (h : ExecEnd i s t) : Marks s t := by
  cases h with
  | refused => exact ⟨fun _ => rfl, fun _ _ => rfl⟩
  | raised => exact ⟨fun _ => rfl, fun _ _ => rfl⟩
  | kept t _ he hmark => exact .of_kept hmark fun _ => he

/-- What an action of the host that runs no command keeps (R273). -/
structure HostKeeps (s t : State) : Prop where
  host : t.host = s.host
  mark : t.mark = s.mark
  err : s.err = .none → t.err = .none
  reading : NotReading s → NotReading t

theorem goOn_hostKeeps {s u : State} (h : HostKeeps s u) (t : State) (e : goOn u = .next t) : HostKeeps s t := by
  cases e
  exact h

/-- Everything an action of the host can do: the write of a command's code runs it, and no other action runs one
(R33, R273). -/
theorem hostAction_cases (a : HostAction) (s : State) :
    (∃ i, a.command = some i ∧ hostAction a s = .run i s) ∨
      (a.command = none ∧ ∃ o, hostAction a s = .stop o ∧ ∀ t, o = .next t → HostKeeps s t) := by
  cases a with
  | attachIn | attachOut | readOut => exact .inr ⟨rfl, _, rfl, goOn_hostKeeps ⟨rfl, rfl, id, id⟩⟩
  | reset => exact .inr ⟨rfl, _, rfl, goOn_hostKeeps ⟨rfl, rfl, fun _ => rfl, fun _ => rfl⟩⟩
  | writeReg reg v =>
    match reg with
    | 0 => exact .inl ⟨_, rfl, rfl⟩
    | 1 => exact .inr ⟨rfl, _, rfl, goOn_hostKeeps ⟨rfl, rfl, id, id⟩⟩
    | _ + 2 => exact .inr ⟨rfl, _, rfl, fun t h => by cases h⟩
  | readReg reg =>
    rw [hostAction]
    split
    · exact .inr ⟨rfl, _, rfl, goOn_hostKeeps ⟨rfl, rfl, id, id⟩⟩
    · exact .inr ⟨rfl, _, rfl, fun t h => by cases h⟩

/-- The host's next action is a command, which runs, or another action (R273, R277). -/
theorem step_action_cases {s t : State} (hb : BetweenCommands s) {a : HostAction} {rest : List HostAction}
    (hh : s.host = a :: rest) (h : step s = .next t) :
    (∃ i, a.command = some i ∧ i.space = .command ∧ exec i { s with host := rest } = .next t) ∨
      HostKeeps { s with host := rest } t := by
  rw [step_between hb hh] at h
  rcases hostAction_cases a { s with host := rest } with ⟨i, ha, e⟩ | ⟨-, o, e, hk⟩ <;> rw [e] at h
  · exact .inl ⟨i, ha, (hostAction_run e).1, h⟩
  · exact .inr (hk t h)

/-- A step that reads a token: it runs, or reading it is a fault (R240). -/
theorem step_fetched_marks {α : Type} {toInstr : α → Instr} {r : Res α} {s t : State}
    (hf : fetch s = fetched toInstr r) (hr : Keeps s r.state) (h : step s = .next t) : Marks s t := by
  cases r with
  | ok a u => exact hr.marks_trans (ExecEnd.of_exec (step_of_run hf ▸ h)).marks
  | raise f p u =>
    obtain rfl := Host.Outcome.next.inj ((step_of_stop hf).symm.trans h)
    exact ⟨fun _ => rfl, fun _ _ => rfl⟩

/-- No step clears the mark, and one that takes a fault sets it (R278). -/
theorem step_marks {s t : State} (h : step s = .next t) : Marks s t := by
  by_cases hb : BetweenCommands s
  · cases hh : s.host with
    | nil =>
      obtain rfl := Host.Outcome.next.inj ((step_idle hb hh).symm.trans h)
      exact .of_kept rfl id
    | cons a rest =>
      rcases step_action_cases hb hh h with ⟨i, -, -, hexec⟩ | hk
      · have hm := (ExecEnd.of_exec hexec).marks
        exact ⟨hm.stays, hm.fault⟩
      · exact .of_kept hk.mark hk.err
  · have he : s.err = .none := by_contra fun hne => hb (.inl hne)
    cases hscan : s.scan with
    | magic => exact step_fetched_marks (fetch_magic he hscan) (fetchMagic_keeps s) h
    | header st => exact step_fetched_marks (fetch_header he hscan) (fetchHeader_keeps s) h
    | idle =>
      cases hcur : s.cur with
      | none => exact absurd (.inr ⟨hscan, hcur⟩) hb
      | some path => exact step_fetched_marks (fetch_payload he hscan hcur) (fetchPayload_keeps s) h

/-- The mark after a command (R278). -/
theorem exec_command_mark_iff {i : Instr} {s t : State} (hi : i.space = .command) (h : exec i s = .next t) :
    t.mark = true ↔ s.mark = true ∨ commandCompleted i s t = false := by
  have hend := ExecEnd.of_exec h
  cases hc : commandCompleted i s t with
  | false => simp [hend.of_not_completed hi hc]
  | true => simp [(hend.of_completed hi hc).1]

/-! ## Runs -/

/-- An engine without a fault, between commands. -/
structure Waiting (s : State) : Prop where
  err : s.err = .none
  reading : NotReading s

theorem Waiting.between {s : State} (h : Waiting s) (as : List HostAction) : BetweenCommands { s with host := as } :=
  .inr ⟨h.reading.scan, h.reading.cur⟩

/-- No command of the event failed: it is `CLR`, which every engine takes, or its command completed. -/
def RunEvent.Passed (e : RunEvent) : Prop := e.isClear = true ∨ e.completed = true

/-- An action of a run is one step, which leaves the engine waiting and the mark as it was, unless it is a command that
does not complete. -/
theorem Waiting.step_action {s t : State} (hs : Waiting s) {a : HostAction} {as : List HostAction}
    (h : step { s with host := a :: as } = .next t) (hp : RunEvent.Passed ⟨a, s, t⟩) :
    Waiting t ∧ t.host = as ∧ t.mark = s.mark := by
  rcases step_action_cases (hs.between _) rfl h with ⟨i, ha, hi, hexec⟩ | hk
  · have hc : commandCompleted i s t = true := by
      rcases hp with hclear | hc
      · obtain rfl : i = .clr := by simpa [RunEvent.isClear, ha] using hclear
        obtain rfl := Host.Outcome.next.inj hexec
        exact clr_completes s
      · simpa only [RunEvent.completed, ha] using hc
    obtain ⟨hmark, hreading⟩ := (ExecEnd.of_exec hexec).of_completed hi hc
    exact ⟨⟨(commandCompleted_iff.1 hc).2.1, hreading hs.reading⟩, (exec_grows hexec).host, hmark⟩
  · exact ⟨⟨hk.err hs.err, hk.reading hs.reading⟩, hk.host, hk.mark⟩

/-- A run whose commands all complete takes one step for each of its actions. -/
theorem Waiting.run {as : List HostAction} {s : State} (hs : Waiting s) {es : List RunEvent}
    (h : runEvents as s = some es) (hp : ∀ e ∈ es, e.Passed) :
    ∃ t, Sys2Proof.core.run as.length { s with host := as } = .next t ∧ t.host = [] ∧ t.err = .none ∧
      t.mark = s.mark := by
  induction as generalizing s es with
  | nil => exact ⟨_, rfl, rfl, hs.err, rfl⟩
  | cons a as ih =>
    obtain ⟨t, es', ht, hes', rfl⟩ := runEvents_cons_eq_some h
    obtain ⟨hpt, hpes⟩ := List.forall_mem_cons.1 hp
    obtain ⟨hwait, rfl, hmark⟩ := hs.step_action ht hpt
    obtain ⟨u, hrun, hhost, herr, hu⟩ := ih hwait hes' hpes
    exact ⟨u, (run_succ_of_next ht _).trans hrun, hhost, herr, hu.trans hmark⟩

/-! ### Operations -/

theorem passed_of_unended {pending : List RunEvent} (h : (unended pending).all Operation.succeeded = true) :
    ∀ e ∈ pending, e.Passed := fun _ he => .inl (isClear_of_unended_succeeded h he)

theorem Operation.passed_of_succeeded {o : Operation} (h : o.succeeded = true) : ∀ e ∈ o.commands, e.Passed :=
  fun _ he => .inr (completed_of_succeeded h he)

theorem passed_cons {e : RunEvent} {es : List RunEvent} (he : e.action.command = none) (hes : ∀ x ∈ es, x.Passed) :
    ∀ x ∈ e :: es, x.Passed :=
  List.forall_mem_cons.2 ⟨.inr (RunEvent.completed_of_no_command he), hes⟩

/-- Every command of a run is in one of its operations, or is a `CLR` (R278). -/
theorem passed_of_operationsFrom {pending es : List RunEvent}
    (h : (operationsFrom pending es).all Operation.succeeded = true) :
    (∀ e ∈ pending, e.Passed) ∧ ∀ e ∈ es, e.Passed := by
  fun_induction operationsFrom pending es with
  | case1 pending => exact ⟨passed_of_unended h, List.forall_mem_nil _⟩
  | case2 pending e es bytes ha ih =>
    rw [List.all_append, Bool.and_eq_true] at h
    exact ⟨passed_of_unended h.1, passed_cons (by simp [ha]) (ih h.2).2⟩
  | case3 pending e es ha ih | case5 pending e es ha ih | case6 pending e es ha ih =>
    exact (ih h).imp_right (passed_cons (by simp [ha]))
  | case4 pending e es reg ha ih => exact (ih h).imp_right (passed_cons (by simp [ha]))
  | case7 pending e es reg value ha hfin ih =>
    rw [List.all_cons, Bool.and_eq_true] at h
    obtain ⟨hpending, he⟩ := List.forall_mem_append.1 (Operation.passed_of_succeeded h.1)
    exact ⟨hpending, List.forall_mem_cons.2 ⟨he e (List.mem_singleton_self e), (ih h.2).2⟩⟩
  | case8 pending e es reg value ha hcmp ih | case9 pending e es reg value ha hcmp ih =>
    rw [List.all_append, List.all_cons, Bool.and_eq_true, Bool.and_eq_true] at h
    obtain ⟨hpending, hop, hes⟩ := h
    have he := Operation.passed_of_succeeded hop e (List.mem_singleton_self e)
    exact ⟨passed_of_unended hpending, List.forall_mem_cons.2 ⟨he, (ih hes).2⟩⟩
  | case10 pending e es reg value ha i hfin hcmp hdcmp hi ih =>
    obtain ⟨hpending, hes⟩ := ih h
    obtain ⟨hpending, he⟩ := List.forall_mem_append.1 hpending
    exact ⟨hpending, List.forall_mem_cons.2 ⟨he e (List.mem_singleton_self e), hes⟩⟩
  | case11 pending e es reg value ha hnone ih => exact (ih h).imp_right (passed_cons hnone)

/-- A successful run from an engine without a fault (R278). -/
theorem Waiting.run_of_succeeded {as : List HostAction} {s : State} (hs : Waiting s) (h : runSucceeded as s = true) :
    ∃ t, Sys2Proof.core.run as.length { s with host := as } = .next t ∧ t.host = [] ∧ t.err = .none ∧
      t.mark = s.mark := by
  unfold runSucceeded at h
  split at h
  · rename_i es hes
    exact hs.run hes (passed_of_operationsFrom h).2
  · cases h

/-! ### Success after a fault -/

/-- The run that R244 and R222 offer a faulted engine: `CLR`, new streams, `CMP`. -/
def recovery (X : List Byte) : List HostAction := [.writeReg 0 15#16, .attachIn X, .attachOut, .writeReg 0 11#16]

/-- Its one operation is the `CMP`: the `CLR` before the new input is none (R278; log 30). -/
theorem runSucceeded_recovery_of_steps {s s₁ s₂ s₃ t : State} {X : List Byte}
    (h₁ : step { s with host := recovery X } = .next s₁)
    (h₂ : step { s₁ with host := [.attachIn X, .attachOut, .writeReg 0 11#16] } = .next s₂)
    (h₃ : step { s₂ with host := [.attachOut, .writeReg 0 11#16] } = .next s₃)
    (h₄ : step { s₃ with host := [.writeReg 0 11#16] } = .next t)
    (hc : commandCompleted .cmp s₃ t = true) (ho : t.out.closed = true) : runSucceeded (recovery X) s = true := by
  have hevents : runEvents (recovery X) s = some [⟨.writeReg 0 15#16, s, s₁⟩, ⟨.attachIn X, s₁, s₂⟩,
      ⟨.attachOut, s₂, s₃⟩, ⟨.writeReg 0 11#16, s₃, t⟩] := by
    rw [recovery, runEvents_cons h₁, runEvents_cons h₂, runEvents_cons h₃, runEvents_cons h₄]
    rfl
  have hop : Operation.succeeded ⟨[⟨.writeReg 0 11#16, s₃, t⟩], true⟩ = true := by
    simp [Operation.succeeded, RunEvent.completed, show decodeCommand 11 = .cmp from rfl, hc, ho]
  rw [runSucceeded, hevents]
  exact (Bool.and_true _).trans hop

/-- `CLR` leaves an engine without a fault whatever it finds, and from there the compression of an input within the
limits completes (R220, R222, R244). -/
theorem runSucceeded_recovery {s : State} {X : List Byte} (hb : BetweenCommands s) (hio : s.ioFail = [])
    (hfit : InputFits s.cfg X.length) : runSucceeded (recovery X) s = true := by
  obtain ⟨f, T, c, e, -, hcmp⟩ :=
    exec_cmp_ok (s := { attachOutput (attachInput X (clearFault s)) with host := [] }) ⟨rfl, hio⟩ rfl rfl hfit
  have h₁ := step_command (s := { s with host := recovery X }) hb rfl
  have h₂ := step_between (s := { clearFault s with host := [.attachIn X, .attachOut, .writeReg 0 11#16] })
    (.inr ⟨rfl, rfl⟩) rfl
  have h₃ := step_between (s := { attachInput X (clearFault s) with host := [.attachOut, .writeReg 0 11#16] })
    (.inr ⟨rfl, rfl⟩) rfl
  have h₄ := step_command (s := { attachOutput (attachInput X (clearFault s)) with host := [.writeReg 0 11#16] })
    (.inr ⟨rfl, rfl⟩) rfl
  exact runSucceeded_recovery_of_steps h₁ h₂ h₃ (h₄.trans hcmp) rfl rfl

/-- Settles O58: the mark after every step and every instruction from how they end, and a successful run by induction on
its actions. -/
theorem historyMarkAndSuccessfulRuns : Obligations.HistoryMarkAndSuccessfulRuns := by
  refine ⟨fun s t h => (step_marks h).stays, fun s t h => (step_marks h).fault, fun i s t h hi he => ?_,
    fun i s t => exec_command_mark_iff, fun as s hb he h => ?_, fun s X => runSucceeded_recovery⟩
  · obtain rfl := Host.Outcome.next.inj ((exec_faulted hi he).symm.trans h)
    rfl
  · obtain ⟨hscan, hcur⟩ := hb.resolve_left (not_not.2 he)
    exact Waiting.run_of_succeeded ⟨he, .intro hscan hcur⟩ h

end Sys2Proof.Machine
